-- ==== Sys2Proof/Word.lean ====
section
/-! DEFINITION. The words of BBCORE: bytes, 32-bit registers and binary64 patterns (00_scope.md R7, R11; 10_state.md R20). -/
namespace Sys2Proof

/-- One byte of a sample buffer (10_state.md R34). -/
abbrev Byte := BitVec 8

/-- One 32-bit register, or the data of one host transaction (10_state.md R20, 20_memory.md R51). -/
abbrev Word := BitVec 32

/-- The 64-bit pattern of one IEEE 754 binary64 value (00_scope.md R11, R12). -/
abbrev F64 := BitVec 64

end Sys2Proof
end

