-- ==== Sys2Proof/Config.lean ====
section
/-! DEFINITION. The implementation parameters of 00_scope.md R6, and the free values of the model: opaque constants with no body. -/
namespace Sys2Proof

/-- Which function an instance uses for `EXP10` (00_scope.md R6): the spec's default, 10^x correctly rounded, or another
function with the properties of 44_awgn.md R152. -/
inductive Config.Exp10Choice where
  | rounded
  | other
  deriving DecidableEq, Repr

/-- The parameters one instance of BBCORE is built with (00_scope.md R3, R6). They are the only variation between instances and
no step changes them. DESIGN CHOICE (notes/assumptions/1.md): they stand in State, so that a statement over all states
covers every instance. -/
structure Config.Params where
  /-- `IBUF_BYTES`, the size of the input buffer in bytes. -/
  ibufBytes : Nat
  /-- `OBUF_BYTES`, the size of the output buffer in bytes. -/
  obufBytes : Nat
  /-- `QPSK_S`, the binary64 value used for 1/√2 (43_qpsk.md R140). -/
  qpskS : F64
  /-- `EXP10`. -/
  exp10 : Config.Exp10Choice
  deriving DecidableEq, Repr

/-- The defaults of 00_scope.md R6. -/
def Config.defaults : Config.Params :=
  { ibufBytes := 65536, obufBytes := 65536, qpskS := 0x3FE6A09E667F3BCD, exp10 := .rounded }

/-- A legal buffer size: a multiple of 16, from 16 to 1048576 (00_scope.md R6). -/
def Config.legalSize (n : Nat) : Bool := decide (n % 16 = 0) && decide (16 ≤ n) && decide (n ≤ 1048576)

/-- The legal values of the parameters: both sizes legal, and `QPSK_S` positive and finite (00_scope.md R6). -/
def Config.Params.legal (p : Config.Params) : Bool :=
  Config.legalSize p.ibufBytes && Config.legalSize p.obufBytes && decide (0 < p.qpskS.toNat) &&
    decide (p.qpskS.toNat < 0x7FF0000000000000)

/-- The arithmetic operation of a command that may answer a propagated NaN (00_scope.md R11); `i` is the element's index, `k` the
pair's. Names the place a free NaN payload belongs to. -/
inductive Config.NanSite where
  | manSum (k : Nat) | manMean (k : Nat)
  | square (i : Nat) | squareIm (i : Nat) | power (i : Nat) | accumulate (i : Nat) | mean
  | snrTenth | variance | half | root
  | scale (i : Nat) | scaleIm (i : Nat) | add (i : Nat) | addIm (i : Nat)
  deriving DecidableEq, Repr

/-- FREE VALUE (notes/assumptions/4.md): the payload of the NaN an operation answers when an operand is a NaN, for the
operation's number (State.freeCnt) and the place in it (00_scope.md R11, 93_implementation_defined.md S5). -/
opaque Config.nanPayload : Nat → Config.NanSite → F64

/-- FREE VALUE (notes/assumptions/5.md): the noise source `NOISE(seed, index)`, OPEN in 00_scope.md R6, before it is made
finite (44_awgn.md R151). -/
opaque Config.noise : BitVec 64 → BitVec 64 → F64

/-- FREE VALUE (notes/assumptions/7.md): an `EXP10` other than the default (44_awgn.md R152), used where it has the rule's properties. -/
opaque Config.otherExp10 : F64 → F64

/-- FREE VALUE (notes/assumptions/3.md): what an IBUF byte that nothing has written since reset number `epoch` holds, as the host
reads it (10_state.md R39). -/
opaque Config.ibufResidue : Nat → Nat → Byte

end Sys2Proof
end

