-- ==== Sys2Proof/Machine/Float.lean ====
section
/-! DEFINITION. The binary64 primitives of 00_scope.md R11, R12, and `EXP10` (44_awgn.md R152). A finite value is taken as an exact
whole number of units of 2^-1074, computed with exactly, and rounded once, to nearest with ties to even. -/
namespace Sys2Proof.Machine

/-! The format (00_scope.md R11). -/

def signBit (x : F64) : Bool := x.getLsbD 63
def exponentField (x : F64) : Nat := (x.extractLsb' 52 11).toNat
def fractionField (x : F64) : Nat := (x.extractLsb' 0 52).toNat
def isNaN (x : F64) : Bool := decide (exponentField x = 2047) && decide (fractionField x ≠ 0)
def isInf (x : F64) : Bool := decide (exponentField x = 2047) && decide (fractionField x = 0)
def isFinite (x : F64) : Bool := decide (exponentField x ≠ 2047)
def isZero (x : F64) : Bool := decide (exponentField x = 0) && decide (fractionField x = 0)

/-! The constants (00_scope.md R12). -/

def plusZero : F64 := 0x0000000000000000
def minusZero : F64 := 0x8000000000000000
def plusOne : F64 := 0x3FF0000000000000
def minusOne : F64 := 0xBFF0000000000000
def two : F64 := 0x4000000000000000
def ten : F64 := 0x4024000000000000
def plusInf : F64 := 0x7FF0000000000000
def minusInf : F64 := 0xFFF0000000000000
/-- The NaN an operation makes from operands that are none (00_scope.md R11). -/
def defaultNaN : F64 := 0x7FF8000000000000

/-- The quiet NaN nearest to a free pattern: its sign and payload are the pattern's, so every quiet NaN is one
(00_scope.md R11, 93_implementation_defined.md S5). -/
def quietNaN (free : F64) : F64 := free ||| defaultNaN

/-- The value with its sign bit flipped (43_qpsk.md R140). -/
def negate (x : F64) : F64 := x ^^^ minusZero

/-! Exact values. -/

/-- The magnitude of the non-negative pattern `p`, in units of 2^-1074. At the pattern of +∞ it is 2^1024, where the next binade
would begin. -/
def gridValue (p : Nat) : Nat := if p < 2 ^ 52 then p else (2 ^ 52 + p % 2 ^ 52) * 2 ^ (p / 2 ^ 52 - 1)

/-- The magnitude of a finite value, in units of 2^-1074. -/
def magnitude (x : F64) : Nat := gridValue (x.toNat % 2 ^ 63)

/-- A finite value, in units of 2^-1074. -/
def signedUnits (x : F64) : Int := if signBit x then -(magnitude x : Int) else magnitude x

/-- The pattern of +∞ as a number, one above the greatest finite pattern. -/
def infPattern : Nat := 0x7FF0000000000000

/-- The non-negative pattern nearest to `num / den` units of 2^-1074, ties to the even pattern, overflowing to +∞
(00_scope.md R11). `e` is how many places the value lies above the subnormal range. -/
def roundMag (num den : Nat) : Nat :=
  let e := Nat.log2 (num / den) - 52
  let d := den * 2 ^ e
  let k := num / d
  let r := num % d
  let up := decide (d < 2 * r) || (decide (d = 2 * r) && decide (k % 2 = 1))
  min infPattern (e * 2 ^ 52 + k + up.toNat)

/-- A pattern from a sign and a non-negative pattern. -/
def withSign (neg : Bool) (p : Nat) : F64 := BitVec.ofNat 64 p ||| (if neg then minusZero else plusZero)

/-- `num / den` units of 2^-1074 with a sign, rounded. -/
def rounded (neg : Bool) (num den : Nat) : F64 := withSign neg (roundMag num den)

/-! The operations (00_scope.md R11). `free` is the free pattern whose quiet NaN the operation answers when an operand is a NaN. -/

def fadd (free a b : F64) : F64 :=
  if isNaN a || isNaN b then quietNaN free
  else if isInf a then (if isInf b && signBit a != signBit b then defaultNaN else a)
  else if isInf b then b
  else
    let sum := signedUnits a + signedUnits b
    if sum = 0 then (if signBit a && signBit b then minusZero else plusZero)
    else rounded (decide (sum < 0)) sum.natAbs 1

def fsub (free a b : F64) : F64 :=
  if isNaN a || isNaN b then quietNaN free else fadd free a (negate b)

def fmul (free a b : F64) : F64 :=
  if isNaN a || isNaN b then quietNaN free
  else if isInf a || isInf b then
    (if isZero a || isZero b then defaultNaN else withSign (signBit a != signBit b) infPattern)
  else rounded (signBit a != signBit b) (magnitude a * magnitude b) (2 ^ 1074)

def fdiv (free a b : F64) : F64 :=
  if isNaN a || isNaN b then quietNaN free
  else if isInf a then (if isInf b then defaultNaN else withSign (signBit a != signBit b) infPattern)
  else if isInf b then withSign (signBit a != signBit b) 0
  else if isZero b then (if isZero a then defaultNaN else withSign (signBit a != signBit b) infPattern)
  else rounded (signBit a != signBit b) (magnitude a * 2 ^ 1074) (magnitude b)

/-- The whole part of a square root, two binary digits of `n` a step; exact for `n < 4 ^ fuel`. -/
def wholeSqrt : Nat → Nat → Nat
  | 0, _ => 0
  | fuel + 1, n =>
    let r := 2 * wholeSqrt fuel (n / 4)
    if (r + 1) * (r + 1) ≤ n then r + 1 else r

/-- The square root of a finite positive value. The value is `m · 2^(2h)` units of 2^-2148 with `m` of 120 to 174 bits; the root of `m`
is taken with its whole part and one bit that says whether anything was left over, which is enough to round once. -/
def rootOf (x : F64) : F64 :=
  let places := 1074 + (x.toNat % 2 ^ 63 / 2 ^ 52 - 1)
  let h := (places - 120) / 2
  let m := magnitude x * 2 ^ 1074 / 2 ^ (2 * h)
  let r := wholeSqrt 90 m
  let left := decide (r * r ≠ m)
  rounded false ((2 * r + left.toNat) * 2 ^ (h - 1)) 1

def fsqrt (free x : F64) : F64 :=
  if isNaN x then quietNaN free
  else if isZero x then x
  else if signBit x then defaultNaN
  else if isInf x then x
  else rootOf x

/-! The quiet comparisons (00_scope.md R11): every comparison with a NaN is false, and −0 equals +0. -/

/-- The order of the patterns that are no NaN, infinities included; both zeros are 0. -/
def orderKey (x : F64) : Int :=
  if signBit x then -((x.toNat % 2 ^ 63 : Nat) : Int) else ((x.toNat % 2 ^ 63 : Nat) : Int)

def flt (a b : F64) : Bool := !isNaN a && !isNaN b && decide (orderKey a < orderKey b)
def fgt (a b : F64) : Bool := flt b a
def feq (a b : F64) : Bool := !isNaN a && !isNaN b && decide (orderKey a = orderKey b)

/-- The binary64 value of an integer, exact for small ones (00_scope.md R11). -/
def f64 (k : Int) : F64 := rounded (decide (k < 0)) (k.natAbs * 2 ^ 1074) 1

/-! `EXP10` (44_awgn.md R150, R152). -/

/-- Whether the correctly rounded 10^x reaches the non-negative pattern `p > 0`, for `x = P / Q` or, with `neg`, `x = -(P / Q)`:
whether 10^x is above the middle between `p` and the pattern below it, or at the middle with `p` even. Both sides are
raised to the power `Q`, so the comparison is one of whole numbers. -/
def exp10Reaches (neg : Bool) (P Q p : Nat) : Bool :=
  let num := (gridValue (p - 1) + gridValue p) ^ Q
  let den := (2 ^ 1075) ^ Q
  let lhs := if neg then num * 10 ^ P else num
  let rhs := if neg then den else 10 ^ P * den
  decide (p ≤ infPattern) && (decide (lhs < rhs) || (decide (lhs = rhs) && decide (p % 2 = 0)))

/-- The greatest number of `bits` more binary digits above `p` that a downward-closed test accepts. -/
def greatest (test : Nat → Bool) : Nat → Nat → Nat
  | 0, p => p
  | bits + 1, p => if test (p + 2 ^ bits) then greatest test bits (p + 2 ^ bits) else greatest test bits p

/-- The default `EXP10`: 10^x rounded to nearest, ties to even, overflowing to +∞ and underflowing to a subnormal or +0.0
(44_awgn.md R152). Beyond ±400 the outcome is +∞ or +0.0, since 10^400 > 2^1024 and 10^-400 < 2^-1075. The NaN answered for a NaN
is the default one; no result shows which it is. -/
def exp10Rounded (x : F64) : F64 :=
  if isNaN x then defaultNaN
  else if isInf x || decide (400 * 2 ^ 1074 ≤ magnitude x) then (if signBit x then plusZero else plusInf)
  else
    let g := Nat.gcd (magnitude x) (2 ^ 1074)
    BitVec.ofNat 64 (greatest (exp10Reaches (signBit x) (magnitude x / g) (2 ^ 1074 / g)) 63 0)

/-- The pattern with a number in 0 .. 2^64 − 1. -/
abbrev patternOf (i : Fin (2 ^ 64)) : F64 := BitVec.ofFin i

/-- The properties every `EXP10` must have (44_awgn.md R152). -/
abbrev Exp10Legal (f : F64 → F64) : Prop :=
  f plusZero = plusOne ∧ f minusZero = plusOne ∧ f plusInf = plusInf ∧ f minusInf = plusZero ∧
  (∀ i : Fin (2 ^ 64), isNaN (patternOf i) = true → isNaN (f (patternOf i)) = true) ∧
  (∀ i : Fin (2 ^ 64), isNaN (patternOf i) = false →
    isNaN (f (patternOf i)) = false ∧ signBit (f (patternOf i)) = false) ∧
  (∀ i j : Fin (2 ^ 64), isNaN (patternOf i) = false → isNaN (patternOf j) = false →
    orderKey (patternOf i) ≤ orderKey (patternOf j) → orderKey (f (patternOf i)) ≤ orderKey (f (patternOf j)))

/-- The instance's `EXP10`: the default, or the instance's own function, which is taken only if it is legal
(00_scope.md R6, 44_awgn.md R152; notes/assumptions/7.md). -/
def exp10 (choice : Config.Exp10Choice) (x : F64) : F64 :=
  match choice with
  | .rounded => exp10Rounded x
  | .other => if Exp10Legal Config.otherExp10 then Config.otherExp10 x else exp10Rounded x

/-- The noise source: the opaque function where its value is finite, else +0.0. Every function with finite values is one
(44_awgn.md R151; notes/assumptions/5.md). -/
def noise (seed index : BitVec 64) : F64 :=
  if isFinite (Config.noise seed index) then Config.noise seed index else plusZero

end Sys2Proof.Machine
end

