-- ==== Sys2Proof/Request.lean ====
section
/-! DEFINITION. What a host may ask of the port: a read or a write at a byte offset, with the width it asks for
(20_memory.md R51, R52). A request outside the port's protocol can be written here, so that the model can refuse it by name. -/
namespace Sys2Proof

/-- One host request. `offset` is a byte offset in BBCORE's space and `width` a number of bits (20_memory.md R51, R52). -/
inductive Request where
  | read (offset width : Nat)
  | write (offset width : Nat) (data : Word)
  deriving DecidableEq, Repr

/-- The byte offset a request names. -/
def Request.offset : Request → Nat
  | .read a _ => a
  | .write a _ _ => a

/-- The width in bits a request asks for. -/
def Request.width : Request → Nat
  | .read _ w => w
  | .write _ w _ => w

end Sys2Proof
end

