-- ==== Sys2Proof/Syntax.lean ====
section
/-! DEFINITION. The eight operations of BBCORE, one constructor for each row of spec/opcode_table.json (30_encoding.md R81). -/
namespace Sys2Proof

/-- One command with `START` = 1. Every operand is implicit and fixed by `OP` (30_encoding.md R78); the one field a command
word carries besides `OP` is `IRQ_EN`, which the same write stores in `CTRL` (30_encoding.md R75, 10_state.md R25). -/
inductive Instr where
  /-- `MAN_ENC`, the Manchester line encoder (41_manchester.md R120). -/
  | manEnc (irqEn : Bool)
  /-- `MAN_DEC`, the Manchester line decoder (41_manchester.md R121). -/
  | manDec (irqEn : Bool)
  /-- `BPSK_MOD`, the antipodal mapper (42_bpsk.md R130). -/
  | bpskMod (irqEn : Bool)
  /-- `BPSK_DEMOD`, the sign slicer (42_bpsk.md R131). -/
  | bpskDemod (irqEn : Bool)
  /-- `QPSK_MOD`, the Gray-coded mapper (43_qpsk.md R141). -/
  | qpskMod (irqEn : Bool)
  /-- `QPSK_DEMOD`, the quadrant slicer (43_qpsk.md R142). -/
  | qpskDemod (irqEn : Bool)
  /-- `AWGN_REAL`, the channel for a real stream (44_awgn.md R155). -/
  | awgnReal (irqEn : Bool)
  /-- `AWGN_CPLX`, the channel for a complex stream (44_awgn.md R156). -/
  | awgnCplx (irqEn : Bool)
  deriving DecidableEq, Repr

end Sys2Proof
end

