-- ==== Sys2Proof/WellFormed.lean ====
section
/-! DEFINITION. Which commands and which host requests are well formed. -/
namespace Sys2Proof

/-- Every command term is well formed: its one operand, `IRQ_EN`, is one bit wide and takes both values
(10_state.md R25), so there is nothing to refuse. Written constructor by constructor, so that a new command cannot slip past. -/
def Instr.wellFormed : Instr → Bool
  | .manEnc _ => true
  | .manDec _ => true
  | .bpskMod _ => true
  | .bpskDemod _ => true
  | .qpskMod _ => true
  | .qpskDemod _ => true
  | .awgnReal _ => true
  | .awgnCplx _ => true

/-- A request has a spelling at the port when it is a 32-bit access, at a multiple of 4, inside the 22-bit byte space
(20_memory.md R50, R51). -/
def Request.wellFormed (r : Request) : Bool :=
  decide (r.width = 32) && decide (r.offset % 4 = 0) && decide (r.offset < 0x400000)

end Sys2Proof
end

