-- ==== Sys2Proof/Decode.lean ====
section
/-! DEFINITION. The command word: decoding, total and rejecting by name, and encoding (30_encoding.md R75 to R83). -/
namespace Sys2Proof

/-- Why a word issues no operation of the opcode map. -/
inductive DecodeError where
  /-- Fewer bytes than the one 32-bit word every command is (30_encoding.md R83). -/
  | truncated
  /-- `START` = 0: the word only stores `OP` and `IRQ_EN` (30_encoding.md R76). -/
  | noStart
  /-- `START` = 1 with a reserved `OP` (30_encoding.md R82). -/
  | reservedOp (op : BitVec 4)
  deriving DecidableEq, Repr

/-- The field `START`, bit 0 (30_encoding.md R75). -/
def startField (w : Word) : Bool := w.getLsbD 0

/-- The field `OP`, bits 7:4 (30_encoding.md R75). -/
def opField (w : Word) : BitVec 4 := w.extractLsb' 4 4

/-- The field `IRQ_EN`, bit 8 (30_encoding.md R75). -/
def irqField (w : Word) : Bool := w.getLsbD 8

/-- The operation an `OP` value selects, with the `IRQ_EN` of the same word; none for the reserved values
(30_encoding.md R81, R82). -/
def instrOfOp (op : BitVec 4) (irqEn : Bool) : Option Instr :=
  match op.toNat with
  | 1 => some (.manEnc irqEn)
  | 2 => some (.manDec irqEn)
  | 3 => some (.bpskMod irqEn)
  | 4 => some (.bpskDemod irqEn)
  | 5 => some (.qpskMod irqEn)
  | 6 => some (.qpskDemod irqEn)
  | 7 => some (.awgnReal irqEn)
  | 8 => some (.awgnCplx irqEn)
  | _ => none

/-- What a command word issues. Bits 31:9 and 3:1 are ignored (30_encoding.md R76, R77, R81, R82). -/
def decodeWord (w : Word) : Except DecodeError Instr :=
  if startField w then
    match instrOfOp (opField w) (irqField w) with
    | some i => .ok i
    | none => .error (.reservedOp (opField w))
  else .error .noStart

/-- The number a little-endian list of bytes spells (20_memory.md R58). -/
def leValue : List Byte → Nat
  | [] => 0
  | b :: bs => b.toNat + 256 * leValue bs

/-- The `n` lowest bytes of a number, lowest first (20_memory.md R58). -/
def leBytes : Nat → Nat → List Byte
  | 0, _ => []
  | n + 1, v => BitVec.ofNat 8 v :: leBytes n (v / 256)

/-- Decode one command from bytes, lowest address first, and return it with the bytes that follow it. -/
def decode (bytes : List Byte) : Except DecodeError (Instr × List Byte) :=
  match bytes with
  | b0 :: b1 :: b2 :: b3 :: rest =>
    match decodeWord (BitVec.ofNat 32 (leValue [b0, b1, b2, b3])) with
    | .ok i => .ok (i, rest)
    | .error e => .error e
  | _ => .error .truncated

/-- The `OP` value of an operation (30_encoding.md R81). -/
def Instr.code : Instr → BitVec 4
  | .manEnc _ => 0x1
  | .manDec _ => 0x2
  | .bpskMod _ => 0x3
  | .bpskDemod _ => 0x4
  | .qpskMod _ => 0x5
  | .qpskDemod _ => 0x6
  | .awgnReal _ => 0x7
  | .awgnCplx _ => 0x8

/-- The `IRQ_EN` bit a command carries (30_encoding.md R75). -/
def Instr.irqEn : Instr → Bool
  | .manEnc q => q
  | .manDec q => q
  | .bpskMod q => q
  | .bpskDemod q => q
  | .qpskMod q => q
  | .qpskDemod q => q
  | .awgnReal q => q
  | .awgnCplx q => q

/-- The word with the fields `IRQ_EN`, `OP`, `START` in their places and every reserved bit 0 (30_encoding.md R75). -/
def packWord (irqEn : Bool) (op : BitVec 4) (start : Bool) : Word :=
  (0 : BitVec 23) ++ BitVec.ofBool irqEn ++ op ++ (0 : BitVec 3) ++ BitVec.ofBool start

/-- The command word of an operation, its ignored bits 0 (30_encoding.md R75, R81, R92). -/
def encode (i : Instr) : Word := packWord i.irqEn i.code true

/-- The bytes of a command word, lowest address first (20_memory.md R58). -/
def encodeBytes (i : Instr) : List Byte := leBytes 4 (encode i).toNat

/-- What the decoder reads from a row of spec/opcode_table.json whose `nbits` bits are `w`: the word laid out in its four bytes and
given to `decode`; none where it refuses. -/
def decodeTableWord (nbits w : Nat) : Option Instr :=
  match decode (leBytes 4 (w % 2 ^ nbits)) with
  | .ok (i, _) => some i
  | .error _ => none

end Sys2Proof
end

