-- ==== Sys2Proof/Machine/State.lean ====
section
/-! DEFINITION. The state of BBCORE (10_state.md), why a step can stop, and the state right after reset (R38, R39, 70_reset_and_hazards.md R190). -/
namespace Sys2Proof.Machine

/-- The engine's phase, which `STATUS.BUSY` reads (10_state.md R35). -/
inductive Phase where
  | idle
  | busy
  deriving DecidableEq, Repr

/-- The error codes of `STATUS.ERR` (60_exceptions.md R171). Codes 7 to 15 are reserved and never raised. -/
inductive ErrorCode where
  | none
  | invalidBit
  | oddLength
  | invalidLength
  /-- Reserved for the host-side BER computation; BBCORE never raises it. -/
  | lengthMismatch
  | illegalOp
  | capacity
  deriving DecidableEq, Repr

/-- One of the two sample buffers: the bytes written since reset, each with its offset in the buffer, offsets strictly rising.
An offset not listed holds no value (10_state.md R34, R39). -/
abbrev Memory := List Host.Cell

/-- A transaction the port has completed, with the data of a read (20_memory.md R52). -/
inductive Answer where
  | read (offset : Nat) (data : Word)
  | write (offset : Nat) (data : Word)
  deriving DecidableEq, Repr

/-- One turn of an agent (00_scope.md R4): the host presents a request, the engine's turn comes, or `rst` is asserted
(70_reset_and_hazards.md R190). -/
inductive Event where
  | present (r : Request)
  | engine
  | reset
  deriving DecidableEq, Repr

/-- Why the machine stops with a fault. -/
inductive Fault where
  /-- Raised by an operation whose check or body reads an IBUF byte the host has not written since reset: 10_state.md R39 and
  93_implementation_defined.md S1 say a model faults there. Safe: the hardware goes on with some value. -/
  | unwrittenInput
  /-- Raised by a host read of an OBUF byte no operation has written since reset: 10_state.md R39 and
  93_implementation_defined.md S2 say a model faults there. Safe: the hardware returns some value. -/
  | unwrittenOutput
  deriving DecidableEq, Repr

/-- Why a step gives no meaning. -/
inductive Refusal where
  /-- Raised by an arm of `exec` whose instruction has no meaning yet; no arm does. Safe. -/
  | notModelled (mnemonic : String)
  /-- Raised by the port on a request that is not a 32-bit access at a multiple of 4 inside the 22-bit space: 20_memory.md R51
  says a model refuses it by name. Safe. -/
  | outsidePort
  deriving DecidableEq, Repr

/-- Everything BBCORE holds (10_state.md), with the input the outside world will give it. -/
structure State where
  /-- The instance's parameters; `IBUF_SIZE` and `OBUF_SIZE` read two of them (00_scope.md R6, 10_state.md R33). -/
  cfg : Config.Params
  /-- `CTRL.OP` (10_state.md R25). -/
  op : BitVec 4
  /-- `CTRL.IRQ_EN` (10_state.md R25). -/
  irqEn : Bool
  /-- `STATUS.BUSY`, the engine's phase (10_state.md R26, R35). -/
  phase : Phase
  /-- `STATUS.DONE` (10_state.md R26). -/
  done : Bool
  /-- `STATUS.ERR` (10_state.md R26). -/
  err : ErrorCode
  /-- `IN_LEN` (10_state.md R27). -/
  inLen : Word
  /-- `OUT_LEN` (10_state.md R28). -/
  outLen : Word
  /-- `ERR_INFO` (10_state.md R29). -/
  errInfo : Word
  /-- `SNR_DB_LO` (10_state.md R30). -/
  snrLo : Word
  /-- `SNR_DB_HI` (10_state.md R30). -/
  snrHi : Word
  /-- `SEED_LO` (10_state.md R31). -/
  seedLo : Word
  /-- `SEED_HI` (10_state.md R31). -/
  seedHi : Word
  /-- `DRAW_CNT`, read as `DRAW_CNT_LO` and `DRAW_CNT_HI` (10_state.md R32). -/
  drawCnt : BitVec 64
  /-- IBUF (10_state.md R34). -/
  ibuf : Memory
  /-- OBUF (10_state.md R34). -/
  obuf : Memory
  /-- The transaction the port holds (20_memory.md R56). -/
  held : Option Request
  /-- What the port completed in the last step: `ready` with `rdata`, or nothing (20_memory.md R52). -/
  answer : Option Answer
  /-- The model's own: the turns to come, oldest first (notes/assumptions/2.md). -/
  agenda : List Event
  /-- The model's own: the number of resets so far (notes/assumptions/3.md). -/
  epoch : Nat
  /-- The model's own: the number of operations completed with success so far (notes/assumptions/4.md). -/
  freeCnt : Nat
  deriving DecidableEq, Repr

/-- The state of an instance with parameters `p` after reset (10_state.md R38, R39; 70_reset_and_hazards.md R190). -/
def State.resetWith (p : Config.Params) : State :=
  { cfg := p, op := 0, irqEn := false, phase := .idle, done := false, err := .none,
    inLen := 0, outLen := 0, errInfo := 0, snrLo := 0, snrHi := 0, seedLo := 0, seedHi := 0, drawCnt := 0,
    ibuf := [], obuf := [], held := none, answer := none, agenda := [], epoch := 0, freeCnt := 0 }

/-- The state right after reset, on an instance with the default parameters (00_scope.md R6). -/
def State.reset : State := State.resetWith Config.defaults

end Sys2Proof.Machine
end

