-- ==== Sys2Proof/Machine/Ops.lean ====
section
/-! DEFINITION. The named operations over memory and registers: reading and writing bytes, starting a command, completing it with
success or with an error (40_operation_common.md R100, R106, R107), resetting (70_reset_and_hazards.md R190). -/
namespace Sys2Proof.Machine

/-! Memory (10_state.md R34, R39). -/

/-- The byte at an offset, if one has been written since reset. -/
def Memory.read : Memory → Nat → Option Byte
  | [], _ => none
  | (a, b) :: m, k => if a = k then some b else Memory.read m k

/-- Write one byte, keeping the offsets strictly rising. -/
def Memory.write : Memory → Nat → Byte → Memory
  | [], k, v => [(k, v)]
  | (a, b) :: m, k, v =>
    if k < a then (k, v) :: (a, b) :: m
    else if k = a then (k, v) :: m
    else (a, b) :: Memory.write m k v

/-- Write bytes at rising offsets from `k` on. -/
def Memory.writeList : Memory → Nat → List Byte → Memory
  | m, _, [] => m
  | m, k, b :: bs => Memory.writeList (Memory.write m k b) (k + 1) bs

/-- The `n` bytes from offset `k` on, if all have been written since reset. -/
def Memory.bytes (m : Memory) (k : Nat) : Nat → Option (List Byte)
  | 0 => some []
  | n + 1 =>
    match Memory.read m k, Memory.bytes m (k + 1) n with
    | some b, some bs => some (b :: bs)
    | _, _ => none

/-- Whether every offset of a memory is above `k`. -/
def Memory.above (k : Nat) (m : Memory) : Bool := m.all fun c => decide (k < c.1)

/-- The canonical form: offsets strictly rising. -/
def Memory.wf : Memory → Bool
  | [] => true
  | (a, _) :: m => Memory.above a m && Memory.wf m

/-- Whether every offset of a memory is below `size`. -/
def Memory.within (m : Memory) (size : Nat) : Bool := m.all fun c => decide (c.1 < size)

/-! Registers read as pairs (10_state.md R30, R31). -/

/-- `snr_db = {SNR_DB_HI, SNR_DB_LO}` (10_state.md R30). -/
def State.snrDb (s : State) : F64 := s.snrHi ++ s.snrLo

/-- `seed = {SEED_HI, SEED_LO}` (10_state.md R31). -/
def State.seed (s : State) : BitVec 64 := s.seedHi ++ s.seedLo

/-! Starting and completing an operation. -/

/-- The fields every `CTRL` write stores (10_state.md R25, 30_encoding.md R76). -/
def State.storeCommand (s : State) (op : BitVec 4) (irqEn : Bool) : State :=
  { s with op := op, irqEn := irqEn }

/-- What a `CTRL` write with `START` = 1 does before its operation runs (40_operation_common.md R100). -/
def State.start (s : State) (op : BitVec 4) (irqEn : Bool) : State :=
  { s with op := op, irqEn := irqEn, done := false, err := .none, phase := .busy }

/-- `done(m)`: the operation completes with `m` output elements (40_operation_common.md R106). -/
def State.complete (s : State) (m : Nat) : State :=
  { s with outLen := BitVec.ofNat 32 m, errInfo := 0, err := .none, done := true, phase := .idle }

/-- `raise Error(code, info)`: the operation completes with an error (40_operation_common.md R107). This is all that BBCORE does
for an exception: it saves nothing else and transfers no control (60_exceptions.md R170, R175). -/
def State.raiseError (s : State) (code : ErrorCode) (info : Word) : State :=
  { s with outLen := 0, errInfo := info, err := code, done := true, phase := .idle }

/-- The W1C clear of `DONE`, the host's acknowledgement (10_state.md R26). There is no return from an error besides this and
the next START, which also clears `ERR` (60_exceptions.md R176). -/
def State.clearDone (s : State) : State := { s with done := false }

/-- A successful operation's output: OBUF bytes from 0 on, and no others (20_memory.md R63). -/
def State.writeOutput (s : State) (bytes : List Byte) : State := { s with obuf := Memory.writeList s.obuf 0 bytes }

/-- `draw_cnt` advanced by the draws made, modulo 2^64 (44_awgn.md R157). -/
def State.advanceDraws (s : State) (k : Nat) : State := { s with drawCnt := s.drawCnt + BitVec.ofNat 64 k }

/-- The model's own counter of free NaN payloads, so that each operation has its own (notes/assumptions/4.md). -/
def State.nextFree (s : State) : State := { s with freeCnt := s.freeCnt + 1 }

/-! Turns and reset. -/

/-- The state in which a turn is taken: `rest` still to come, and nothing completed by the port yet. -/
def State.turn (s : State) (rest : List Event) : State := { s with agenda := rest, answer := none }

/-- `rst`: the reset state of the same instance. Nothing of the old state is kept but its parameters, what the outside world will
do next, and the model's own counters of free values (70_reset_and_hazards.md R190). -/
def State.resetTo (s : State) (rest : List Event) : State :=
  { State.resetWith s.cfg with agenda := rest, epoch := s.epoch + 1, freeCnt := s.freeCnt }

/-- The state in which the host has just performed the START write of the command word `w` and the engine's turn is next
(40_operation_common.md R100). -/
def State.placeCommand (s : State) (w : Word) : State :=
  let t := if startField w then s.start (opField w) (irqField w) else s.storeCommand (opField w) (irqField w)
  { t with agenda := .engine :: s.agenda }

end Sys2Proof.Machine
end

