-- ==== Sys2Proof/Machine/Operands.lean ====
section
/-! DEFINITION. The elements a buffer holds and their accessors (30_encoding.md R84 to R88). Every operand of BBCORE is one of these
or a register read at START (30_encoding.md R78, 40_operation_common.md R102). -/
namespace Sys2Proof.Machine

/-- The three element types (30_encoding.md R84). -/
inductive Elem where
  | bit
  | real
  | cplx
  deriving DecidableEq, Repr

/-- The bytes an element takes (30_encoding.md R84). -/
def elemSize : Elem → Nat
  | .bit => 1
  | .real => 8
  | .cplx => 16

/-- `InBit(i)`: the byte of bit element `i` (30_encoding.md R85). -/
def bitAt (m : Memory) (i : Nat) : Option Byte := Memory.read m i

/-- `InReal(i)`: the binary64 in bytes `[8i, 8i+8)`, little-endian (30_encoding.md R86, 20_memory.md R58). -/
def realAt (m : Memory) (i : Nat) : Option F64 :=
  (Memory.bytes m (8 * i) 8).map fun bs => BitVec.ofNat 64 (leValue bs)

/-- `InCplx(i)`: `re` in bytes `[16i, 16i+8)`, `im` in bytes `[16i+8, 16i+16)` (30_encoding.md R87). -/
def cplxAt (m : Memory) (i : Nat) : Option (F64 × F64) :=
  match realAt m (2 * i), realAt m (2 * i + 1) with
  | some re, some im => some (re, im)
  | _, _ => none

/-- Elements `i .. i+n−1` in ascending order, if all of them can be read (40_operation_common.md R109). -/
def collect {α : Type} (get : Nat → Option α) (i : Nat) : Nat → Option (List α)
  | 0 => some []
  | n + 1 =>
    match get i, collect get (i + 1) n with
    | some a, some as => some (a :: as)
    | _, _ => none

/-- The input elements of an operation: elements 0 to `IN_LEN` − 1 of IBUF (40_operation_common.md R102). -/
def inputs {α : Type} (s : State) (get : Memory → Nat → Option α) : Option (List α) :=
  collect (get s.ibuf) 0 s.inLen.toNat

/-- `OutReal`: the eight bytes of a binary64, lowest first (30_encoding.md R86). -/
def realBytes (x : F64) : List Byte := leBytes 8 x.toNat

/-- `OutCplx`: the bytes of `re`, then of `im` (30_encoding.md R87). -/
def cplxBytes (z : F64 × F64) : List Byte := realBytes z.1 ++ realBytes z.2

/-- A bit as the byte an output element holds, 0x00 or 0x01 (30_encoding.md R85, R88). -/
def bitByte (b : Bool) : Byte := if b then 1 else 0

/-- Whether a byte is a valid bit input (30_encoding.md R88). -/
def validBit (b : Byte) : Bool := decide (b = 0) || decide (b = 1)

end Sys2Proof.Machine
end

