-- ==== Sys2Proof/Machine/Operation.lean ====
section
/-! DEFINITION. The skeleton every operation shares: its checks in order, its body, its completion
(40_operation_common.md R103 to R108, 60_exceptions.md R174). -/
namespace Sys2Proof.Machine

/-- What the tables of 30_encoding.md R84 and 60_exceptions.md R174 give one operation. -/
structure Shape where
  /-- The `OP` value (30_encoding.md R81). -/
  code : BitVec 4
  /-- The input element type. -/
  input : Elem
  /-- The output element type. -/
  output : Elem
  /-- The error of check 3, for an operation that pairs its input. -/
  parity : Option ErrorCode
  /-- Whether check 5, the bit check, applies. -/
  checksBits : Bool
  /-- The output length for an input length. -/
  outLen : Nat → Nat

/-- What a body gives when it succeeds: the bytes of all its output elements, and how many draws it made. -/
structure Output where
  bytes : List Byte
  draws : Nat
  deriving DecidableEq, Repr

/-- What `Check` comes to. -/
inductive Verdict where
  | pass
  | error (code : ErrorCode) (info : Word)
  | stop (f : Fault)
  deriving DecidableEq, Repr

/-- Check 5: bit elements `i .. i+n−1` in ascending order. The first that is no bit is reported by its index; a byte never written is
a fault (60_exceptions.md R174, 10_state.md R39). -/
def scanBits (m : Memory) (i : Nat) : Nat → Verdict
  | 0 => .pass
  | n + 1 =>
    match bitAt m i with
    | none => .stop .unwrittenInput
    | some b => if validBit b then scanBits m (i + 1) n else .error .invalidBit (BitVec.ofNat 32 i)

/-- The error check 3 reports for an input length, if it fails (60_exceptions.md R174). -/
def parityError (sh : Shape) (n : Nat) : Option ErrorCode := if n % 2 = 1 then sh.parity else none

/-- Checks 2 to 5 of 60_exceptions.md R174, on unbounded integers (40_operation_common.md R105). Check 1 is the decoder's. -/
def check (sh : Shape) (s : State) : Verdict :=
  let n := s.inLen.toNat
  if s.cfg.ibufBytes < n * elemSize sh.input then .error .capacity 0
  else
    match parityError sh n with
    | some c => .error c 0
    | none =>
      if s.cfg.obufBytes < sh.outLen n * elemSize sh.output then .error .capacity 1
      else if sh.checksBits then scanBits s.ibuf 0 n
      else .pass

/-- A body that reads every input element and maps them to output. It faults when an element holds a byte never written
(10_state.md R39). -/
def bodyOf {α : Type} (s : State) (get : Memory → Nat → Option α) (f : List α → Output) : Except Fault Output :=
  match inputs s get with
  | some xs => .ok (f xs)
  | none => .error .unwrittenInput

/-- One whole operation: START, the checks, the body, the completion (40_operation_common.md R100, R103). The START's own effect is
part of it, so that it says what the command does from any state; where the host's write has made it already, making it again
changes nothing. -/
def operate (sh : Shape) (irqEn : Bool) (body : State → Except Fault Output) (s : State) :
    Host.Outcome State Fault Refusal :=
  let s := s.start sh.code irqEn
  match check sh s with
  | .stop f => .fault f
  | .error c info => .next (s.raiseError c info)
  | .pass =>
    match body s with
    | .error f => .fault f
    | .ok o => .next ((((s.writeOutput o.bytes).advanceDraws o.draws).nextFree).complete (sh.outLen s.inLen.toNat))

end Sys2Proof.Machine
end

