-- ==== Sys2Proof/Machine/Awgn.lean ====
section
/-! DEFINITION. `AWGN_REAL` and `AWGN_CPLX` (44_awgn.md). The arithmetic takes the linear SNR, the draws and the free NaN payloads as
arguments, and the bodies supply them from the state. -/
namespace Sys2Proof.Machine

/-- `snr_lin = EXP10(fdiv(snr_db, 10.0))` (44_awgn.md R150). -/
def snrLin (nan : Config.NanSite → F64) (s : State) : F64 := exp10 s.cfg.exp10 (fdiv (nan .snrTenth) s.snrDb ten)

/-- Draw `j` of an operation, `NOISE(seed, (draw_cnt + j) mod 2^64)` (44_awgn.md R151). -/
def draw (s : State) (j : Nat) : F64 := noise s.seed (s.drawCnt + BitVec.ofNat 64 j)

/-- `AWGN_REAL`'s types, length and checks (30_encoding.md R81, R84; 60_exceptions.md R174). -/
def awgnRealShape : Shape :=
  { code := 0x7, input := .real, output := .real, parity := none, checksBits := false, outLen := fun n => n }

/-- The running sum of the squares, from element `i` on (44_awgn.md R153). -/
def energySumReal (nan : Config.NanSite → F64) : Nat → F64 → List F64 → F64
  | _, acc, [] => acc
  | i, acc, x :: xs => energySumReal nan (i + 1) (fadd (nan (.accumulate i)) acc (fmul (nan (.square i)) x x)) xs

/-- The average energy `E` of a real stream (44_awgn.md R153). -/
def energyReal (nan : Config.NanSite → F64) (xs : List F64) : F64 :=
  fdiv (nan .mean) (energySumReal nan 0 plusZero xs) (f64 xs.length)

/-- `sigma = fsqrt(E / snr_lin)` (44_awgn.md R154, R155). -/
def sigmaReal (nan : Config.NanSite → F64) (snr : F64) (xs : List F64) : F64 :=
  fsqrt (nan .root) (fdiv (nan .variance) (energyReal nan xs) snr)

/-- `x + sigma · z`, element by element from element `i` on (44_awgn.md R155). -/
def addNoiseReal (nan : Config.NanSite → F64) (sigma : F64) (z : Nat → F64) : Nat → List F64 → List F64
  | _, [] => []
  | i, x :: xs => fadd (nan (.add i)) x (fmul (nan (.scale i)) sigma (z i)) :: addNoiseReal nan sigma z (i + 1) xs

/-- The channel's output for a real stream; nothing is computed for an empty one (44_awgn.md R155). -/
def channelReal (nan : Config.NanSite → F64) (snr : F64) (z : Nat → F64) (xs : List F64) : List F64 :=
  if xs = [] then [] else addNoiseReal nan (sigmaReal nan snr xs) z 0 xs

def awgnRealBody (s : State) : Except Fault Output :=
  let nan := Config.nanPayload s.freeCnt
  bodyOf s realAt fun xs =>
    { bytes := (channelReal nan (snrLin nan s) (draw s) xs).flatMap realBytes, draws := xs.length }

/-- `AWGN_REAL` (44_awgn.md R155). -/
def execAwgnReal (irqEn : Bool) (s : State) : Host.Outcome State Fault Refusal :=
  operate awgnRealShape irqEn awgnRealBody s

/-- `AWGN_CPLX`'s types, length and checks. -/
def awgnCplxShape : Shape :=
  { code := 0x8, input := .cplx, output := .cplx, parity := none, checksBits := false, outLen := fun n => n }

/-- The running sum of `re·re + im·im`, from element `i` on (44_awgn.md R153). -/
def energySumCplx (nan : Config.NanSite → F64) : Nat → F64 → List (F64 × F64) → F64
  | _, acc, [] => acc
  | i, acc, z :: zs =>
    let power := fadd (nan (.power i)) (fmul (nan (.square i)) z.1 z.1) (fmul (nan (.squareIm i)) z.2 z.2)
    energySumCplx nan (i + 1) (fadd (nan (.accumulate i)) acc power) zs

/-- The average energy `E` of a complex stream (44_awgn.md R153). -/
def energyCplx (nan : Config.NanSite → F64) (zs : List (F64 × F64)) : F64 :=
  fdiv (nan .mean) (energySumCplx nan 0 plusZero zs) (f64 zs.length)

/-- `sigma_c = fsqrt((E / snr_lin) / 2)`, the standard deviation of each component (44_awgn.md R156). -/
def sigmaCplx (nan : Config.NanSite → F64) (snr : F64) (zs : List (F64 × F64)) : F64 :=
  fsqrt (nan .root) (fdiv (nan .half) (fdiv (nan .variance) (energyCplx nan zs) snr) two)

/-- `re + sigma_c · zr` with draw `2i` and `im + sigma_c · zi` with draw `2i + 1`, from element `i` on (44_awgn.md R156). -/
def addNoiseCplx (nan : Config.NanSite → F64) (sigma : F64) (z : Nat → F64) : Nat → List (F64 × F64) → List (F64 × F64)
  | _, [] => []
  | i, x :: xs =>
    (fadd (nan (.add i)) x.1 (fmul (nan (.scale i)) sigma (z (2 * i))),
      fadd (nan (.addIm i)) x.2 (fmul (nan (.scaleIm i)) sigma (z (2 * i + 1)))) :: addNoiseCplx nan sigma z (i + 1) xs

/-- The channel's output for a complex stream; nothing is computed for an empty one (44_awgn.md R156). -/
def channelCplx (nan : Config.NanSite → F64) (snr : F64) (z : Nat → F64) (zs : List (F64 × F64)) : List (F64 × F64) :=
  if zs = [] then [] else addNoiseCplx nan (sigmaCplx nan snr zs) z 0 zs

def awgnCplxBody (s : State) : Except Fault Output :=
  let nan := Config.nanPayload s.freeCnt
  bodyOf s cplxAt fun zs =>
    { bytes := (channelCplx nan (snrLin nan s) (draw s) zs).flatMap cplxBytes, draws := 2 * zs.length }

/-- `AWGN_CPLX` (44_awgn.md R156). -/
def execAwgnCplx (irqEn : Bool) (s : State) : Host.Outcome State Fault Refusal :=
  operate awgnCplxShape irqEn awgnCplxBody s

end Sys2Proof.Machine
end

