-- ==== Sys2Proof/Machine/Bpsk.lean ====
section
/-! DEFINITION. `BPSK_MOD` and `BPSK_DEMOD` (42_bpsk.md). -/
namespace Sys2Proof.Machine

/-- `BPSK_MOD`'s types, length and checks (30_encoding.md R81, R84; 60_exceptions.md R174). -/
def bpskModShape : Shape :=
  { code := 0x3, input := .bit, output := .real, parity := none, checksBits := true, outLen := fun n => n }

/-- The symbol of a bit, `f64(2b − 1)` (42_bpsk.md R130). -/
def bpskSymbol (b : Byte) : F64 := f64 (2 * (b.toNat : Int) - 1)

def bpskModBody (s : State) : Except Fault Output :=
  bodyOf s bitAt fun bs => { bytes := (bs.map bpskSymbol).flatMap realBytes, draws := 0 }

/-- `BPSK_MOD` (42_bpsk.md R130). -/
def execBpskMod (irqEn : Bool) (s : State) : Host.Outcome State Fault Refusal :=
  operate bpskModShape irqEn bpskModBody s

/-- `BPSK_DEMOD`'s types, length and checks. -/
def bpskDemodShape : Shape :=
  { code := 0x4, input := .real, output := .bit, parity := none, checksBits := false, outLen := fun n => n }

/-- The sign slicer: 1 above zero, else 0 (42_bpsk.md R131). -/
def bpskSlice (x : F64) : Bool := fgt x plusZero

def bpskDemodBody (s : State) : Except Fault Output :=
  bodyOf s realAt fun xs => { bytes := xs.map fun x => bitByte (bpskSlice x), draws := 0 }

/-- `BPSK_DEMOD` (42_bpsk.md R131). -/
def execBpskDemod (irqEn : Bool) (s : State) : Host.Outcome State Fault Refusal :=
  operate bpskDemodShape irqEn bpskDemodBody s

end Sys2Proof.Machine
end

