-- ==== Sys2Proof/Machine/Manchester.lean ====
section
/-! DEFINITION. `MAN_ENC` and `MAN_DEC` (41_manchester.md). -/
namespace Sys2Proof.Machine

/-- `MAN_ENC`'s types, length and checks (30_encoding.md R81, R84; 60_exceptions.md R174). -/
def manEncShape : Shape :=
  { code := 0x1, input := .bit, output := .real, parity := none, checksBits := true, outLen := fun n => 2 * n }

/-- The pair of levels of a bit: 1 to [+1, −1], 0 to [−1, +1] (41_manchester.md R120). -/
def manLevels (b : Byte) : List F64 := if b = 1 then [plusOne, minusOne] else [minusOne, plusOne]

/-- The levels of a bit sequence (41_manchester.md R120). -/
def manEncode (bs : List Byte) : List F64 := bs.flatMap manLevels

def manEncBody (s : State) : Except Fault Output :=
  bodyOf s bitAt fun bs => { bytes := (manEncode bs).flatMap realBytes, draws := 0 }

/-- `MAN_ENC` (41_manchester.md R120). -/
def execManEnc (irqEn : Bool) (s : State) : Host.Outcome State Fault Refusal :=
  operate manEncShape irqEn manEncBody s

/-- `MAN_DEC`'s types, length and checks. -/
def manDecShape : Shape :=
  { code := 0x2, input := .real, output := .bit, parity := some .invalidLength, checksBits := false, outLen := fun n => n / 2 }

/-- The bit of pair `k`: an exact match first, else whether the mean is above zero (41_manchester.md R121). -/
def manDecide (nan : Config.NanSite → F64) (k : Nat) (a c : F64) : Bool :=
  if feq a plusOne && feq c minusOne then true
  else if feq a minusOne && feq c plusOne then false
  else fgt (fdiv (nan (.manMean k)) (fadd (nan (.manSum k)) a c) two) plusZero

/-- The bits of consecutive pairs of levels, the first of them pair `k` (41_manchester.md R121). -/
def manDecode (nan : Config.NanSite → F64) : Nat → List F64 → List Byte
  | k, a :: c :: xs => bitByte (manDecide nan k a c) :: manDecode nan (k + 1) xs
  | _, _ => []

def manDecBody (s : State) : Except Fault Output :=
  bodyOf s realAt fun xs => { bytes := manDecode (Config.nanPayload s.freeCnt) 0 xs, draws := 0 }

/-- `MAN_DEC` (41_manchester.md R121). -/
def execManDec (irqEn : Bool) (s : State) : Host.Outcome State Fault Refusal :=
  operate manDecShape irqEn manDecBody s

end Sys2Proof.Machine
end

