-- ==== Sys2Proof/Machine/Qpsk.lean ====
section
/-! DEFINITION. `QPSK_MOD` and `QPSK_DEMOD` (43_qpsk.md). -/
namespace Sys2Proof.Machine

/-- `QPSK_MOD`'s types, length and checks (30_encoding.md R81, R84; 60_exceptions.md R174). -/
def qpskModShape : Shape :=
  { code := 0x5, input := .bit, output := .cplx, parity := some .oddLength, checksBits := true, outLen := fun n => n / 2 }

/-- The symbol of a bit pair, with the component magnitude `S` (43_qpsk.md R140, R141). The bit check leaves no other pair (R146). -/
def qpskSymbol (S : F64) (b0 b1 : Byte) : F64 × F64 :=
  match decide (b0 = 1), decide (b1 = 1) with
  | false, false => (S, S)
  | false, true => (negate S, S)
  | true, true => (negate S, negate S)
  | true, false => (S, negate S)

/-- The symbols of consecutive bit pairs (43_qpsk.md R141). -/
def qpskMap (S : F64) : List Byte → List (F64 × F64)
  | b0 :: b1 :: bs => qpskSymbol S b0 b1 :: qpskMap S bs
  | _ => []

def qpskModBody (s : State) : Except Fault Output :=
  bodyOf s bitAt fun bs => { bytes := (qpskMap s.cfg.qpskS bs).flatMap cplxBytes, draws := 0 }

/-- `QPSK_MOD` (43_qpsk.md R141). -/
def execQpskMod (irqEn : Bool) (s : State) : Host.Outcome State Fault Refusal :=
  operate qpskModShape irqEn qpskModBody s

/-- `QPSK_DEMOD`'s types, length and checks. -/
def qpskDemodShape : Shape :=
  { code := 0x6, input := .cplx, output := .bit, parity := none, checksBits := false, outLen := fun n => 2 * n }

/-- The two bits of a symbol, `b0` first, by the signs of its components; a component that is not below zero counts as
"≥ 0" (43_qpsk.md R142). -/
def qpskSlice (z : F64 × F64) : List Byte :=
  match flt z.1 plusZero, flt z.2 plusZero with
  | false, false => [0, 0]
  | true, false => [0, 1]
  | true, true => [1, 1]
  | false, true => [1, 0]

def qpskDemodBody (s : State) : Except Fault Output :=
  bodyOf s cplxAt fun zs => { bytes := zs.flatMap qpskSlice, draws := 0 }

/-- `QPSK_DEMOD` (43_qpsk.md R142). -/
def execQpskDemod (irqEn : Bool) (s : State) : Host.Outcome State Fault Refusal :=
  operate qpskDemodShape irqEn qpskDemodBody s

end Sys2Proof.Machine
end

