-- ==== Sys2Proof/Machine/Dispatch.lean ====
section
/-! DEFINITION. One arm for each operation of the opcode map (30_encoding.md R81). -/
namespace Sys2Proof.Machine

-- What a command does, from the START to its completion (40_operation_common.md R100, R101).
def exec (i : Instr) (s : State) : Host.Outcome State Fault Refusal :=
  match i with
  | .manEnc irqEn => Sys2Proof.Machine.execManEnc irqEn s
  | .manDec irqEn => Sys2Proof.Machine.execManDec irqEn s
  | .bpskMod irqEn => Sys2Proof.Machine.execBpskMod irqEn s
  | .bpskDemod irqEn => Sys2Proof.Machine.execBpskDemod irqEn s
  | .qpskMod irqEn => Sys2Proof.Machine.execQpskMod irqEn s
  | .qpskDemod irqEn => Sys2Proof.Machine.execQpskDemod irqEn s
  | .awgnReal irqEn => Sys2Proof.Machine.execAwgnReal irqEn s
  | .awgnCplx irqEn => Sys2Proof.Machine.execAwgnCplx irqEn s

end Sys2Proof.Machine
end

