-- ==== Sys2Proof/Machine/Flags.lean ====
section
/-! DEFINITION. The words `CTRL` and `STATUS` read as, and the interrupt output (10_state.md R25, R26, R40, R41). BBCORE has no
arithmetic flags. -/
namespace Sys2Proof.Machine

/-- The number of an error code (60_exceptions.md R171). -/
def ErrorCode.bits : ErrorCode → BitVec 4
  | .none => 0
  | .invalidBit => 1
  | .oddLength => 2
  | .invalidLength => 3
  | .lengthMismatch => 4
  | .illegalOp => 5
  | .capacity => 6

/-- `STATUS.BUSY` (10_state.md R35). -/
def State.busy (s : State) : Bool := decide (s.phase = .busy)

/-- The word a read of `CTRL` returns; `START` and the reserved bits read 0 (10_state.md R25). -/
def ctrlWord (s : State) : Word := packWord s.irqEn s.op false

/-- The word a read of `STATUS` returns; the reserved bits read 0 (10_state.md R26). -/
def statusWord (s : State) : Word :=
  (0 : BitVec 20) ++ s.err.bits ++ (0 : BitVec 6) ++ BitVec.ofBool s.done ++ BitVec.ofBool s.busy

/-- `irq = STATUS.DONE AND CTRL.IRQ_EN` (10_state.md R40, 60_exceptions.md R177). -/
def State.irq (s : State) : Bool := s.done && s.irqEn

end Sys2Proof.Machine
end

