-- ==== Sys2Proof/Machine/Port.lean ====
section
/-! DEFINITION. The host port: the register map, the windows, performing and holding a transaction (10_state.md R20 to R37,
20_memory.md R50 to R62). -/
namespace Sys2Proof.Machine

/-- The registers of the map of 10_state.md R20. -/
inductive Reg where
  | id | version | ctrl | status | inLen | outLen | errInfo
  | snrLo | snrHi | seedLo | seedHi | drawCntLo | drawCntHi | ibufSize | obufSize
  deriving DecidableEq, Repr

/-- A register's offset in the register window (10_state.md R20). -/
def regOffset : Reg → Nat
  | .id => 0x000
  | .version => 0x004
  | .ctrl => 0x008
  | .status => 0x00C
  | .inLen => 0x010
  | .outLen => 0x014
  | .errInfo => 0x018
  | .snrLo => 0x020
  | .snrHi => 0x024
  | .seedLo => 0x028
  | .seedHi => 0x02C
  | .drawCntLo => 0x030
  | .drawCntHi => 0x034
  | .ibufSize => 0x038
  | .obufSize => 0x03C

def allRegs : List Reg :=
  [.id, .version, .ctrl, .status, .inLen, .outLen, .errInfo, .snrLo, .snrHi, .seedLo, .seedHi, .drawCntLo, .drawCntHi,
    .ibufSize, .obufSize]

/-- The register at an offset of the register window; none at a reserved one (10_state.md R20, R37). -/
def regAt (offset : Nat) : Option Reg := allRegs.find? fun r => decide (regOffset r = offset)

/-- What a read of a register returns (10_state.md R23 to R33). No read has a side effect (20_memory.md R62). -/
def regRead (s : State) : Reg → Word
  | .id => 0x4D444D31
  | .version => 0x00010000
  | .ctrl => ctrlWord s
  | .status => statusWord s
  | .inLen => s.inLen
  | .outLen => s.outLen
  | .errInfo => s.errInfo
  | .snrLo => s.snrLo
  | .snrHi => s.snrHi
  | .seedLo => s.seedLo
  | .seedHi => s.seedHi
  | .drawCntLo => s.drawCnt.extractLsb' 0 32
  | .drawCntHi => s.drawCnt.extractLsb' 32 32
  | .ibufSize => BitVec.ofNat 32 s.cfg.ibufBytes
  | .obufSize => BitVec.ofNat 32 s.cfg.obufBytes

/-- A performed write of `CTRL`: it stores `OP` and `IRQ_EN`, and with `START` it clears `DONE` and `ERR` and makes the engine busy;
the operation itself is the engine's step (40_operation_common.md R100, R101). -/
def writeCtrl (s : State) (w : Word) : State :=
  if startField w then s.start (opField w) (irqField w) else s.storeCommand (opField w) (irqField w)

/-- What a performed write of a register does; a write to a read-only register is ignored (10_state.md R20, R25 to R33, R37). -/
def regWrite (s : State) (r : Reg) (w : Word) : State :=
  match r with
  | .ctrl => writeCtrl s w
  | .status => if w.getLsbD 1 then s.clearDone else s
  | .inLen => { s with inLen := w }
  | .snrLo => { s with snrLo := w }
  | .snrHi => { s with snrHi := w }
  | .seedLo => { s with seedLo := w, drawCnt := 0 }
  | .seedHi => { s with seedHi := w, drawCnt := 0 }
  | .id | .version | .outLen | .errInfo | .drawCntLo | .drawCntHi | .ibufSize | .obufSize => s

/-- The windows of BBCORE's space (20_memory.md R50). -/
inductive Window where
  | reg
  | ibuf
  | obuf
  | unmapped
  deriving DecidableEq, Repr

/-- The window a byte offset lies in (20_memory.md R50). -/
def windowOf (a : Nat) : Window :=
  if a < 0x1000 then .reg
  else if 0x100000 ≤ a ∧ a < 0x200000 then .ibuf
  else if 0x200000 ≤ a ∧ a < 0x300000 then .obuf
  else .unmapped

/-- The IBUF byte a host read sees: the byte written, or, where none has been since reset, a free value that stays the same until it is
written (10_state.md R39, 20_memory.md R62; notes/assumptions/3.md). -/
def hostIbufByte (s : State) (k : Nat) : Byte := (Memory.read s.ibuf k).getD (Config.ibufResidue s.epoch k)

/-- What a host read returns (20_memory.md R53 to R55, R57). A word of OBUF with a byte never written is a fault (10_state.md R39). -/
def hostRead (s : State) (a : Nat) : Except Fault Word :=
  match windowOf a with
  | .reg => .ok (match regAt a with | some r => regRead s r | none => 0)
  | .ibuf =>
    let k := a - 0x100000
    if k + 4 ≤ s.cfg.ibufBytes then
      .ok (BitVec.ofNat 32
        (leValue [hostIbufByte s k, hostIbufByte s (k + 1), hostIbufByte s (k + 2), hostIbufByte s (k + 3)]))
    else .ok 0
  | .obuf =>
    let k := a - 0x200000
    if k + 4 ≤ s.cfg.obufBytes then
      match Memory.bytes s.obuf k 4 with
      | some bs => .ok (BitVec.ofNat 32 (leValue bs))
      | none => .error .unwrittenOutput
    else .ok 0
  | .unmapped => .ok 0

/-- What a host write does (20_memory.md R53 to R55, R57). -/
def hostWrite (s : State) (a : Nat) (w : Word) : State :=
  match windowOf a with
  | .reg => (match regAt a with | some r => regWrite s r w | none => s)
  | .ibuf =>
    let k := a - 0x100000
    if k + 4 ≤ s.cfg.ibufBytes then { s with ibuf := Memory.writeList s.ibuf k (leBytes 4 w.toNat) } else s
  | .obuf => s
  | .unmapped => s

/-- The port performs a transaction, or refuses a request outside its protocol (20_memory.md R51, R52). -/
def perform (r : Request) (s : State) : Host.Outcome State Fault Refusal :=
  if r.wellFormed then
    match r with
    | .read a _ =>
      (match hostRead s a with
      | .ok d => .next { s with answer := some (.read a d) }
      | .error f => .fault f)
    | .write a _ d => .next { hostWrite s a d with answer := some (.write a d) }
  else .refused .outsidePort

/-- The request the port never holds: a read of `STATUS` (20_memory.md R56). -/
def isStatusRead : Request → Bool
  | .read a _ => decide (a = regOffset .status)
  | .write _ _ _ => false

/-- A request presented while the engine is busy: a `STATUS` read completes at once, any other is held (20_memory.md R56). -/
def presentBusy (r : Request) (s : State) : Host.Outcome State Fault Refusal :=
  if r.wellFormed then
    (if isStatusRead r then perform r s else .next { s with held := some r })
  else .refused .outsidePort

end Sys2Proof.Machine
end

