-- ==== Sys2Proof/Machine/Schedule.lean ====
section
/-! DEFINITION. Whose turn is next, and the command the engine runs in its turn (00_scope.md R4, 20_memory.md R56, R66;
notes/assumptions/2.md). -/
namespace Sys2Proof.Machine

/-- The command word the engine runs: `CTRL` as the START left it (10_state.md R35). -/
def commandWord (s : State) : Word := packWord s.irqEn s.op true

/-- What a turn comes to: the engine runs an operation in a state, or the turn is over without one. -/
inductive Move where
  | run (i : Instr) (t : State)
  | finish (o : Host.Outcome State Fault Refusal)

/-- The engine's turn while busy. A reserved `OP` completes at once with `ILLEGAL_OP` (30_encoding.md R82, 60_exceptions.md R174,
check 1). -/
def engineMove (t : State) : Move :=
  match decodeWord (commandWord t) with
  | .ok i => .run i t
  | .error _ => .finish (.next (t.raiseError .illegalOp 0))

/-- The next turn. `rst` comes first where the agenda puts it (70_reset_and_hazards.md R190). While busy, a presented request is
answered or held, and the engine runs in its own turn, or where nothing else can happen: when a further request waits behind a held
one, and when the agenda is empty, since every operation ends (40_operation_common.md R101). While idle, a held transaction is
performed first (20_memory.md R56), then what is presented; with nothing to do the state stays as it is (60_exceptions.md R185). -/
def nextMove (s : State) : Move :=
  match s.agenda, s.phase, s.held with
  | .reset :: rest, _, _ => .finish (.next (s.resetTo rest))
  | .engine :: rest, .busy, _ => engineMove (s.turn rest)
  | .present r :: rest, .busy, none => .finish (presentBusy r (s.turn rest))
  | .present r :: rest, .busy, some _ => engineMove (s.turn (.present r :: rest))
  | [], .busy, _ => engineMove (s.turn [])
  | agenda, .idle, some r => .finish (perform r { s.turn agenda with held := none })
  | .present r :: rest, .idle, none => .finish (perform r (s.turn rest))
  | .engine :: rest, .idle, none => .finish (.next (s.turn rest))
  | [], .idle, none => .finish (.next (s.turn []))

end Sys2Proof.Machine
end

