-- ==== Sys2Proof/Machine/Step.lean ====
section
/-! DEFINITION. One step of BBCORE: one turn of one agent (00_scope.md R4). -/
namespace Sys2Proof.Machine

/-- One step: the next turn, in which the engine runs an operation whole or another agent acts (40_operation_common.md R101). -/
def step (s : State) : Host.Outcome State Fault Refusal :=
  match nextMove s with
  | .run i t => exec i t
  | .finish o => o

/-- `s` with the `nbits`-bit command word `w` just written to `CTRL`, so that the next step is the engine's and runs it
(40_operation_common.md R100; notes/assumptions/6.md). -/
def State.withFetchWord (s : State) (nbits w : Nat) : State := s.placeCommand (BitVec.ofNat 32 (w % 2 ^ nbits))

end Sys2Proof.Machine
end

