-- ==== Sys2Proof/Safety.lean ====
section
/-! DEFINITION. The terms claims about BBCORE are made in: the sizes of an operation's operands, what its completion leaves, the launch
premises, and the invariant of the machine. They are written from the spec's tables, apart from the meanings. -/
namespace Sys2Proof.Machine

/-! The tables of 30_encoding.md R84 and 44_awgn.md R157. -/

/-- `in_size(op)` (30_encoding.md R84). -/
def inputSize : Instr → Nat
  | .manEnc _ => 1
  | .manDec _ => 8
  | .bpskMod _ => 1
  | .bpskDemod _ => 8
  | .qpskMod _ => 1
  | .qpskDemod _ => 16
  | .awgnReal _ => 8
  | .awgnCplx _ => 16

/-- `out_size(op)` (30_encoding.md R84). -/
def outputSize : Instr → Nat
  | .manEnc _ => 8
  | .manDec _ => 1
  | .bpskMod _ => 8
  | .bpskDemod _ => 1
  | .qpskMod _ => 16
  | .qpskDemod _ => 1
  | .awgnReal _ => 8
  | .awgnCplx _ => 16

/-- `out_len(op, n)` (30_encoding.md R84). -/
def outputLen : Instr → Nat → Nat
  | .manEnc _, n => 2 * n
  | .manDec _, n => n / 2
  | .bpskMod _, n => n
  | .bpskDemod _, n => n
  | .qpskMod _, n => n / 2
  | .qpskDemod _, n => 2 * n
  | .awgnReal _, n => n
  | .awgnCplx _, n => n

/-- The error an odd `IN_LEN` is, for the two operations that pair their input (60_exceptions.md R174, check 3). -/
def oddError : Instr → Option ErrorCode
  | .manEnc _ => none
  | .manDec _ => some .invalidLength
  | .bpskMod _ => none
  | .bpskDemod _ => none
  | .qpskMod _ => some .oddLength
  | .qpskDemod _ => none
  | .awgnReal _ => none
  | .awgnCplx _ => none

/-- Whether an operation consumes bits, and so checks them (60_exceptions.md R174, check 5). -/
def takesBits : Instr → Bool
  | .manEnc _ => true
  | .manDec _ => false
  | .bpskMod _ => true
  | .bpskDemod _ => false
  | .qpskMod _ => true
  | .qpskDemod _ => false
  | .awgnReal _ => false
  | .awgnCplx _ => false

/-- How many draws a successful operation makes for an input length (44_awgn.md R157). -/
def drawsMade : Instr → Nat → Nat
  | .manEnc _, _ => 0
  | .manDec _, _ => 0
  | .bpskMod _, _ => 0
  | .bpskDemod _, _ => 0
  | .qpskMod _, _ => 0
  | .qpskDemod _, _ => 0
  | .awgnReal _, n => n
  | .awgnCplx _, n => 2 * n

/-- Whether SNR, seed and draw count are operands of a command (30_encoding.md R78, 40_operation_common.md R102). -/
def usesNoise : Instr → Bool
  | .manEnc _ => false
  | .manDec _ => false
  | .bpskMod _ => false
  | .bpskDemod _ => false
  | .qpskMod _ => false
  | .qpskDemod _ => false
  | .awgnReal _ => true
  | .awgnCplx _ => true

/-- `in_bytes` (40_operation_common.md R104). -/
def inBytes (i : Instr) (s : State) : Nat := s.inLen.toNat * inputSize i

/-- `out_bytes` (40_operation_common.md R104). -/
def outBytes (i : Instr) (s : State) : Nat := outputLen i s.inLen.toNat * outputSize i

/-- The length checks pass: the input fits, the length may be odd or is even, the output fits (60_exceptions.md R174, checks 2 to 4). -/
def lengthsPass (i : Instr) (s : State) : Prop :=
  inBytes i s ≤ s.cfg.ibufBytes ∧ (oddError i = none ∨ s.inLen.toNat % 2 = 0) ∧ outBytes i s ≤ s.cfg.obufBytes

/-! The four launch premises of 70_reset_and_hazards.md R193, each under its name in the rule, and what they are said of. `s` is the state
at the START, `rest` the turns that come after it (notes/assumptions/2.md). -/

/-- The step from `s` performs the write of the command word `w`, presented or held, as far as no reset comes first; `rest` is left to
come (20_memory.md R56, 40_operation_common.md R111). -/
def writesCommand (w : Word) (s : State) (rest : List Event) : Prop :=
  (s.held = none ∧ s.agenda = .present (.write 0x008 32 w) :: rest) ∨ (s.held = some (.write 0x008 32 w) ∧ s.agenda = rest)

/-- The turns that come between a START and its completion, with `waits` saying whether a transaction is held: `STATUS` reads, and the
first other transaction, which is then held; the engine's turn, a further request or the end of the agenda completes the operation, and
a reset abandons it (20_memory.md R56, 70_reset_and_hazards.md R190). -/
def beforeCompletion (waits : Bool) : List Event → List Event
  | [] => []
  | .engine :: _ => []
  | .reset :: _ => [.reset]
  | .present r :: rest => if waits then [] else .present r :: beforeCompletion (!isStatusRead r) rest

/-- The premise "idle": `STATUS.BUSY` = 0 at the START write. -/
def idle (s : State) : Prop := s.phase = .idle

/-- The premise "input written": every IBUF byte in `[0, in_bytes)` has been written by the host since the last reset. -/
def inputWritten (i : Instr) (s : State) : Prop := ∀ k, k < inBytes i s → Memory.read s.ibuf k ≠ none

/-- The premise "halves consistent": for AWGN, both halves of `snr_db` and of `seed` hold the values `snr` and `seed` the host means
(70_reset_and_hazards.md R196). -/
def halvesConsistent (i : Instr) (snr : F64) (seed : BitVec 64) (s : State) : Prop :=
  usesNoise i = true → s.snrDb = snr ∧ s.seed = seed

/-- The premise "no reset": `rst` is not asserted between the START and the completion. A reset in the turn of the START itself would
come before it. -/
def noReset (rest : List Event) : Prop := .reset ∉ beforeCompletion false rest

/-- Beside the four: what the host presents until the completion is within the port's protocol (20_memory.md R51). -/
def withinProtocol (rest : List Event) : Prop := ∀ r, .present r ∈ beforeCompletion false rest → r.wellFormed = true

/-- `s` with `SNR_DB` and `SEED` holding `snr` and `seed`. -/
def withMeant (snr : F64) (seed : BitVec 64) (s : State) : State :=
  { s with
    snrHi := snr.extractLsb' 32 32, snrLo := snr.extractLsb' 0 32, seedHi := seed.extractLsb' 32 32, seedLo := seed.extractLsb' 0 32 }

/-- `n` steps, none of which stops, lead from `s` to `t`. -/
def stepsTo : Nat → State → State → Prop
  | 0, s, t => s = t
  | n + 1, s, t => ∃ u, step s = .next u ∧ stepsTo n u t

/-! What an operation finds and leaves. -/

/-- The first `n` input bytes are valid bits (30_encoding.md R88). -/
def bitsUpTo (s : State) (n : Nat) : Prop := ∀ k, k < n → Memory.read s.ibuf k = some 0 ∨ Memory.read s.ibuf k = some 1

/-! What a completion leaves. Every field not named is as it was (10_state.md R42, 60_exceptions.md R175). -/

/-- `s` after command `i` has succeeded, with OBUF now `out` (40_operation_common.md R100, R106; 44_awgn.md R157). The last
field is the model's own counter. -/
def succeededWith (i : Instr) (s : State) (out : Memory) : State :=
  { s with
    op := i.code, irqEn := i.irqEn, phase := .idle, done := true, err := .none,
    outLen := BitVec.ofNat 32 (outputLen i s.inLen.toNat), errInfo := 0,
    drawCnt := s.drawCnt + BitVec.ofNat 64 (drawsMade i s.inLen.toNat), obuf := out, freeCnt := s.freeCnt + 1 }

/-- `s` after command `i` has ended in an error (40_operation_common.md R100, R107). -/
def failedWith (i : Instr) (s : State) (code : ErrorCode) (info : Word) : State :=
  { s with
    op := i.code, irqEn := i.irqEn, phase := .idle, done := true, err := code, outLen := 0, errInfo := info }

/-- Every byte at or beyond `size` reads in `out` as it did in `old` (40_operation_common.md R106). -/
def keptBeyond (size : Nat) (old out : Memory) : Prop := ∀ k, size ≤ k → Memory.read out k = Memory.read old k

/-- Two states give command `i` the same operands: the same parameters, `IN_LEN` and input bytes, and, for the two AWGN commands only,
the same SNR, seed and draw count, and the same free NaN payloads (40_operation_common.md R102, R110; notes/assumptions/4.md). -/
def sameOperands (i : Instr) (s u : State) : Prop :=
  s.cfg = u.cfg ∧ s.inLen = u.inLen ∧ (∀ k, k < inBytes i s → Memory.read s.ibuf k = Memory.read u.ibuf k) ∧
  (usesNoise i = true → s.snrDb = u.snrDb ∧ s.seed = u.seed ∧ s.drawCnt = u.drawCnt ∧ s.freeCnt = u.freeCnt)

/-! Values and rounding (00_scope.md R11). -/

/-- The exact value of a finite binary64. -/
def valueOf (x : F64) : ℚ := (signedUnits x : ℚ) / 2 ^ 1074

/-- The value of a binary64 that is no NaN, with both infinities (00_scope.md R11). Both zeros have the value 0. -/
def extendedValue (x : F64) : WithBot (WithTop ℚ) :=
  if isInf x then (if signBit x then ⊥ else ((⊤ : WithTop ℚ) : WithBot (WithTop ℚ)))
  else ((valueOf x : WithTop ℚ) : WithBot (WithTop ℚ))

/-- The infinity with the sign of a product or a quotient of `a` and `b` (notes/assumptions/12.md). -/
def productInfinity (a b : F64) : F64 := if signBit a = signBit b then 0x7FF0000000000000 else 0xFFF0000000000000

/-- The zero with that sign. -/
def productZero (a b : F64) : F64 := if signBit a = signBit b then 0x0000000000000000 else 0x8000000000000000

/-- No non-negative pattern up to that of +∞ has a value nearer to `v` than `p` has, and where another is as near, `p` is even. At the
pattern of +∞ the grid stands at 2^1024, from where overflow begins to round to it (notes/assumptions/12.md). -/
def NearestPattern (v : ℝ) (p : Nat) : Prop :=
  p ≤ infPattern ∧ ∀ q, q ≤ infPattern → q ≠ p →
    |v - (gridValue p : ℝ) / 2 ^ 1074| < |v - (gridValue q : ℝ) / 2 ^ 1074| ∨
    (|v - (gridValue p : ℝ) / 2 ^ 1074| = |v - (gridValue q : ℝ) / 2 ^ 1074| ∧ p % 2 = 0)

/-- `y` is the exact value `v` rounded to nearest, ties to even, with the sign of `v` where `v` is not zero. -/
def RoundsTo (v : ℝ) (y : F64) : Prop :=
  NearestPattern |v| (y.toNat % 2 ^ 63) ∧ (v < 0 → signBit y = true) ∧ (0 < v → signBit y = false)

/-! The invariant. -/

/-- What holds of every state from reset on: legal parameters (00_scope.md R6), both buffers in canonical form and inside their sizes
(10_state.md R34), no error code BBCORE never raises (60_exceptions.md R171), `DONE` and `ERR` clear while busy (20_memory.md R56),
`OUT_LEN` 0 beside an error (10_state.md R28), `ERR_INFO` 0 while idle without one (10_state.md R29), and a held request that is
well formed and no `STATUS` read (20_memory.md R56). -/
def Inv (s : State) : Prop :=
  s.cfg.legal = true ∧ Memory.wf s.ibuf = true ∧ Memory.within s.ibuf s.cfg.ibufBytes = true ∧
  Memory.wf s.obuf = true ∧ Memory.within s.obuf s.cfg.obufBytes = true ∧
  s.err ≠ .lengthMismatch ∧
  (s.phase = .busy → s.done = false ∧ s.err = .none) ∧
  (s.err ≠ .none → s.outLen = 0) ∧
  (s.phase = .idle → s.err = .none → s.errInfo = 0) ∧
  (∀ r, s.held = some r → r.wellFormed = true ∧ isStatusRead r = false)

/-- A step is safe when it neither faults nor refuses. -/
def SafeStep (s : State) : Prop := ∃ t, step s = .next t

end Sys2Proof.Machine
end

