-- ==== Sys2Proof/Certificates/Slice0/Obligations.lean ====
section
/-! DEFINITION. The statements about BBCORE that are to be proved, each from the spec's rules. `n` is always `IN_LEN` as a number. -/

open Sys2Proof Sys2Proof.Machine

/-! Encoding. -/

/-- Words of the opcode map written out bit by bit, at least one for every family, with ignored bits set in one of them (E8 of
95_test_vectors.md), a word that does not start, and reserved codes. -/
def Obligations.WrittenOutWordsDecode : Prop :=
  decodeWord 0x00000011 = .ok (.manEnc false) ∧ decodeWord 0x00000121 = .ok (.manDec true) ∧
  decodeWord 0xFFFFFE31 = .ok (.bpskMod false) ∧ decodeWord 0x00000041 = .ok (.bpskDemod false) ∧
  decodeWord 0x00000151 = .ok (.qpskMod true) ∧ decodeWord 0x00000061 = .ok (.qpskDemod false) ∧
  decodeWord 0x00000071 = .ok (.awgnReal false) ∧ decodeWord 0x00000181 = .ok (.awgnCplx true) ∧
  decodeWord 0x00000150 = .error .noStart ∧ decodeWord 0x00000001 = .error (.reservedOp 0) ∧
  decodeWord 0x00000091 = .error (.reservedOp 9) ∧ decodeWord 0x000000F1 = .error (.reservedOp 15)

/-- 30_encoding.md R75, R77, R81: of all 2^32 words, exactly those that agree with a command's encoding on `START`, `OP` and `IRQ_EN`
decode to it. With `w = encode i` this is the round trip. -/
def Obligations.DecodesExactlyItsOwnWords : Prop :=
  ∀ (i : Instr) (w : Word), decodeWord w = .ok i ↔ w &&& 0x000001F1 = encode i

/-- 30_encoding.md R77: the reserved bits 31:9 and 3:1 are ignored on decode. -/
def Obligations.ReservedBitsAreIgnored : Prop :=
  ∀ w : Word, decodeWord w = decodeWord (w &&& 0x000001F1)

/-- 30_encoding.md R76, R82: a word issues no operation exactly when `START` is 0 or `OP` is 0 or 9 to 15, and is then rejected by
that name. -/
def Obligations.UndecodedWordsAreRejectedByName : Prop :=
  ∀ w : Word,
    (decodeWord w = .error .noStart ↔ w.getLsbD 0 = false) ∧
    (∀ op : BitVec 4, decodeWord w = .error (.reservedOp op) ↔
      w.getLsbD 0 = true ∧ op = w.extractLsb' 4 4 ∧ (op = 0 ∨ 9 ≤ op.toNat)) ∧
    decodeWord w ≠ .error .truncated

/-- The bytes of a command's word, lowest address first, decode to it and leave what follows. -/
def Obligations.EncodedBytesDecodeBack : Prop :=
  ∀ (i : Instr) (rest : List Byte), decode (encodeBytes i ++ rest) = .ok (i, rest)

/-! What each operation does where it succeeds: its result, its frame and its completion in one. `succeededWith` names every field the
completion writes, so every other register, IBUF among them, is as it was. -/

/-- 41_manchester.md R120: bit 1 to [+1, −1], bit 0 to [−1, +1]. -/
def Obligations.ManEncMapsBitsToLevelPairs : Prop :=
  ∀ (q : Bool) (s : State), lengthsPass (.manEnc q) s → bitsUpTo s s.inLen.toNat →
    ∃ out, exec (.manEnc q) s = .next (succeededWith (.manEnc q) s out) ∧
      (∀ i, i < s.inLen.toNat →
        (Memory.read s.ibuf i = some 1 →
          realAt out (2 * i) = some 0x3FF0000000000000 ∧ realAt out (2 * i + 1) = some 0xBFF0000000000000) ∧
        (Memory.read s.ibuf i = some 0 →
          realAt out (2 * i) = some 0xBFF0000000000000 ∧ realAt out (2 * i + 1) = some 0x3FF0000000000000)) ∧
      keptBeyond (16 * s.inLen.toNat) s.obuf out

/-- 41_manchester.md R121: exact match [+1, −1], then exact match [−1, +1], then whether the mean of the pair is above zero; for every
NaN the two operations of the mean may answer (`p` and `p'`). -/
def Obligations.ManDecDecidesEachPair : Prop :=
  ∀ (q : Bool) (s : State), lengthsPass (.manDec q) s → inputWritten (.manDec q) s →
    ∃ out, exec (.manDec q) s = .next (succeededWith (.manDec q) s out) ∧
      (∀ (k : Nat) (a c p p' : F64), k < s.inLen.toNat / 2 → realAt s.ibuf (2 * k) = some a → realAt s.ibuf (2 * k + 1) = some c →
        Memory.read out k = some
          (if feq a 0x3FF0000000000000 = true ∧ feq c 0xBFF0000000000000 = true then 1
          else if feq a 0xBFF0000000000000 = true ∧ feq c 0x3FF0000000000000 = true then 0
          else if fgt (fdiv p (fadd p' a c) 0x4000000000000000) 0 = true then 1 else 0)) ∧
      keptBeyond (s.inLen.toNat / 2) s.obuf out

/-- 42_bpsk.md R130: bit 1 to +1.0, bit 0 to −1.0. -/
def Obligations.BpskModMapsBitsToSigns : Prop :=
  ∀ (q : Bool) (s : State), lengthsPass (.bpskMod q) s → bitsUpTo s s.inLen.toNat →
    ∃ out, exec (.bpskMod q) s = .next (succeededWith (.bpskMod q) s out) ∧
      (∀ i, i < s.inLen.toNat →
        (Memory.read s.ibuf i = some 1 → realAt out i = some 0x3FF0000000000000) ∧
        (Memory.read s.ibuf i = some 0 → realAt out i = some 0xBFF0000000000000)) ∧
      keptBeyond (8 * s.inLen.toNat) s.obuf out

/-- 42_bpsk.md R131: 1 above zero, else 0. -/
def Obligations.BpskDemodSlicesBySign : Prop :=
  ∀ (q : Bool) (s : State), lengthsPass (.bpskDemod q) s → inputWritten (.bpskDemod q) s →
    ∃ out, exec (.bpskDemod q) s = .next (succeededWith (.bpskDemod q) s out) ∧
      (∀ (i : Nat) (x : F64), i < s.inLen.toNat → realAt s.ibuf i = some x →
        Memory.read out i = some (if fgt x 0 = true then 1 else 0)) ∧
      keptBeyond s.inLen.toNat s.obuf out

/-- 43_qpsk.md R141: the four rows of the Gray-coded table, with `S = QPSK_S`. -/
def Obligations.QpskModMapsBitPairs : Prop :=
  ∀ (q : Bool) (s : State), lengthsPass (.qpskMod q) s → bitsUpTo s s.inLen.toNat →
    ∃ out, exec (.qpskMod q) s = .next (succeededWith (.qpskMod q) s out) ∧
      (∀ (k : Nat) (b0 b1 : Byte), k < s.inLen.toNat / 2 →
        Memory.read s.ibuf (2 * k) = some b0 → Memory.read s.ibuf (2 * k + 1) = some b1 →
        (b0 = 0 → b1 = 0 → cplxAt out k = some (s.cfg.qpskS, s.cfg.qpskS)) ∧
        (b0 = 0 → b1 = 1 → cplxAt out k = some (negate s.cfg.qpskS, s.cfg.qpskS)) ∧
        (b0 = 1 → b1 = 1 → cplxAt out k = some (negate s.cfg.qpskS, negate s.cfg.qpskS)) ∧
        (b0 = 1 → b1 = 0 → cplxAt out k = some (s.cfg.qpskS, negate s.cfg.qpskS))) ∧
      keptBeyond (16 * (s.inLen.toNat / 2)) s.obuf out

/-- 43_qpsk.md R142: the four rows of the quadrant table; a component that is not below zero counts as "≥ 0". -/
def Obligations.QpskDemodSlicesByQuadrant : Prop :=
  ∀ (q : Bool) (s : State), lengthsPass (.qpskDemod q) s → inputWritten (.qpskDemod q) s →
    ∃ out, exec (.qpskDemod q) s = .next (succeededWith (.qpskDemod q) s out) ∧
      (∀ (k : Nat) (re im : F64), k < s.inLen.toNat → cplxAt s.ibuf k = some (re, im) →
        Memory.read out (2 * k) = some (if flt im 0 = true then 1 else 0) ∧
        Memory.read out (2 * k + 1) = some (if flt re 0 = true then 1 else 0)) ∧
      keptBeyond (2 * s.inLen.toNat) s.obuf out

/-- 44_awgn.md R150 to R155, R157: `x + sigma · z` for every element, with draw `i` for element `i`. `nan` is the free NaN payloads of this
operation; `energyReal` is what `EnergyIsTheLeftToRightMean` says of it. -/
def Obligations.AwgnRealAddsCalibratedNoise : Prop :=
  ∀ (q : Bool) (s : State) (xs : List F64), lengthsPass (.awgnReal q) s → xs.length = s.inLen.toNat →
    (∀ i, i < s.inLen.toNat → realAt s.ibuf i = xs[i]?) →
    let nan := Config.nanPayload s.freeCnt
    let snr := exp10 s.cfg.exp10 (fdiv (nan .snrTenth) s.snrDb 0x4024000000000000)
    let sigma := fsqrt (nan .root) (fdiv (nan .variance) (energyReal nan xs) snr)
    ∃ out, exec (.awgnReal q) s = .next (succeededWith (.awgnReal q) s out) ∧
      (∀ (i : Nat) (x : F64), xs[i]? = some x →
        realAt out i = some
          (fadd (nan (.add i)) x (fmul (nan (.scale i)) sigma (noise s.seed (s.drawCnt + BitVec.ofNat 64 i))))) ∧
      keptBeyond (8 * s.inLen.toNat) s.obuf out

/-- 44_awgn.md R150 to R154, R156, R157: noise of half the variance on each component, draw `2i` for the real part and `2i + 1` for the
imaginary part of symbol `i`. -/
def Obligations.AwgnCplxAddsCalibratedNoise : Prop :=
  ∀ (q : Bool) (s : State) (xs : List (F64 × F64)), lengthsPass (.awgnCplx q) s → xs.length = s.inLen.toNat →
    (∀ i, i < s.inLen.toNat → cplxAt s.ibuf i = xs[i]?) →
    let nan := Config.nanPayload s.freeCnt
    let snr := exp10 s.cfg.exp10 (fdiv (nan .snrTenth) s.snrDb 0x4024000000000000)
    let sigma := fsqrt (nan .root)
      (fdiv (nan .half) (fdiv (nan .variance) (energyCplx nan xs) snr) 0x4000000000000000)
    ∃ out, exec (.awgnCplx q) s = .next (succeededWith (.awgnCplx q) s out) ∧
      (∀ (i : Nat) (re im : F64), xs[i]? = some (re, im) →
        cplxAt out i = some
          (fadd (nan (.add i)) re (fmul (nan (.scale i)) sigma (noise s.seed (s.drawCnt + BitVec.ofNat 64 (2 * i)))),
            fadd (nan (.addIm i)) im
              (fmul (nan (.scaleIm i)) sigma (noise s.seed (s.drawCnt + BitVec.ofNat 64 (2 * i + 1)))))) ∧
      keptBeyond (16 * s.inLen.toNat) s.obuf out

/-- 44_awgn.md R153: the sum starts at +0.0 and each further element adds its square, or `re·re + im·im`, at its end, one rounding
an operation; the energy is the sum over `f64(n)`. -/
def Obligations.EnergyIsTheLeftToRightMean : Prop :=
  ∀ nan : Config.NanSite → F64,
    energySumReal nan 0 0 [] = 0 ∧ energySumCplx nan 0 0 [] = 0 ∧
    (∀ (xs : List F64) (x : F64),
      energySumReal nan 0 0 (xs ++ [x]) =
        fadd (nan (.accumulate xs.length)) (energySumReal nan 0 0 xs) (fmul (nan (.square xs.length)) x x)) ∧
    (∀ (zs : List (F64 × F64)) (re im : F64),
      energySumCplx nan 0 0 (zs ++ [(re, im)]) =
        fadd (nan (.accumulate zs.length)) (energySumCplx nan 0 0 zs)
          (fadd (nan (.power zs.length)) (fmul (nan (.square zs.length)) re re) (fmul (nan (.squareIm zs.length)) im im))) ∧
    (∀ xs : List F64, energyReal nan xs = fdiv (nan .mean) (energySumReal nan 0 0 xs) (f64 xs.length)) ∧
    (∀ zs : List (F64 × F64), energyCplx nan zs = fdiv (nan .mean) (energySumCplx nan 0 0 zs) (f64 zs.length))

/-! Errors. -/

/-- 60_exceptions.md R174, checks 2 and 4: for every operation, input that does not fit is `CAPACITY` with info 0, and output that does
not fit, where the input fits and the length is not refused as odd, is `CAPACITY` with info 1. -/
def Obligations.SizesThatDoNotFitAreCapacity : Prop :=
  ∀ (i : Instr) (s : State),
    (s.cfg.ibufBytes < inBytes i s → exec i s = .next (failedWith i s .capacity 0)) ∧
    (inBytes i s ≤ s.cfg.ibufBytes → (oddError i = none ∨ s.inLen.toNat % 2 = 0) → s.cfg.obufBytes < outBytes i s →
      exec i s = .next (failedWith i s .capacity 1))

/-- 60_exceptions.md R174, check 3; 90_conflicts.md C1: an odd length is `ODD_LENGTH` for `QPSK_MOD` and `INVALID_LENGTH` for `MAN_DEC`. -/
def Obligations.OddLengthIsReported : Prop :=
  ∀ (q : Bool) (s : State), s.inLen.toNat % 2 = 1 →
    (inBytes (.qpskMod q) s ≤ s.cfg.ibufBytes → exec (.qpskMod q) s = .next (failedWith (.qpskMod q) s .oddLength 0)) ∧
    (inBytes (.manDec q) s ≤ s.cfg.ibufBytes → exec (.manDec q) s = .next (failedWith (.manDec q) s .invalidLength 0))

/-- 60_exceptions.md R174, check 5: the lowest byte that is no bit is `INVALID_BIT` with its index. -/
def Obligations.LowestInvalidBitIsReported : Prop :=
  ∀ (i : Instr) (s : State) (j : Nat) (b : Byte), takesBits i = true → lengthsPass i s → j < s.inLen.toNat → bitsUpTo s j →
    Memory.read s.ibuf j = some b → b ≠ 0 → b ≠ 1 →
    exec i s = .next (failedWith i s .invalidBit (BitVec.ofNat 32 j))

/-- 10_state.md R39: an operation that comes to read an IBUF byte not written since reset faults. An operation on bits comes to it in
the ascending scan of 60_exceptions.md R174, check 5, when the bytes before it are bits, whatever comes after it; any other operation
reads its whole input (20_memory.md R63). That the fault comes ahead of a later bad byte is the model's deduction
(notes/assumptions/13.md). -/
def Obligations.UnwrittenInputFaults : Prop :=
  ∀ (i : Instr) (s : State), lengthsPass i s →
    (takesBits i = true → ∀ j, j < s.inLen.toNat → bitsUpTo s j → Memory.read s.ibuf j = none →
      exec i s = .fault .unwrittenInput) ∧
    (takesBits i = false → ¬ inputWritten i s → exec i s = .fault .unwrittenInput)

/-- 60_exceptions.md R172: the errors each operation can raise, and no others. -/
def Obligations.OnlyListedErrorsAreRaised : Prop :=
  ∀ (i : Instr) (s t : State), exec i s = .next t →
    t.err = .none ∨ t.err = .capacity ∨ oddError i = some t.err ∨ (takesBits i = true ∧ t.err = .invalidBit)

/-- 60_exceptions.md R173: what `ERR_INFO` records beside each error an operation reports. -/
def Obligations.ErrInfoRecordsTheCause : Prop :=
  ∀ (i : Instr) (s t : State), exec i s = .next t →
    (t.err = .none → t.errInfo = 0) ∧
    (t.err = .oddLength → t.errInfo = 0) ∧ (t.err = .invalidLength → t.errInfo = 0) ∧
    (t.err = .capacity →
      (t.errInfo = 0 ∧ s.cfg.ibufBytes < inBytes i s) ∨ (t.errInfo = 1 ∧ s.cfg.obufBytes < outBytes i s)) ∧
    (t.err = .invalidBit →
      ∃ j b, j < s.inLen.toNat ∧ t.errInfo = BitVec.ofNat 32 j ∧ bitsUpTo s j ∧ Memory.read s.ibuf j = some b ∧ b ≠ 0 ∧ b ≠ 1)

/-- 40_operation_common.md R108: either every output byte is written and there is no error, or nothing is written and there is one. -/
def Obligations.OperationsAreAllOrNothing : Prop :=
  ∀ (i : Instr) (s t : State), exec i s = .next t →
    (t.err = .none ∧ t.outLen = BitVec.ofNat 32 (outputLen i s.inLen.toNat) ∧
      ∀ k, k < outBytes i s → ∃ b, Memory.read t.obuf k = some b) ∨
    (t.err ≠ .none ∧ t.outLen = 0 ∧ t.obuf = s.obuf ∧ t.drawCnt = s.drawCnt)

/-- 10_state.md R42, 20_memory.md R63: what no operation changes, whether it succeeds or fails: IBUF, `IN_LEN`, SNR, seed, the parameters,
what the port holds, and OBUF from `out_bytes` on. `CTRL` holds what the command's own word stored (R25). -/
def Obligations.OperationsLeaveTheRestAlone : Prop :=
  ∀ (i : Instr) (s t : State), exec i s = .next t →
    t.ibuf = s.ibuf ∧ t.inLen = s.inLen ∧ t.snrLo = s.snrLo ∧ t.snrHi = s.snrHi ∧ t.seedLo = s.seedLo ∧
    t.seedHi = s.seedHi ∧ t.cfg = s.cfg ∧ t.held = s.held ∧ t.answer = s.answer ∧ t.agenda = s.agenda ∧ t.epoch = s.epoch ∧
    t.op = i.code ∧ t.irqEn = i.irqEn ∧ keptBeyond (outBytes i s) s.obuf t.obuf

/-- 44_awgn.md R157: `draw_cnt` advances by the draws of a successful operation, modulo 2^64, and by nothing otherwise. -/
def Obligations.DrawsAreCounted : Prop :=
  ∀ (i : Instr) (s t : State), exec i s = .next t →
    (t.err = .none → t.drawCnt = s.drawCnt + BitVec.ofNat 64 (drawsMade i s.inLen.toNat)) ∧
    (t.err ≠ .none → t.drawCnt = s.drawCnt)

/-- 40_operation_common.md R102, R110: an operation's results are a function of its operands, and SNR, seed and draw count are operands of
the two AWGN commands only. For those two the free NaN payloads count as operands as well (notes/assumptions/4.md); everything else in the
two states may differ. The other six leave `draw_cnt` as each state has it. -/
def Obligations.ResultsDependOnOperandsAlone : Prop :=
  ∀ (i : Instr) (s u t : State), sameOperands i s u → exec i s = .next t →
    ∃ v, exec i u = .next v ∧ v.err = t.err ∧ v.outLen = t.outLen ∧ v.errInfo = t.errInfo ∧
      (usesNoise i = true → v.drawCnt = t.drawCnt) ∧
      (usesNoise i = false → t.drawCnt = s.drawCnt ∧ v.drawCnt = u.drawCnt) ∧
      (t.err = .none → ∀ k, k < outBytes i s → Memory.read v.obuf k = Memory.read t.obuf k)

/-- 40_operation_common.md R101, 70_reset_and_hazards.md R193: with its input written, every operation completes, whatever its input and
lengths are. And from the START write on, with the four launch premises, the machine reaches the completion in a counted number of
steps, whatever the host presents meanwhile: it leaves what the command does from the state at the START, but for what the port holds
and what is left to come, and the operation's results are those for the SNR and seed the host means. Of input that does not fit the
buffer nothing need have been written. The turns are the agenda's (notes/assumptions/2.md), and a request outside the port's protocol
(R51), which the model refuses, is shut out. -/
def Obligations.EveryLaunchedOperationCompletes : Prop :=
  (∀ (i : Instr) (s : State), (inBytes i s ≤ s.cfg.ibufBytes → inputWritten i s) →
    ∃ t, exec i s = .next t ∧ t.done = true ∧ t.phase = .idle) ∧
  (∀ (i : Instr) (s : State) (w : Word) (rest : List Event) (snr : F64) (seed : BitVec 64),
    decodeWord w = .ok i → writesCommand w s rest →
    idle s → (inBytes i s ≤ s.cfg.ibufBytes → inputWritten i s) → halvesConsistent i snr seed s → noReset rest → withinProtocol rest →
    ∃ t u v, exec i s = .next t ∧ t.done = true ∧ t.phase = .idle ∧
      stepsTo ((beforeCompletion false rest).length + 2) s u ∧
      u = { t with held := u.held, agenda := u.agenda, answer := none } ∧
      exec i (withMeant snr seed s) = .next v ∧
      v.err = t.err ∧ v.outLen = t.outLen ∧ v.errInfo = t.errInfo ∧ v.drawCnt = t.drawCnt ∧ v.obuf = t.obuf)

/-! Laws of the families. -/

/-- 41_manchester.md R122: what `MAN_ENC` makes of bits, copied back to IBUF, `MAN_DEC` makes into the same bits. `u` is any state whose
IBUF holds the encoder's output bytes and whose `IN_LEN` counts the levels. -/
def Obligations.ManchesterRoundTrip : Prop :=
  ∀ (q q' : Bool) (s u : State), lengthsPass (.manEnc q) s → bitsUpTo s s.inLen.toNat → u.cfg = s.cfg →
    16 * s.inLen.toNat ≤ s.cfg.ibufBytes →
    ∃ t, exec (.manEnc q) s = .next t ∧
      (u.inLen.toNat = 2 * s.inLen.toNat → (∀ k, k < 16 * s.inLen.toNat → Memory.read u.ibuf k = Memory.read t.obuf k) →
        ∃ v, exec (.manDec q') u = .next v ∧ v.err = .none ∧ v.outLen = s.inLen ∧
          ∀ i, i < s.inLen.toNat → Memory.read v.obuf i = Memory.read s.ibuf i)

/-- 42_bpsk.md R132: what `BPSK_MOD` makes of bits, copied back to IBUF, `BPSK_DEMOD` makes into the same bits. -/
def Obligations.BpskRoundTrip : Prop :=
  ∀ (q q' : Bool) (s u : State), lengthsPass (.bpskMod q) s → bitsUpTo s s.inLen.toNat → u.cfg = s.cfg →
    8 * s.inLen.toNat ≤ s.cfg.ibufBytes →
    ∃ t, exec (.bpskMod q) s = .next t ∧
      (u.inLen = s.inLen → (∀ k, k < 8 * s.inLen.toNat → Memory.read u.ibuf k = Memory.read t.obuf k) →
        ∃ v, exec (.bpskDemod q') u = .next v ∧ v.err = .none ∧ v.outLen = s.inLen ∧
          ∀ i, i < s.inLen.toNat → Memory.read v.obuf i = Memory.read s.ibuf i)

/-- 43_qpsk.md R145: what `QPSK_MOD` makes of an even number of bits, copied back to IBUF, `QPSK_DEMOD` makes into the same bits, for
every legal `QPSK_S`. -/
def Obligations.QpskRoundTrip : Prop :=
  ∀ (q q' : Bool) (s u : State), lengthsPass (.qpskMod q) s → bitsUpTo s s.inLen.toNat → s.cfg.legal = true → u.cfg = s.cfg →
    8 * s.inLen.toNat ≤ s.cfg.ibufBytes →
    ∃ t, exec (.qpskMod q) s = .next t ∧
      (2 * u.inLen.toNat = s.inLen.toNat → (∀ k, k < 8 * s.inLen.toNat → Memory.read u.ibuf k = Memory.read t.obuf k) →
        ∃ v, exec (.qpskDemod q') u = .next v ∧ v.err = .none ∧ v.outLen = s.inLen ∧
          ∀ i, i < s.inLen.toNat → Memory.read v.obuf i = Memory.read s.ibuf i)

/-- 42_bpsk.md R132: the average energy of every non-empty BPSK output of at most 2^53 symbols is exactly 1.0. -/
def Obligations.BpskEnergyIsExactlyOne : Prop :=
  ∀ (nan : Config.NanSite → F64) (bs : List Byte), bs ≠ [] → bs.length ≤ 2 ^ 53 → (∀ b ∈ bs, b = 0 ∨ b = 1) →
    energyReal nan (bs.map bpskSymbol) = 0x3FF0000000000000

/-- 43_qpsk.md R143: going round the quadrants (+,+), (−,+), (−,−), (+,−) the bit pairs are (0,0), (0,1), (1,1), (1,0), and neighbours,
the last and the first among them, differ in exactly one bit. Beyond the rule: two pairs share a bit exactly when their symbols share a
component. -/
def Obligations.QpskMappingIsAGrayCode : Prop :=
  ∀ S : F64,
    [((0 : Byte), (0 : Byte)), (0, 1), (1, 1), (1, 0)].map (fun b => qpskSymbol S b.1 b.2) =
      [(S, S), (negate S, S), (negate S, negate S), (S, negate S)] ∧
    (∀ pair ∈ [(((0 : Byte), (0 : Byte)), ((0 : Byte), (1 : Byte))), ((0, 1), (1, 1)), ((1, 1), (1, 0)), ((1, 0), (0, 0))],
      (pair.1.1 ≠ pair.2.1 ∧ pair.1.2 = pair.2.2) ∨ (pair.1.1 = pair.2.1 ∧ pair.1.2 ≠ pair.2.2)) ∧
    (∀ b0 b1 c0 c1 : Byte, (b0 = 0 ∨ b0 = 1) → (b1 = 0 ∨ b1 = 1) → (c0 = 0 ∨ c0 = 1) → (c1 = 0 ∨ c1 = 1) →
      (b0 = c0 ↔ (qpskSymbol S b0 b1).2 = (qpskSymbol S c0 c1).2) ∧
      (b1 = c1 ↔ (qpskSymbol S b0 b1).1 = (qpskSymbol S c0 c1).1))

/-- 44_awgn.md R152: the instance's `EXP10`, the default or another, has every property the rule asks for, and the default is 10^x
rounded to nearest, ties to even, for every finite x, overflow and underflow included. Which function the other one is, and that it is
taken only if legal, is the model's choice (notes/assumptions/7.md); that the pattern of +∞ stands at 2^1024 is from the standard
(notes/assumptions/12.md). -/
def Obligations.EveryExpTenIsLegal : Prop :=
  (∀ c : Config.Exp10Choice,
    exp10 c 0x0000000000000000 = 0x3FF0000000000000 ∧ exp10 c 0x8000000000000000 = 0x3FF0000000000000 ∧
    exp10 c 0x7FF0000000000000 = 0x7FF0000000000000 ∧ exp10 c 0xFFF0000000000000 = 0x0000000000000000 ∧
    (∀ x, isNaN x = true → isNaN (exp10 c x) = true) ∧
    (∀ x, isNaN x = false → isNaN (exp10 c x) = false ∧ signBit (exp10 c x) = false) ∧
    (∀ x y, isNaN x = false → isNaN y = false → orderKey x ≤ orderKey y → orderKey (exp10 c x) ≤ orderKey (exp10 c y))) ∧
  (∀ x, isFinite x = true → RoundsTo ((10 : ℝ) ^ ((valueOf x : ℚ) : ℝ)) (exp10 .rounded x))

/-- 44_awgn.md R151: the noise source answers finite values only, and is the instance's function wherever that is finite. -/
def Obligations.NoiseIsFinite : Prop :=
  ∀ seed index : BitVec 64,
    isFinite (noise seed index) = true ∧
    (noise seed index = Config.noise seed index ∨ isFinite (Config.noise seed index) = false)

/-- 00_scope.md R11: rounding is to nearest with ties to even. No pattern up to that of +∞ is nearer to `num / den` units of 2^-1074 than
the one `roundMag` gives, and where another is as near, the one given is even. Each operation on finite operands is that rounding of
its exact result: sum, difference, product, quotient by a value that is not zero, root of a positive value, and the conversion of an
integer. A NaN operand gives the quiet NaN of the free pattern, and every quiet NaN is one; a NaN made from operands that are none is the
default one. A comparison is the order of the values, infinities included, and false where an operand is a NaN. That the grid goes on to
2^1024 at the pattern of +∞, the signs of zero results, and what each operation makes of infinities and of a division by zero are taken
from the standard (notes/assumptions/12.md, PRESUMED). -/
def Obligations.RoundingIsToNearestEven : Prop :=
  (∀ num den p : Nat, 0 < den → p ≤ infPattern → p ≠ roundMag num den →
    roundMag num den ≤ infPattern ∧
    (((num : Int) - (gridValue (roundMag num den) * den : Nat)).natAbs < ((num : Int) - (gridValue p * den : Nat)).natAbs ∨
      (((num : Int) - (gridValue (roundMag num den) * den : Nat)).natAbs = ((num : Int) - (gridValue p * den : Nat)).natAbs ∧
        roundMag num den % 2 = 0))) ∧
  (∀ free a b : F64, isFinite a = true → isFinite b = true →
    RoundsTo ((valueOf a + valueOf b : ℚ) : ℝ) (fadd free a b) ∧
    (valueOf a + valueOf b = 0 → signBit (fadd free a b) = (signBit a && signBit b)) ∧
    RoundsTo ((valueOf a - valueOf b : ℚ) : ℝ) (fsub free a b) ∧
    (valueOf a - valueOf b = 0 → signBit (fsub free a b) = (signBit a && !signBit b)) ∧
    RoundsTo ((valueOf a * valueOf b : ℚ) : ℝ) (fmul free a b) ∧ signBit (fmul free a b) = (signBit a != signBit b) ∧
    (valueOf b ≠ 0 →
      RoundsTo ((valueOf a / valueOf b : ℚ) : ℝ) (fdiv free a b) ∧ signBit (fdiv free a b) = (signBit a != signBit b))) ∧
  (∀ free x : F64, isFinite x = true →
    (0 < valueOf x → RoundsTo (Real.sqrt ((valueOf x : ℚ) : ℝ)) (fsqrt free x)) ∧
    (valueOf x = 0 → fsqrt free x = x) ∧ (valueOf x < 0 → fsqrt free x = defaultNaN)) ∧
  (∀ k : Int, RoundsTo (k : ℝ) (f64 k)) ∧
  (∀ free a b : F64, (isNaN a = true ∨ isNaN b = true) →
    fadd free a b = quietNaN free ∧ fsub free a b = quietNaN free ∧ fmul free a b = quietNaN free ∧ fdiv free a b = quietNaN free) ∧
  (∀ free x : F64, isNaN x = true → fsqrt free x = quietNaN free) ∧
  (∀ y : F64, isNaN (quietNaN y) = true ∧ (quietNaN y).getLsbD 51 = true ∧
    (isNaN y = true → y.getLsbD 51 = true → quietNaN y = y)) ∧
  (∀ free a b : F64, isNaN a = false → isNaN b = false →
    (isNaN (fadd free a b) = true → fadd free a b = 0x7FF8000000000000) ∧
    (isNaN (fsub free a b) = true → fsub free a b = 0x7FF8000000000000) ∧
    (isNaN (fmul free a b) = true → fmul free a b = 0x7FF8000000000000) ∧
    (isNaN (fdiv free a b) = true → fdiv free a b = 0x7FF8000000000000) ∧
    (isNaN (fsqrt free a) = true → fsqrt free a = 0x7FF8000000000000)) ∧
  (∀ free a b : F64, isInf a = true → isInf b = true →
    fadd free a b = (if signBit a = signBit b then a else 0x7FF8000000000000) ∧
    fsub free a b = (if signBit a = signBit b then 0x7FF8000000000000 else a) ∧
    fmul free a b = productInfinity a b ∧ fdiv free a b = 0x7FF8000000000000 ∧
    fsqrt free a = (if signBit a then 0x7FF8000000000000 else a)) ∧
  (∀ free a b : F64, isInf a = true → isFinite b = true →
    fadd free a b = a ∧ fadd free b a = a ∧ fsub free a b = a ∧ fsub free b a = negate a ∧
    fmul free a b = (if valueOf b = 0 then 0x7FF8000000000000 else productInfinity a b) ∧
    fmul free b a = (if valueOf b = 0 then 0x7FF8000000000000 else productInfinity a b) ∧
    fdiv free a b = productInfinity a b ∧ fdiv free b a = productZero a b) ∧
  (∀ free a b : F64, isFinite a = true → isFinite b = true → valueOf b = 0 →
    fdiv free a b = (if valueOf a = 0 then 0x7FF8000000000000 else productInfinity a b)) ∧
  (∀ a b : F64,
    (flt a b = true ↔ isNaN a = false ∧ isNaN b = false ∧ extendedValue a < extendedValue b) ∧
    (fgt a b = true ↔ isNaN a = false ∧ isNaN b = false ∧ extendedValue b < extendedValue a) ∧
    (feq a b = true ↔ isNaN a = false ∧ isNaN b = false ∧ extendedValue a = extendedValue b)) ∧
  feq 0x8000000000000000 0x0000000000000000 = true

/-- 44_awgn.md R158: with a NaN SNR every output component is a NaN, in a real stream and in a complex one. -/
def Obligations.NanSnrMakesEveryOutputNan : Prop :=
  ∀ (q : Bool) (s : State), isNaN s.snrDb = true →
    (lengthsPass (.awgnReal q) s → inputWritten (.awgnReal q) s →
      ∃ out, exec (.awgnReal q) s = .next (succeededWith (.awgnReal q) s out) ∧
        ∀ i, i < s.inLen.toNat → ∃ y, realAt out i = some y ∧ isNaN y = true) ∧
    (lengthsPass (.awgnCplx q) s → inputWritten (.awgnCplx q) s →
      ∃ out, exec (.awgnCplx q) s = .next (succeededWith (.awgnCplx q) s out) ∧
        ∀ i, i < s.inLen.toNat → ∃ re im, cplxAt out i = some (re, im) ∧ isNaN re = true ∧ isNaN im = true)

/-! Steps. -/

/-- 40_operation_common.md R100, R101: while busy, when it is the engine's turn (its own turn, nothing left to come, or a request waiting
behind a held one) and the command word decodes, the step is that command's meaning. `turn` takes the turn off the agenda and clears what
the port last completed. -/
def Obligations.StepRunsTheDecodedCommand : Prop :=
  ∀ (s : State) (i : Instr), s.phase = .busy → decodeWord (commandWord s) = .ok i →
    (∀ rest, s.agenda = .engine :: rest → step s = exec i (s.turn rest)) ∧
    (s.agenda = [] → step s = exec i (s.turn [])) ∧
    (∀ r r' rest, s.held = some r → s.agenda = .present r' :: rest → step s = exec i (s.turn (.present r' :: rest)))

/-- A command placed as the next is what the very next step runs. The placed state stands for the host's START write having been performed
(notes/assumptions/6.md), so the premise "idle" of 70_reset_and_hazards.md R193 speaks of the state before that write, which is not part of
this statement; `EveryLaunchedOperationCompletes` takes it. -/
def Obligations.PlacedCommandRunsNext : Prop :=
  ∀ (s : State) (w : Nat) (i : Instr), decodeWord (BitVec.ofNat 32 (w % 2 ^ 32)) = .ok i →
    step (s.withFetchWord 32 w) = exec i (s.turn s.agenda)

/-- 40_operation_common.md R100, R101: a START write makes the engine busy and clears `DONE` and `ERR`, and the engine's step after it does
what the command does from the state before the write. -/
def Obligations.StartThenEngineIsTheWholeCommand : Prop :=
  ∀ (s : State) (w : Word) (i : Instr) (rest : List Event), s.phase = .idle → s.held = none →
    s.agenda = .present (.write 0x008 32 w) :: .engine :: rest → decodeWord w = .ok i →
    ∃ t, step s = .next t ∧ t.phase = .busy ∧ t.done = false ∧ t.err = .none ∧ t.irqEn = i.irqEn ∧ t.op = i.code ∧
      t.obuf = s.obuf ∧ t.outLen = s.outLen ∧ step t = exec i (s.turn rest)

/-- 30_encoding.md R82, 60_exceptions.md R174, check 1: a started reserved `OP` completes with `ILLEGAL_OP` and info 0, and changes nothing
else. It is the engine's turn as in `StepRunsTheDecodedCommand`: its own turn, nothing left to come, or a request waiting behind a held one;
`rest` is what is left to come. -/
def Obligations.ReservedOpCompletesWithIllegalOp : Prop :=
  ∀ (s : State) (rest : List Event), s.phase = .busy → (s.op = 0 ∨ 9 ≤ s.op.toNat) →
    (s.agenda = .engine :: rest ∨ (s.agenda = [] ∧ rest = []) ∨
      (s.held ≠ none ∧ s.agenda = rest ∧ ∃ r more, rest = .present r :: more)) →
    step s = .next { s with
      agenda := rest, answer := none, phase := .idle, done := true, err := .illegalOp, errInfo := 0, outLen := 0 }

/-- 20_memory.md R56: while busy, a transaction that is no `STATUS` read is held and not performed. -/
def Obligations.BusyPortHoldsTransactions : Prop :=
  ∀ (s : State) (r : Request) (rest : List Event), s.phase = .busy → s.held = none → s.agenda = .present r :: rest →
    r.wellFormed = true → (∀ w, r ≠ .read 0x00C w) →
    step s = .next { s with agenda := rest, answer := none, held := some r }

/-- 20_memory.md R56: a read of `STATUS` while busy completes at once and returns `BUSY` = 1, `DONE` = 0 and `ERR` = 0, in every state of the
invariant. -/
def Obligations.StatusReadIsNeverHeld : Prop :=
  ∀ (s : State) (rest : List Event), Inv s → s.phase = .busy → s.held = none → s.agenda = .present (.read 0x00C 32) :: rest →
    step s = .next { s with agenda := rest, answer := some (.read 0x00C 0x00000001) }

/-- 20_memory.md R56, R66: a held transaction is performed first once the engine is idle, against the state the operation left; with
nothing held, what is presented while idle is performed in that step; and a performed write is the write's rule (R53 to R55, R57) and its
answer. `ReadsHaveNoSideEffect` says what a performed read is. -/
def Obligations.HeldTransactionIsPerformedFirst : Prop :=
  (∀ (s : State) (r : Request), s.phase = .idle → s.held = some r → s.agenda.head? ≠ some .reset →
    step s = perform r { s with held := none, answer := none }) ∧
  (∀ (s : State) (r : Request) (rest : List Event), s.phase = .idle → s.held = none → s.agenda = .present r :: rest →
    step s = perform r { s with agenda := rest, answer := none }) ∧
  (∀ (s : State) (a w : Nat) (d : Word), (Request.write a w d).wellFormed = true →
    perform (.write a w d) s = .next { hostWrite s a d with answer := some (.write a d) })

/-- 20_memory.md R51: a request that is not 32 bits wide, not at a multiple of 4 or outside the 22-bit space is refused by name, idle or
busy. -/
def Obligations.RequestsOutsideThePortAreRefused : Prop :=
  ∀ (s : State) (r : Request) (rest : List Event), s.held = none → s.agenda = .present r :: rest →
    (r.width ≠ 32 ∨ r.offset % 4 ≠ 0 ∨ 0x400000 ≤ r.offset) → step s = .refused .outsidePort

/-- 60_exceptions.md R185: idle with nothing to do, BBCORE holds its state. Its port completes nothing. -/
def Obligations.IdleHoldsItsState : Prop :=
  ∀ s : State, s.phase = .idle → s.held = none → s.agenda = [] → step s = .next { s with answer := none }

/-- 10_state.md R38, R39; 70_reset_and_hazards.md R190: what `rst` leaves, in every state: each register as the host would read it,
idle, nothing held, `irq` low, no byte of either buffer written. -/
def Obligations.ResetLeavesTheResetState : Prop :=
  ∀ (s : State) (rest : List Event), s.agenda = .reset :: rest →
    ∃ t, step s = .next t ∧ t.cfg = s.cfg ∧
      hostRead t 0x000 = .ok 0x4D444D31 ∧ hostRead t 0x004 = .ok 0x00010000 ∧
      (∀ a ∈ [0x008, 0x00C, 0x010, 0x014, 0x018, 0x01C, 0x020, 0x024, 0x028, 0x02C, 0x030, 0x034], hostRead t a = .ok 0) ∧
      hostRead t 0x038 = .ok (BitVec.ofNat 32 s.cfg.ibufBytes) ∧ hostRead t 0x03C = .ok (BitVec.ofNat 32 s.cfg.obufBytes) ∧
      t.phase = .idle ∧ t.held = none ∧ t.answer = none ∧ t.irq = false ∧
      ∀ k, Memory.read t.ibuf k = none ∧ Memory.read t.obuf k = none

/-! The port. -/

/-- 10_state.md R23, R24: `ID` and `VERSION` read their constants in every state, and writes to them are ignored. -/
def Obligations.IdentificationIsConstant : Prop :=
  ∀ (s : State) (w : Word),
    hostRead s 0x000 = .ok 0x4D444D31 ∧ hostRead s 0x004 = .ok 0x00010000 ∧ hostWrite s 0x000 w = s ∧ hostWrite s 0x004 w = s

/-- 10_state.md R25, 30_encoding.md R76: a `CTRL` write stores `OP` and `IRQ_EN`, which read back with every other bit 0; without `START` it
changes nothing else. -/
def Obligations.CtrlWriteStoresOpAndIrqEn : Prop :=
  ∀ (s : State) (w : Word),
    hostRead (hostWrite s 0x008 w) 0x008 = .ok (w &&& 0x000001F0) ∧
    (w.getLsbD 0 = false → hostWrite s 0x008 w = { s with op := w.extractLsb' 4 4, irqEn := w.getLsbD 8 }) ∧
    (w.getLsbD 0 = true → hostWrite s 0x008 w =
      { s with op := w.extractLsb' 4 4, irqEn := w.getLsbD 8, done := false, err := .none, phase := .busy })

/-- 10_state.md R26, 60_exceptions.md R171: the fields of `STATUS` as a read returns them, with the number the host sees in bits 11:8 for
each error, and a write of it clears `DONE` by bit 1 and does nothing else. -/
def Obligations.StatusFieldsAndWriteOneToClear : Prop :=
  (∀ (s : State) (w : Word),
    (∃ d, hostRead s 0x00C = .ok d ∧ d.getLsbD 0 = decide (s.phase = .busy) ∧ d.getLsbD 1 = s.done ∧
      d.extractLsb' 2 6 = 0 ∧ d.extractLsb' 12 20 = 0 ∧ d.extractLsb' 8 4 = s.err.bits ∧
      (s.err = .none → d.extractLsb' 8 4 = 0) ∧ (s.err = .invalidBit → d.extractLsb' 8 4 = 1) ∧
      (s.err = .oddLength → d.extractLsb' 8 4 = 2) ∧ (s.err = .invalidLength → d.extractLsb' 8 4 = 3) ∧
      (s.err = .lengthMismatch → d.extractLsb' 8 4 = 4) ∧ (s.err = .illegalOp → d.extractLsb' 8 4 = 5) ∧
      (s.err = .capacity → d.extractLsb' 8 4 = 6)) ∧
    hostWrite s 0x00C w = if w.getLsbD 1 then { s with done := false } else s) ∧
  ErrorCode.none.bits = 0 ∧ ErrorCode.invalidBit.bits = 1 ∧ ErrorCode.oddLength.bits = 2 ∧ ErrorCode.invalidLength.bits = 3 ∧
  ErrorCode.lengthMismatch.bits = 4 ∧ ErrorCode.illegalOp.bits = 5 ∧ ErrorCode.capacity.bits = 6

/-- 10_state.md R27, R30: `IN_LEN` and both halves of `snr_db` read back what was written, and the write changes nothing else. -/
def Obligations.LengthAndSnrReadBack : Prop :=
  ∀ (s : State) (w : Word),
    hostWrite s 0x010 w = { s with inLen := w } ∧ hostRead (hostWrite s 0x010 w) 0x010 = .ok w ∧
    hostWrite s 0x020 w = { s with snrLo := w } ∧ hostRead (hostWrite s 0x020 w) 0x020 = .ok w ∧
    hostWrite s 0x024 w = { s with snrHi := w } ∧ hostRead (hostWrite s 0x024 w) 0x024 = .ok w ∧
    s.snrDb.extractLsb' 0 32 = s.snrLo ∧ s.snrDb.extractLsb' 32 32 = s.snrHi

/-- 10_state.md R31: a write of either half of the seed stores it and sets `DRAW_CNT` to 0, and nothing else. -/
def Obligations.SeedWriteRestartsTheStream : Prop :=
  ∀ (s : State) (w : Word),
    hostWrite s 0x028 w = { s with seedLo := w, drawCnt := 0 } ∧ hostWrite s 0x02C w = { s with seedHi := w, drawCnt := 0 } ∧
    hostRead (hostWrite s 0x028 w) 0x028 = .ok w ∧ hostRead (hostWrite s 0x02C w) 0x02C = .ok w ∧
    hostRead (hostWrite s 0x028 w) 0x030 = .ok 0 ∧ hostRead (hostWrite s 0x02C w) 0x034 = .ok 0 ∧
    s.seed.extractLsb' 0 32 = s.seedLo ∧ s.seed.extractLsb' 32 32 = s.seedHi

/-- 10_state.md R28, R29, R32, R33: what the read-only registers read, and that writes to them are ignored. -/
def Obligations.ReadOnlyRegisters : Prop :=
  ∀ (s : State) (w : Word),
    hostRead s 0x014 = .ok s.outLen ∧ hostRead s 0x018 = .ok s.errInfo ∧
    hostRead s 0x030 = .ok (s.drawCnt.extractLsb' 0 32) ∧ hostRead s 0x034 = .ok (s.drawCnt.extractLsb' 32 32) ∧
    hostRead s 0x038 = .ok (BitVec.ofNat 32 s.cfg.ibufBytes) ∧ hostRead s 0x03C = .ok (BitVec.ofNat 32 s.cfg.obufBytes) ∧
    ∀ a ∈ [0x014, 0x018, 0x030, 0x034, 0x038, 0x03C], hostWrite s a w = s

/-- 10_state.md R37, 20_memory.md R57: reserved register offsets and unmapped ranges read 0 and ignore writes. -/
def Obligations.ReservedSpaceReadsZero : Prop :=
  ∀ (s : State) (a : Nat) (w : Word),
    (a = 0x01C ∨ (0x040 ≤ a ∧ a < 0x1000) ∨ (0x1000 ≤ a ∧ a < 0x100000) ∨ (0x300000 ≤ a ∧ a < 0x400000)) →
    hostRead s a = .ok 0 ∧ hostWrite s a w = s

/-- 20_memory.md R54, R58: a word written to IBUF sets four bytes, lowest first, reads back, and changes nothing else; beyond the buffer
reads are 0 and writes are ignored. -/
def Obligations.IbufWordsAreLittleEndian : Prop :=
  ∀ (s : State) (k : Nat) (w : Word), s.cfg.legal = true → k < 0x100000 → k % 4 = 0 →
    (k < s.cfg.ibufBytes →
      hostRead (hostWrite s (0x100000 + k) w) (0x100000 + k) = .ok w ∧
      (∀ j, j < 4 → Memory.read (hostWrite s (0x100000 + k) w).ibuf (k + j) = some (w.extractLsb' (8 * j) 8)) ∧
      (∀ a, a < k ∨ k + 4 ≤ a → Memory.read (hostWrite s (0x100000 + k) w).ibuf a = Memory.read s.ibuf a) ∧
      ({ hostWrite s (0x100000 + k) w with ibuf := s.ibuf } = s)) ∧
    (s.cfg.ibufBytes ≤ k → hostRead s (0x100000 + k) = .ok 0 ∧ hostWrite s (0x100000 + k) w = s)

/-- 20_memory.md R55, 10_state.md R39: a word of OBUF reads its four bytes, lowest first, or faults where one was never written; beyond the
buffer reads are 0; writes are ignored everywhere in the window. -/
def Obligations.ObufWordsAreReadOnly : Prop :=
  ∀ (s : State) (k : Nat) (w : Word), s.cfg.legal = true → k < 0x100000 → k % 4 = 0 →
    hostWrite s (0x200000 + k) w = s ∧
    (s.cfg.obufBytes ≤ k → hostRead s (0x200000 + k) = .ok 0) ∧
    (k < s.cfg.obufBytes →
      (∀ b0 b1 b2 b3 : Byte, Memory.read s.obuf k = some b0 → Memory.read s.obuf (k + 1) = some b1 →
        Memory.read s.obuf (k + 2) = some b2 → Memory.read s.obuf (k + 3) = some b3 →
        hostRead s (0x200000 + k) = .ok (b3 ++ b2 ++ b1 ++ b0)) ∧
      ((∃ j, j < 4 ∧ Memory.read s.obuf (k + j) = none) → hostRead s (0x200000 + k) = .error .unwrittenOutput))

/-- 20_memory.md R62: a performed read changes nothing but what the port answers. A read within the port's protocol (R51) is answered with
the data its address reads, or faults where that is unwritten storage (10_state.md R39). -/
def Obligations.ReadsHaveNoSideEffect : Prop :=
  (∀ (s t : State) (a w : Nat), perform (.read a w) s = .next t →
    ∃ d, hostRead s a = .ok d ∧ t = { s with answer := some (.read a d) }) ∧
  (∀ (s : State) (a w : Nat), (Request.read a w).wellFormed = true →
    (∀ d, hostRead s a = .ok d → perform (.read a w) s = .next { s with answer := some (.read a d) }) ∧
    (∀ f, hostRead s a = .error f → perform (.read a w) s = .fault f ∧ f = .unwrittenOutput))

/-- 10_state.md R40: `irq` is the `DONE` bit a read of `STATUS` returns and the `IRQ_EN` bit a read of `CTRL` returns, in every state, and is
0 in the state after reset and in the state every reset leaves. -/
def Obligations.IrqIsDoneAndEnabled : Prop :=
  (∀ s : State, s.irq = ((regRead s .status).getLsbD 1 && (regRead s .ctrl).getLsbD 8)) ∧ State.reset.irq = false ∧
  ∀ (s t : State) (rest : List Event), s.agenda = .reset :: rest → step s = .next t → t.irq = false

/-! Invariants and whole-machine rules. -/

/-- The invariant holds right after reset. -/
def Obligations.InvariantHoldsAtReset : Prop := Inv State.reset

/-- Every step keeps the invariant, from every state that meets it. -/
def Obligations.EveryStepKeepsTheInvariant : Prop := ∀ s t : State, Inv s → step s = .next t → Inv t

/-- 00_scope.md R3, R6: no step changes the parameters of an instance. -/
def Obligations.ParametersNeverChange : Prop := ∀ s t : State, step s = .next t → t.cfg = s.cfg

/-- 10_state.md R42, 20_memory.md R63: only a reset, or a write the port performs in the IBUF window while idle, changes IBUF. -/
def Obligations.OnlyHostWritesAndResetChangeIbuf : Prop :=
  ∀ s t : State, step s = .next t → t.ibuf ≠ s.ibuf →
    s.agenda.head? = some .reset ∨
    (s.phase = .idle ∧ ∃ (a : Nat) (d : Word), 0x100000 ≤ a ∧ a < 0x200000 ∧ t.answer = some (.write a d))

/-- 20_memory.md R63, 40_operation_common.md R107: only a reset, or an operation that completes without an error, changes OBUF. -/
def Obligations.OnlySuccessAndResetChangeObuf : Prop :=
  ∀ s t : State, step s = .next t → t.obuf ≠ s.obuf →
    s.agenda.head? = some .reset ∨ (s.phase = .busy ∧ t.phase = .idle ∧ t.done = true ∧ t.err = .none)
end

