-- ==== Sys2Proof/Laws/Memory.lean ====
section
/-! SUPPORT. The laws of the buffers: a read after a write, the canonical form, and reading many bytes. -/
namespace Sys2Proof.Machine

/-! One byte. -/

theorem Memory.read_write (m : Memory) (k : Nat) (v : Byte) (a : Nat) :
    Memory.read (Memory.write m k v) a = if a = k then some v else Memory.read m a := by
  induction m with
  | nil => simp only [Memory.write, Memory.read, eq_comm]
  | cons c m ih =>
    obtain ⟨b, w⟩ := c
    simp only [Memory.write]
    split
    · rename_i h
      by_cases ha : a = k
      · subst ha; simp [Memory.read]
      · simp [Memory.read, ha, Ne.symm ha]
    · split
      · rename_i h
        subst h
        by_cases ha : a = k
        · subst ha; simp [Memory.read]
        · simp [Memory.read, ha, Ne.symm ha]
      · rename_i h1 h2
        by_cases hb : b = a
        · subst hb; simp [Memory.read, Ne.symm h2]
        · simp [Memory.read, hb, ih]

@[simp] theorem Memory.read_write_same (m : Memory) (k : Nat) (v : Byte) : Memory.read (Memory.write m k v) k = some v := by
  simp [Memory.read_write]

theorem Memory.read_write_ne (m : Memory) (v : Byte) {k a : Nat} (h : a ≠ k) :
    Memory.read (Memory.write m k v) a = Memory.read m a := by
  simp [Memory.read_write, h]

/-! Many bytes. -/

/-- What a list of bytes written from offset `k` on makes of every byte. -/
theorem Memory.read_writeList (bs : List Byte) (m : Memory) (k a : Nat) :
    Memory.read (Memory.writeList m k bs) a =
      if k ≤ a ∧ a < k + bs.length then bs[a - k]? else Memory.read m a := by
  induction bs generalizing m k with
  | nil =>
    have : ¬(k ≤ a ∧ a < k + ([] : List Byte).length) := by simp
    simp only [Memory.writeList, if_neg this]
  | cons b bs ih =>
    simp only [Memory.writeList, ih, Memory.read_write, List.length_cons]
    by_cases h1 : a = k
    · subst h1
      simp
    · by_cases h2 : k + 1 ≤ a ∧ a < k + 1 + bs.length
      · have h3 : k ≤ a ∧ a < k + (bs.length + 1) := by omega
        have h4 : a - k = (a - (k + 1)) + 1 := by omega
        rw [if_pos h2, if_pos h3, h4, List.getElem?_cons_succ]
      · have h3 : ¬(k ≤ a ∧ a < k + (bs.length + 1)) := by omega
        rw [if_neg h2, if_neg h3, if_neg h1]

theorem Memory.read_writeList_outside (bs : List Byte) (m : Memory) {k a : Nat} (h : a < k ∨ k + bs.length ≤ a) :
    Memory.read (Memory.writeList m k bs) a = Memory.read m a := by
  rw [Memory.read_writeList, if_neg (by omega)]

theorem Memory.read_writeList_zero (bs : List Byte) (m : Memory) {a : Nat} (h : a < bs.length) :
    Memory.read (Memory.writeList m 0 bs) a = bs[a]? := by
  rw [Memory.read_writeList, if_pos (by omega)]; simp

/-- `bytes` answers a list exactly when every byte of it can be read there. -/
theorem Memory.bytes_eq_some (m : Memory) (n k : Nat) (bs : List Byte) :
    Memory.bytes m k n = some bs ↔ bs.length = n ∧ ∀ j, j < n → Memory.read m (k + j) = bs[j]? := by
  induction n generalizing k bs with
  | zero =>
    cases bs <;> simp [Memory.bytes]
  | succ n ih =>
    simp only [Memory.bytes]
    constructor
    · intro h
      split at h
      · rename_i b bs' hb hbs
        cases h
        obtain ⟨hl, hr⟩ := (ih _ _).mp hbs
        refine ⟨by simp [hl], fun j hj => ?_⟩
        cases j with
        | zero => simpa using hb
        | succ j =>
          have := hr j (by omega)
          rw [List.getElem?_cons_succ, ← this]; congr 1; omega
      · cases h
    · rintro ⟨hl, hr⟩
      cases bs with
      | nil => simp at hl
      | cons b bs =>
        have h0 : Memory.read m k = some b := by simpa using hr 0 (by omega)
        have h1 : Memory.bytes m (k + 1) n = some bs := (ih _ _).mpr ⟨by simpa using hl, fun j hj => by
          have := hr (j + 1) (by omega)
          rw [List.getElem?_cons_succ] at this
          rw [← this]; congr 1; omega⟩
        rw [h0, h1]

theorem Memory.bytes_congr {m m' : Memory} {k k' n : Nat}
    (h : ∀ j, j < n → Memory.read m (k + j) = Memory.read m' (k' + j)) : Memory.bytes m k n = Memory.bytes m' k' n := by
  induction n generalizing k k' with
  | zero => rfl
  | succ n ih =>
    have h0 := h 0 (by omega)
    have h1 : Memory.bytes m (k + 1) n = Memory.bytes m' (k' + 1) n := ih fun j hj => by
      have := h (j + 1) (by omega)
      rwa [show k + 1 + j = k + (j + 1) by omega, show k' + 1 + j = k' + (j + 1) by omega]
    simp only [Nat.add_zero] at h0
    simp only [Memory.bytes, h0, h1]

/-- `bytes` answers nothing exactly when one of the bytes was never written. -/
theorem Memory.bytes_eq_none (m : Memory) (n k : Nat) :
    Memory.bytes m k n = none ↔ ∃ j, j < n ∧ Memory.read m (k + j) = none := by
  induction n generalizing k with
  | zero => simp [Memory.bytes]
  | succ n ih =>
    simp only [Memory.bytes]
    constructor
    · intro h
      cases h0 : Memory.read m k with
      | none => exact ⟨0, by omega, by simpa using h0⟩
      | some b =>
        cases h1 : Memory.bytes m (k + 1) n with
        | none =>
          obtain ⟨j, hj, hr⟩ := (ih _).mp h1
          exact ⟨j + 1, by omega, by rw [show k + (j + 1) = k + 1 + j by omega]; exact hr⟩
        | some bs => rw [h0, h1] at h; cases h
    · rintro ⟨j, hj, hr⟩
      cases j with
      | zero => simp only [Nat.add_zero] at hr; rw [hr]
      | succ j =>
        have : Memory.bytes m (k + 1) n = none :=
          (ih _).mpr ⟨j, by omega, by rw [show k + 1 + j = k + (j + 1) by omega]; exact hr⟩
        rw [this]; cases Memory.read m k <;> rfl

/-! The canonical form. -/

theorem Memory.above_write {m : Memory} {j k : Nat} {v : Byte} (h : Memory.above j m = true) (hk : j < k) :
    Memory.above j (Memory.write m k v) = true := by
  induction m with
  | nil => simp [Memory.write, Memory.above, hk]
  | cons c m ih =>
    obtain ⟨b, w⟩ := c
    simp only [Memory.above, List.all_cons, Bool.and_eq_true, decide_eq_true_eq] at h
    simp only [Memory.write]
    split
    · simp [Memory.above, hk, h.1]; simpa using h.2
    · split
      · simp [Memory.above, hk]; simpa using h.2
      · have := ih (by simpa [Memory.above] using h.2)
        simp only [Memory.above] at this
        simp [Memory.above, h.1, this]

theorem Memory.above_of_lt {m : Memory} {j k : Nat} (h : Memory.above k m = true) (hj : j < k) : Memory.above j m = true := by
  simp only [Memory.above, List.all_eq_true, decide_eq_true_eq] at h ⊢
  exact fun c hc => Nat.lt_trans hj (h c hc)

/-- Writing a byte keeps the canonical form. -/
theorem Memory.write_wf {m : Memory} (k : Nat) (v : Byte) (h : Memory.wf m = true) : Memory.wf (Memory.write m k v) = true := by
  induction m with
  | nil => simp [Memory.write, Memory.wf, Memory.above]
  | cons c m ih =>
    obtain ⟨b, w⟩ := c
    simp only [Memory.wf, Bool.and_eq_true] at h
    simp only [Memory.write]
    split
    · rename_i hk
      simp only [Memory.wf, Bool.and_eq_true]
      exact ⟨by simpa [Memory.above, hk] using (Memory.above_of_lt h.1 hk), h⟩
    · split
      · rename_i hk
        subst hk
        simp only [Memory.wf, Bool.and_eq_true]
        exact h
      · rename_i h1 h2
        simp only [Memory.wf, Bool.and_eq_true]
        exact ⟨Memory.above_write h.1 (by omega), ih h.2⟩

/-- Writing bytes keeps the canonical form. -/
theorem Memory.writeList_wf {m : Memory} (k : Nat) (bs : List Byte) (h : Memory.wf m = true) :
    Memory.wf (Memory.writeList m k bs) = true := by
  induction bs generalizing m k with
  | nil => exact h
  | cons b bs ih => exact ih _ (Memory.write_wf _ _ h)

theorem Memory.within_write {m : Memory} {k size : Nat} {v : Byte} (h : Memory.within m size = true) (hk : k < size) :
    Memory.within (Memory.write m k v) size = true := by
  induction m with
  | nil => simp [Memory.write, Memory.within, hk]
  | cons c m ih =>
    obtain ⟨b, w⟩ := c
    simp only [Memory.within, List.all_cons, Bool.and_eq_true, decide_eq_true_eq] at h
    simp only [Memory.write]
    split
    · simp [Memory.within, hk, h.1]; simpa using h.2
    · split
      · simp [Memory.within, hk]; simpa using h.2
      · have := ih (by simpa [Memory.within] using h.2)
        simp only [Memory.within] at this
        simp [Memory.within, h.1]; simpa using this

/-- Writing bytes inside a buffer keeps every offset inside it. -/
theorem Memory.within_writeList {m : Memory} {k size : Nat} {bs : List Byte} (h : Memory.within m size = true)
    (hk : k + bs.length ≤ size) : Memory.within (Memory.writeList m k bs) size = true := by
  induction bs generalizing m k with
  | nil => exact h
  | cons b bs ih =>
    simp only [List.length_cons] at hk
    exact ih (Memory.within_write h (by omega)) (by omega)

/-- A memory in canonical form and inside a size holds nothing at or beyond that size. -/
theorem Memory.read_outside {m : Memory} {size a : Nat} (h : Memory.within m size = true) (ha : size ≤ a) :
    Memory.read m a = none := by
  induction m with
  | nil => rfl
  | cons c m ih =>
    obtain ⟨b, w⟩ := c
    simp only [Memory.within, List.all_cons, Bool.and_eq_true, decide_eq_true_eq] at h
    have : b ≠ a := by omega
    simp only [Memory.read, if_neg this]
    exact ih (by simpa [Memory.within] using h.2)

/-- Equal memories are equal data: canonical memories with the same bytes are the same list. -/
theorem Memory.ext_of_wf {m m' : Memory} (h : Memory.wf m = true) (h' : Memory.wf m' = true)
    (hr : ∀ a, Memory.read m a = Memory.read m' a) : m = m' := by
  induction m generalizing m' with
  | nil =>
    cases m' with
    | nil => rfl
    | cons c m' => obtain ⟨b, w⟩ := c; have := hr b; simp [Memory.read] at this
  | cons c m ih =>
    obtain ⟨b, w⟩ := c
    have none_of_above : ∀ {n : Memory} {j a : Nat}, Memory.above j n = true → a ≤ j → Memory.read n a = none := by
      intro n j a hn ha
      induction n with
      | nil => rfl
      | cons d n ihn =>
        obtain ⟨e, x⟩ := d
        simp only [Memory.above, List.all_cons, Bool.and_eq_true, decide_eq_true_eq] at hn
        have : e ≠ a := by omega
        simp only [Memory.read, if_neg this]
        exact ihn (by simpa [Memory.above] using hn.2)
    cases m' with
    | nil => have := hr b; simp [Memory.read] at this
    | cons c' m' =>
      obtain ⟨b', w'⟩ := c'
      simp only [Memory.wf, Bool.and_eq_true] at h h'
      have hb : b = b' := by
        rcases Nat.lt_trichotomy b b' with hlt | heq | hgt
        · have := hr b
          have h2 : b' ≠ b := by omega
          simp only [Memory.read, if_true, if_neg h2] at this
          rw [none_of_above h'.1 (by omega)] at this; cases this
        · exact heq
        · have := hr b'
          have h2 : b ≠ b' := by omega
          simp only [Memory.read, if_true, if_neg h2] at this
          rw [none_of_above h.1 (by omega)] at this; cases this
      subst hb
      have hw := hr b
      simp only [Memory.read, if_true, Option.some.injEq] at hw
      subst hw
      congr 1
      refine ih h.2 h'.2 fun a => ?_
      by_cases ha : b = a
      · subst ha
        rw [none_of_above h.1 (Nat.le_refl _), none_of_above h'.1 (Nat.le_refl _)]
      · have := hr a
        simpa only [Memory.read, if_neg ha] using this

/-- Both buffers have the canonical form after reset. -/
theorem reset_memory_wf : Memory.wf State.reset.ibuf = true ∧ Memory.wf State.reset.obuf = true := ⟨rfl, rfl⟩

end Sys2Proof.Machine
end

