-- ==== Sys2Proof/Laws/Elements.lean ====
section
/-! SUPPORT. The laws of elements: byte order both ways, what a written sequence of elements reads as, and what reading or
scanning all input elements comes to. -/
namespace Sys2Proof.Machine

/-! Byte order (20_memory.md R58). -/

@[simp] theorem leBytes_length (n v : Nat) : (leBytes n v).length = n := by
  induction n generalizing v with
  | zero => rfl
  | succ n ih => simp [leBytes, ih]

theorem leValue_leBytes (n v : Nat) : leValue (leBytes n v) = v % 256 ^ n := by
  induction n generalizing v with
  | zero => simp [leBytes, leValue, Nat.mod_one]
  | succ n ih =>
    simp only [leBytes, leValue, ih, BitVec.toNat_ofNat]
    rw [show 256 ^ (n + 1) = 256 * 256 ^ n by rw [Nat.pow_succ, Nat.mul_comm], Nat.mod_mul]

theorem leBytes_leValue (bs : List Byte) : leBytes bs.length (leValue bs) = bs := by
  induction bs with
  | nil => rfl
  | cons b bs ih =>
    have hb := b.isLt
    have h1 : (b.toNat + 256 * leValue bs) / 256 = leValue bs := by omega
    simp only [leValue, List.length_cons, leBytes, h1, ih]
    congr 1
    apply BitVec.eq_of_toNat_eq
    simp only [BitVec.toNat_ofNat]
    omega

theorem leValue_lt (bs : List Byte) : leValue bs < 256 ^ bs.length := by
  induction bs with
  | nil => simp [leValue]
  | cons b bs ih =>
    have hb := b.isLt
    simp only [leValue, List.length_cons, Nat.pow_succ]
    omega

@[simp] theorem realBytes_length (x : F64) : (realBytes x).length = 8 := leBytes_length _ _
@[simp] theorem cplxBytes_length (z : F64 × F64) : (cplxBytes z).length = 16 := by simp [cplxBytes]

theorem ofNat_leValue_realBytes (x : F64) : BitVec.ofNat 64 (leValue (realBytes x)) = x := by
  rw [realBytes, leValue_leBytes, Nat.mod_eq_of_lt (by simpa using x.isLt)]; simp

/-! Sequences of elements of one width. -/

theorem length_flatMap_const {α : Type} (f : α → List Byte) (w : Nat) (hf : ∀ a, (f a).length = w) (xs : List α) :
    (xs.flatMap f).length = w * xs.length := by
  induction xs with
  | nil => simp
  | cons x xs ih => simp [ih, hf, Nat.mul_add, Nat.add_comm]

/-- Byte `j` of element `i` of a sequence of elements of width `w`. -/
theorem getElem?_flatMap_const {α : Type} (f : α → List Byte) (w : Nat) (hf : ∀ a, (f a).length = w) (xs : List α)
    (i j : Nat) (hj : j < w) : (xs.flatMap f)[w * i + j]? = (xs[i]?).bind fun a => (f a)[j]? := by
  induction xs generalizing i with
  | nil => simp
  | cons x xs ih =>
    rw [List.flatMap_cons]
    cases i with
    | zero =>
      rw [List.getElem?_append_left (by simp [hf, hj])]; simp
    | succ i =>
      rw [List.getElem?_append_right (by rw [hf, Nat.mul_succ]; omega), hf,
        show w * (i + 1) + j - w = w * i + j by rw [Nat.mul_succ]; omega, ih]
      simp

/-- A sequence of reals written from byte 0 on reads back element by element. -/
theorem realAt_writeList (xs : List F64) (m : Memory) {i : Nat} (hi : i < xs.length) :
    realAt (Memory.writeList m 0 (xs.flatMap realBytes)) i = xs[i]? := by
  have hl := length_flatMap_const realBytes 8 realBytes_length xs
  have hb : Memory.bytes (Memory.writeList m 0 (xs.flatMap realBytes)) (8 * i) 8 = some (realBytes xs[i]) := by
    rw [Memory.bytes_eq_some]
    refine ⟨realBytes_length _, fun j hj => ?_⟩
    rw [Memory.read_writeList_zero _ _ (by rw [hl]; omega), getElem?_flatMap_const realBytes 8 realBytes_length xs i j hj]
    simp [List.getElem?_eq_getElem hi]
  simp only [realAt, hb, Option.map_some, ofNat_leValue_realBytes, List.getElem?_eq_getElem hi]

/-- A complex sequence is the sequence of its components. -/
theorem flatMap_cplxBytes (zs : List (F64 × F64)) :
    zs.flatMap cplxBytes = (zs.flatMap fun z => [z.1, z.2]).flatMap realBytes := by
  induction zs with
  | nil => rfl
  | cons z zs ih => simp [cplxBytes, ih]

theorem getElem?_components (zs : List (F64 × F64)) (i : Nat) :
    (zs.flatMap fun z => [z.1, z.2])[2 * i]? = (zs[i]?).map (·.1) ∧
    (zs.flatMap fun z => [z.1, z.2])[2 * i + 1]? = (zs[i]?).map (·.2) := by
  induction zs generalizing i with
  | nil => simp
  | cons z zs ih =>
    cases i with
    | zero => simp
    | succ i =>
      have := ih i
      simpa [Nat.mul_succ] using this

theorem length_components (zs : List (F64 × F64)) : (zs.flatMap fun z => [z.1, z.2]).length = 2 * zs.length := by
  induction zs with
  | nil => rfl
  | cons z zs ih => simp only [List.flatMap_cons, List.length_append, List.length_cons, List.length_nil, ih]; omega

/-- A sequence of complex symbols written from byte 0 on reads back element by element. -/
theorem cplxAt_writeList (zs : List (F64 × F64)) (m : Memory) {i : Nat} (hi : i < zs.length) :
    cplxAt (Memory.writeList m 0 (zs.flatMap cplxBytes)) i = zs[i]? := by
  have hl : (zs.flatMap fun z => [z.1, z.2]).length = 2 * zs.length := length_components zs
  obtain ⟨h0, h1⟩ := getElem?_components zs i
  rw [flatMap_cplxBytes, cplxAt, realAt_writeList _ _ (by omega), realAt_writeList _ _ (by omega), h0, h1,
    List.getElem?_eq_getElem hi]
  rfl

/-- A sequence of bytes written from byte 0 on reads back byte by byte. -/
theorem bitAt_writeList (bs : List Byte) (m : Memory) {i : Nat} (hi : i < bs.length) :
    bitAt (Memory.writeList m 0 bs) i = bs[i]? := Memory.read_writeList_zero bs m hi

/-! Reading all input elements. -/

/-- `collect` answers a list exactly when every element of it can be read. -/
theorem collect_eq_some {α : Type} (get : Nat → Option α) (n i : Nat) (xs : List α) :
    collect get i n = some xs ↔ xs.length = n ∧ ∀ j, j < n → get (i + j) = xs[j]? := by
  induction n generalizing i xs with
  | zero => cases xs <;> simp [collect]
  | succ n ih =>
    simp only [collect]
    constructor
    · intro h
      split at h
      · rename_i a as ha has
        cases h
        obtain ⟨hl, hr⟩ := (ih _ _).mp has
        refine ⟨by simp [hl], fun j hj => ?_⟩
        cases j with
        | zero => simpa using ha
        | succ j =>
          have := hr j (by omega)
          rw [List.getElem?_cons_succ, ← this]; congr 1; omega
      · cases h
    · rintro ⟨hl, hr⟩
      cases xs with
      | nil => simp at hl
      | cons a as =>
        have h0 : get i = some a := by simpa using hr 0 (by omega)
        have h1 : collect get (i + 1) n = some as := (ih _ _).mpr ⟨by simpa using hl, fun j hj => by
          have := hr (j + 1) (by omega)
          rw [List.getElem?_cons_succ] at this
          rw [← this]; congr 1; omega⟩
        rw [h0, h1]

/-- `collect` answers nothing exactly when one of the elements cannot be read. -/
theorem collect_eq_none {α : Type} (get : Nat → Option α) (n i : Nat) :
    collect get i n = none ↔ ∃ j, j < n ∧ get (i + j) = none := by
  induction n generalizing i with
  | zero => simp [collect]
  | succ n ih =>
    simp only [collect]
    constructor
    · intro h
      cases h0 : get i with
      | none => exact ⟨0, by omega, by simpa using h0⟩
      | some a =>
        cases h1 : collect get (i + 1) n with
        | none =>
          obtain ⟨j, hj, hr⟩ := (ih _).mp h1
          exact ⟨j + 1, by omega, by rw [show i + (j + 1) = i + 1 + j by omega]; exact hr⟩
        | some as => rw [h0, h1] at h; cases h
    · rintro ⟨j, hj, hr⟩
      cases j with
      | zero => simp only [Nat.add_zero] at hr; rw [hr]
      | succ j =>
        have : collect get (i + 1) n = none :=
          (ih _).mpr ⟨j, by omega, by rw [show i + 1 + j = i + (j + 1) by omega]; exact hr⟩
        rw [this]; cases get i <;> rfl

/-- Two readers that agree on every element asked for collect the same. -/
theorem collect_congr {α : Type} {get get' : Nat → Option α} {n i : Nat} (h : ∀ j, j < n → get (i + j) = get' (i + j)) :
    collect get i n = collect get' i n := by
  induction n generalizing i with
  | zero => rfl
  | succ n ih =>
    have h0 := h 0 (by omega)
    have h1 : collect get (i + 1) n = collect get' (i + 1) n := ih fun j hj => by
      have := h (j + 1) (by omega)
      rwa [show i + 1 + j = i + (j + 1) by omega]
    simp only [Nat.add_zero] at h0
    simp only [collect, h0, h1]

theorem realAt_congr {m m' : Memory} {i : Nat} (h : ∀ k, 8 * i ≤ k → k < 8 * i + 8 → Memory.read m k = Memory.read m' k) :
    realAt m i = realAt m' i := by
  simp only [realAt, Memory.bytes_congr (m := m) (m' := m') (k := 8 * i) (k' := 8 * i) (n := 8)
    (fun j hj => h _ (by omega) (by omega))]

theorem cplxAt_congr {m m' : Memory} {i : Nat} (h : ∀ k, 16 * i ≤ k → k < 16 * i + 16 → Memory.read m k = Memory.read m' k) :
    cplxAt m i = cplxAt m' i := by
  simp only [cplxAt, realAt_congr (m := m) (m' := m') (i := 2 * i) (fun k _ _ => h k (by omega) (by omega)),
    realAt_congr (m := m) (m' := m') (i := 2 * i + 1) (fun k _ _ => h k (by omega) (by omega))]

/-- A real can be read exactly when its eight bytes have been written. -/
theorem realAt_eq_none (m : Memory) (i : Nat) : realAt m i = none ↔ ∃ k, 8 * i ≤ k ∧ k < 8 * i + 8 ∧ Memory.read m k = none := by
  simp only [realAt, Option.map_eq_none_iff, Memory.bytes_eq_none]
  constructor
  · rintro ⟨j, hj, h⟩; exact ⟨8 * i + j, by omega, by omega, h⟩
  · rintro ⟨k, h1, h2, h⟩; exact ⟨k - 8 * i, by omega, by rwa [show 8 * i + (k - 8 * i) = k by omega]⟩

/-- A complex symbol can be read exactly when its sixteen bytes have been written. -/
theorem cplxAt_eq_none (m : Memory) (i : Nat) :
    cplxAt m i = none ↔ ∃ k, 16 * i ≤ k ∧ k < 16 * i + 16 ∧ Memory.read m k = none := by
  have split : cplxAt m i = none ↔ realAt m (2 * i) = none ∨ realAt m (2 * i + 1) = none := by
    unfold cplxAt
    cases realAt m (2 * i) <;> cases realAt m (2 * i + 1) <;> simp
  rw [split, realAt_eq_none, realAt_eq_none]
  constructor
  · rintro (⟨k, h1, h2, h⟩ | ⟨k, h1, h2, h⟩) <;> exact ⟨k, by omega, by omega, h⟩
  · rintro ⟨k, h1, h2, h⟩
    by_cases hk : k < 16 * i + 8
    · exact .inl ⟨k, by omega, by omega, h⟩
    · exact .inr ⟨k, by omega, by omega, h⟩

/-! The bit check (60_exceptions.md R174, check 5). -/

theorem validBit_iff (b : Byte) : validBit b = true ↔ b = 0 ∨ b = 1 := by simp [validBit]

/-- The scan passes exactly when every byte is a bit. -/
theorem scanBits_eq_pass (m : Memory) (n i : Nat) :
    scanBits m i n = .pass ↔ ∀ j, j < n → Memory.read m (i + j) = some 0 ∨ Memory.read m (i + j) = some 1 := by
  induction n generalizing i with
  | zero => simp [scanBits]
  | succ n ih =>
    simp only [scanBits, bitAt]
    constructor
    · intro h
      split at h
      · cases h
      · rename_i b hb
        split at h
        · rename_i hv
          intro j hj
          cases j with
          | zero =>
            rw [Nat.add_zero, hb]
            rcases (validBit_iff b).mp hv with h0 | h0 <;> simp [h0]
          | succ j =>
            have := (ih _).mp h j (by omega)
            rwa [show i + 1 + j = i + (j + 1) by omega] at this
        · cases h
    · intro h
      have h1 : scanBits m (i + 1) n = .pass := (ih _).mpr fun j hj => by
        have := h (j + 1) (by omega)
        rwa [show i + 1 + j = i + (j + 1) by omega]
      have h0 := h 0 (by omega)
      rw [Nat.add_zero] at h0
      rcases h0 with h0 | h0 <;> rw [h0] <;> simp [validBit, h1]

/-- The scan goes over leading bits. -/
theorem scanBits_append (m : Memory) (n i k : Nat)
    (h : ∀ j, j < n → Memory.read m (i + j) = some 0 ∨ Memory.read m (i + j) = some 1) :
    scanBits m i (n + k) = scanBits m (i + n) k := by
  induction n generalizing i with
  | zero => simp
  | succ n ih =>
    have h0 := h 0 (by omega)
    rw [Nat.add_zero] at h0
    have h1 := ih (i + 1) fun j hj => by
      have := h (j + 1) (by omega)
      rwa [show i + 1 + j = i + (j + 1) by omega]
    rw [show n + 1 + k = (n + k) + 1 by omega]
    simp only [scanBits, bitAt]
    rcases h0 with h0 | h0 <;> rw [h0] <;> simp [validBit, h1, show i + 1 + n = i + (n + 1) by omega]

/-- The scan reports the first byte that is no bit, by its index. -/
theorem scanBits_invalid (m : Memory) {n j : Nat} {b : Byte} (hj : j < n) (hb : Memory.read m j = some b)
    (h0 : b ≠ 0) (h1 : b ≠ 1) (h : ∀ i, i < j → Memory.read m i = some 0 ∨ Memory.read m i = some 1) :
    scanBits m 0 n = .error .invalidBit (BitVec.ofNat 32 j) := by
  rw [show n = j + ((n - j - 1) + 1) by omega, scanBits_append m j 0 _ (by simpa using h)]
  have hv : validBit b = false := by
    rw [Bool.eq_false_iff, Ne, validBit_iff]
    rintro (h | h)
    exacts [h0 h, h1 h]
  simp [scanBits, bitAt, hb, hv]

/-- The scan stops at the first byte never written, if the bytes before it are bits. -/
theorem scanBits_unwritten (m : Memory) {n j : Nat} (hj : j < n) (hb : Memory.read m j = none)
    (h : ∀ i, i < j → Memory.read m i = some 0 ∨ Memory.read m i = some 1) : scanBits m 0 n = .stop .unwrittenInput := by
  rw [show n = j + ((n - j - 1) + 1) by omega, scanBits_append m j 0 _ (by simpa using h)]
  simp [scanBits, bitAt, hb]

/-- The scan reports nothing but an invalid bit. -/
theorem scanBits_error {m : Memory} {n i : Nat} {c : ErrorCode} {info : Word} (h : scanBits m i n = .error c info) :
    c = .invalidBit := by
  induction n generalizing i with
  | zero => cases h
  | succ n ih =>
    simp only [scanBits] at h
    split at h
    · cases h
    · split at h
      · exact ih h
      · cases h; rfl

/-- The scan stops only for a byte never written. -/
theorem scanBits_stop {m : Memory} {n i : Nat} {f : Fault} (h : scanBits m i n = .stop f) : f = .unwrittenInput := by
  induction n generalizing i with
  | zero => cases h
  | succ n ih =>
    simp only [scanBits] at h
    split at h
    · cases h; rfl
    · split at h
      · exact ih h
      · cases h

end Sys2Proof.Machine
end

