-- ==== Sys2Proof/Laws/Codecs.lean ====
section
/-! SUPPORT. The codecs as functions on sequences: how long their outputs are and what each output element is. -/
namespace Sys2Proof.Machine

/-! Manchester (41_manchester.md). -/

@[simp] theorem manEncode_length (bs : List Byte) : (manEncode bs).length = 2 * bs.length := by
  induction bs with
  | nil => rfl
  | cons b bs ih =>
    have : (manLevels b).length = 2 := by unfold manLevels; split <;> rfl
    simp only [manEncode, List.flatMap_cons, List.length_append, List.length_cons, this] at ih ⊢; omega

theorem manEncode_getElem? (bs : List Byte) (i : Nat) :
    (manEncode bs)[2 * i]? = (bs[i]?).map (fun b => if b = 1 then plusOne else minusOne) ∧
    (manEncode bs)[2 * i + 1]? = (bs[i]?).map (fun b => if b = 1 then minusOne else plusOne) := by
  induction bs generalizing i with
  | nil => simp [manEncode]
  | cons b bs ih =>
    have hb : manLevels b = [if b = 1 then plusOne else minusOne, if b = 1 then minusOne else plusOne] := by
      unfold manLevels; split <;> rfl
    cases i with
    | zero => simp [manEncode, hb]
    | succ i =>
      have := ih i
      simp only [manEncode] at this
      simpa [manEncode, hb, Nat.mul_succ] using this

@[simp] theorem manDecode_length (nan : Config.NanSite → F64) : ∀ (k : Nat) (xs : List F64),
    (manDecode nan k xs).length = xs.length / 2
  | _, [] => by simp [manDecode]
  | _, [_] => by simp [manDecode]
  | k, a :: c :: xs => by
    simp only [manDecode, List.length_cons, manDecode_length nan (k + 1) xs]; omega

theorem manDecode_getElem? (nan : Config.NanSite → F64) (k : Nat) (xs : List F64) (j : Nat) {a c : F64}
    (ha : xs[2 * j]? = some a) (hc : xs[2 * j + 1]? = some c) :
    (manDecode nan k xs)[j]? = some (bitByte (manDecide nan (k + j) a c)) := by
  induction j generalizing k xs with
  | zero =>
    match xs, ha, hc with
    | x :: y :: xs, ha, hc =>
      simp only [List.getElem?_cons_zero, Option.some.injEq, Nat.mul_zero, Nat.zero_add, List.getElem?_cons_succ] at ha hc
      simp [manDecode, ha, hc]
    | [x], ha, hc => simp at hc
    | [], ha, hc => simp at ha
  | succ j ih =>
    match xs, ha, hc with
    | x :: y :: xs, ha, hc =>
      rw [show 2 * (j + 1) = 2 * j + 1 + 1 by omega, List.getElem?_cons_succ, List.getElem?_cons_succ] at ha
      rw [show 2 * (j + 1) + 1 = 2 * j + 1 + 1 + 1 by omega, List.getElem?_cons_succ, List.getElem?_cons_succ] at hc
      have := ih (k + 1) xs ha hc
      simpa [manDecode, show k + 1 + j = k + (j + 1) by omega] using this
    | [x], ha, hc => simp at hc
    | [], ha, hc => simp at ha

/-! QPSK (43_qpsk.md). -/

@[simp] theorem qpskMap_length (S : F64) : ∀ bs : List Byte, (qpskMap S bs).length = bs.length / 2
  | [] => by simp [qpskMap]
  | [_] => by simp [qpskMap]
  | a :: c :: bs => by
    simp only [qpskMap, List.length_cons, qpskMap_length S bs]; omega

theorem qpskMap_getElem? (S : F64) (bs : List Byte) (j : Nat) {b0 b1 : Byte}
    (h0 : bs[2 * j]? = some b0) (h1 : bs[2 * j + 1]? = some b1) : (qpskMap S bs)[j]? = some (qpskSymbol S b0 b1) := by
  induction j generalizing bs with
  | zero =>
    match bs, h0, h1 with
    | x :: y :: bs, h0, h1 =>
      simp only [List.getElem?_cons_zero, Option.some.injEq, Nat.mul_zero, Nat.zero_add, List.getElem?_cons_succ] at h0 h1
      simp [qpskMap, h0, h1]
    | [x], h0, h1 => simp at h1
    | [], h0, h1 => simp at h0
  | succ j ih =>
    match bs, h0, h1 with
    | x :: y :: bs, h0, h1 =>
      rw [show 2 * (j + 1) = 2 * j + 1 + 1 by omega, List.getElem?_cons_succ, List.getElem?_cons_succ] at h0
      rw [show 2 * (j + 1) + 1 = 2 * j + 1 + 1 + 1 by omega, List.getElem?_cons_succ, List.getElem?_cons_succ] at h1
      simpa [qpskMap] using ih bs h0 h1
    | [x], h0, h1 => simp at h1
    | [], h0, h1 => simp at h0

/-- The symbol by its two signs: `im` by the first bit, `re` by the second (43_qpsk.md R141). -/
theorem qpskSymbol_eq (S : F64) (b0 b1 : Byte) :
    qpskSymbol S b0 b1 = (if b1 = 1 then negate S else S, if b0 = 1 then negate S else S) := by
  unfold qpskSymbol
  by_cases h0 : b0 = 1#8 <;> by_cases h1 : b1 = 1#8 <;> simp [h0, h1]

/-- The bits by the two signs: the first by `im`, the second by `re` (43_qpsk.md R142). -/
theorem qpskSlice_eq (z : F64 × F64) : qpskSlice z = [bitByte (flt z.2 plusZero), bitByte (flt z.1 plusZero)] := by
  unfold qpskSlice
  cases flt z.1 plusZero <;> cases flt z.2 plusZero <;> rfl

theorem qpskSlice_length (z : F64 × F64) : (qpskSlice z).length = 2 := by rw [qpskSlice_eq]; rfl

theorem qpskSlices_getElem? (zs : List (F64 × F64)) (i : Nat) :
    (zs.flatMap qpskSlice)[2 * i]? = (zs[i]?).map (fun z => bitByte (flt z.2 plusZero)) ∧
    (zs.flatMap qpskSlice)[2 * i + 1]? = (zs[i]?).map (fun z => bitByte (flt z.1 plusZero)) := by
  have h0 := getElem?_flatMap_const qpskSlice 2 qpskSlice_length zs i 0 (by omega)
  have h1 := getElem?_flatMap_const qpskSlice 2 qpskSlice_length zs i 1 (by omega)
  rw [Nat.add_zero] at h0
  rw [h0, h1]
  cases zs[i]? <;> simp [qpskSlice_eq]

/-! AWGN (44_awgn.md). -/

theorem addNoiseReal_getElem? (nan : Config.NanSite → F64) (sigma : F64) (z : Nat → F64) (i : Nat) (xs : List F64) (j : Nat) :
    (addNoiseReal nan sigma z i xs)[j]? =
      (xs[j]?).map fun x => fadd (nan (.add (i + j))) x (fmul (nan (.scale (i + j))) sigma (z (i + j))) := by
  induction xs generalizing i j with
  | nil => simp [addNoiseReal]
  | cons x xs ih =>
    cases j with
    | zero => simp [addNoiseReal]
    | succ j => simp [addNoiseReal, ih, show i + 1 + j = i + (j + 1) by omega]

@[simp] theorem addNoiseReal_length (nan : Config.NanSite → F64) (sigma : F64) (z : Nat → F64) (i : Nat) (xs : List F64) :
    (addNoiseReal nan sigma z i xs).length = xs.length := by
  induction xs generalizing i with
  | nil => rfl
  | cons x xs ih => simp [addNoiseReal, ih]

@[simp] theorem channelReal_length (nan : Config.NanSite → F64) (snr : F64) (z : Nat → F64) (xs : List F64) :
    (channelReal nan snr z xs).length = xs.length := by
  unfold channelReal; split <;> simp_all

theorem channelReal_getElem? (nan : Config.NanSite → F64) (snr : F64) (z : Nat → F64) (xs : List F64) (j : Nat) :
    (channelReal nan snr z xs)[j]? =
      (xs[j]?).map fun x => fadd (nan (.add j)) x (fmul (nan (.scale j)) (sigmaReal nan snr xs) (z j)) := by
  unfold channelReal
  split
  · rename_i h; simp [h]
  · rw [addNoiseReal_getElem?]; simp

theorem addNoiseCplx_getElem? (nan : Config.NanSite → F64) (sigma : F64) (z : Nat → F64) (i : Nat) (xs : List (F64 × F64))
    (j : Nat) : (addNoiseCplx nan sigma z i xs)[j]? =
      (xs[j]?).map fun x => (fadd (nan (.add (i + j))) x.1 (fmul (nan (.scale (i + j))) sigma (z (2 * (i + j)))),
        fadd (nan (.addIm (i + j))) x.2 (fmul (nan (.scaleIm (i + j))) sigma (z (2 * (i + j) + 1)))) := by
  induction xs generalizing i j with
  | nil => simp [addNoiseCplx]
  | cons x xs ih =>
    cases j with
    | zero => simp [addNoiseCplx]
    | succ j => simp [addNoiseCplx, ih, show i + 1 + j = i + (j + 1) by omega]

@[simp] theorem addNoiseCplx_length (nan : Config.NanSite → F64) (sigma : F64) (z : Nat → F64) (i : Nat)
    (xs : List (F64 × F64)) : (addNoiseCplx nan sigma z i xs).length = xs.length := by
  induction xs generalizing i with
  | nil => rfl
  | cons x xs ih => simp [addNoiseCplx, ih]

@[simp] theorem channelCplx_length (nan : Config.NanSite → F64) (snr : F64) (z : Nat → F64) (xs : List (F64 × F64)) :
    (channelCplx nan snr z xs).length = xs.length := by
  unfold channelCplx; split <;> simp_all

theorem channelCplx_getElem? (nan : Config.NanSite → F64) (snr : F64) (z : Nat → F64) (xs : List (F64 × F64)) (j : Nat) :
    (channelCplx nan snr z xs)[j]? =
      (xs[j]?).map fun x => (fadd (nan (.add j)) x.1 (fmul (nan (.scale j)) (sigmaCplx nan snr xs) (z (2 * j))),
        fadd (nan (.addIm j)) x.2 (fmul (nan (.scaleIm j)) (sigmaCplx nan snr xs) (z (2 * j + 1)))) := by
  unfold channelCplx
  split
  · rename_i h; simp [h]
  · rw [addNoiseCplx_getElem?]; simp

end Sys2Proof.Machine
end

