-- ==== Sys2Proof/Laws/Float.lean ====
section
/-! SUPPORT. Small laws of the binary64 primitives: NaNs propagate, comparisons with a NaN are false, and the constants are what they
are. -/
namespace Sys2Proof.Machine

/-- A propagated NaN is a NaN, whatever its free payload. -/
@[simp] theorem isNaN_quietNaN (p : F64) : isNaN (quietNaN p) = true := by
  have he : (quietNaN p).extractLsb' 52 11 = 2047#11 := by
    apply BitVec.eq_of_getLsbD_eq
    intro i hi
    have : (2047#11).getLsbD i = true := by
      revert i; decide
    rw [this]
    have hd : defaultNaN.getLsbD (52 + i) = true := by revert i; decide
    simp [quietNaN, hi, hd]
  have hf : ((quietNaN p).extractLsb' 0 52).getLsbD 51 = true := by
    simp [quietNaN, defaultNaN]
  have hf' : (quietNaN p).extractLsb' 0 52 ≠ 0 := by
    intro h; rw [h] at hf; simp at hf
  simp only [isNaN, exponentField, fractionField, he, Bool.and_eq_true, decide_eq_true_eq]
  refine ⟨rfl, decide_eq_true fun h => hf' ?_⟩
  exact BitVec.eq_of_toNat_eq (by simpa using h)

/-- A propagated NaN is quiet. -/
theorem quietNaN_quiet (p : F64) : (quietNaN p).getLsbD 51 = true := by simp [quietNaN, defaultNaN]

/-- Every quiet NaN is the one nearest to itself. -/
theorem quietNaN_self {y : F64} (h : isNaN y = true) (hq : y.getLsbD 51 = true) : quietNaN y = y := by
  have he : y.extractLsb' 52 11 = 2047#11 := by
    simp only [isNaN, exponentField, Bool.and_eq_true, decide_eq_true_eq] at h
    exact BitVec.eq_of_toNat_eq (of_decide_eq_true h.1)
  apply BitVec.eq_of_getLsbD_eq
  intro i hi
  have hd : ∀ i, i < 64 → defaultNaN.getLsbD i = decide (51 ≤ i ∧ i < 63) := by decide
  rw [quietNaN, BitVec.getLsbD_or, hd i hi]
  by_cases h1 : 51 ≤ i ∧ i < 63
  · have : y.getLsbD i = true := by
      rcases Nat.lt_or_ge i 52 with h2 | h2
      · rw [show i = 51 by omega]; exact hq
      · have h3 := congrArg (fun v => v.getLsbD (i - 52)) he
        simp only [BitVec.getLsbD_extractLsb'] at h3
        rw [show 52 + (i - 52) = i by omega] at h3
        have h4 : ∀ j, j < 11 → (2047#11).getLsbD j = true := by decide
        rw [h4 (i - 52) (by omega)] at h3
        simpa [show i - 52 < 11 by omega] using h3
    rw [this]; rfl
  · simp [h1]

theorem fadd_nan_left {a : F64} (q b : F64) (h : isNaN a = true) : fadd q a b = quietNaN q := by simp [fadd, h]
theorem fadd_nan_right {b : F64} (q a : F64) (h : isNaN b = true) : fadd q a b = quietNaN q := by simp [fadd, h]
theorem fmul_nan_left {a : F64} (q b : F64) (h : isNaN a = true) : fmul q a b = quietNaN q := by simp [fmul, h]
theorem fmul_nan_right {b : F64} (q a : F64) (h : isNaN b = true) : fmul q a b = quietNaN q := by simp [fmul, h]
theorem fdiv_nan_left {a : F64} (q b : F64) (h : isNaN a = true) : fdiv q a b = quietNaN q := by simp [fdiv, h]
theorem fdiv_nan_right {b : F64} (q a : F64) (h : isNaN b = true) : fdiv q a b = quietNaN q := by simp [fdiv, h]
theorem fsqrt_nan {a : F64} (q : F64) (h : isNaN a = true) : fsqrt q a = quietNaN q := by simp [fsqrt, h]

@[simp] theorem fgt_nan_left {a : F64} (b : F64) (h : isNaN a = true) : fgt a b = false := by simp [fgt, flt, h]
@[simp] theorem flt_nan_left {a : F64} (b : F64) (h : isNaN a = true) : flt a b = false := by simp [flt, h]

/-- Where no operand is a NaN, a sum does not depend on the free payload. -/
theorem fadd_free {a b : F64} (q q' : F64) (ha : isNaN a = false) (hb : isNaN b = false) : fadd q a b = fadd q' a b := by
  simp [fadd, ha, hb]

theorem fdiv_free {a b : F64} (q q' : F64) (ha : isNaN a = false) (hb : isNaN b = false) : fdiv q a b = fdiv q' a b := by
  simp [fdiv, ha, hb]

/-- Flipping the sign bit twice is nothing. -/
@[simp] theorem negate_negate (x : F64) : negate (negate x) = x := by simp [negate]

/-- The noise source answers finite values only (44_awgn.md R151). -/
theorem noise_of_finite {seed index : BitVec 64} (h : isFinite (Config.noise seed index) = true) :
    noise seed index = Config.noise seed index := by simp [noise, h]

end Sys2Proof.Machine
end

