-- ==== Sys2Proof/Laws/State.lean ====
section
/-! SUPPORT. What each named update of the state makes of each field: one lemma per field per update. -/
namespace Sys2Proof.Machine

variable (s : State)

/-! `State.storeCommand` -/

@[simp] theorem State.storeCommand_cfg (op : BitVec 4) (irqEn : Bool) : (s.storeCommand op irqEn).cfg = s.cfg := rfl
@[simp] theorem State.storeCommand_op (op : BitVec 4) (irqEn : Bool) : (s.storeCommand op irqEn).op = op := rfl
@[simp] theorem State.storeCommand_irqEn (op : BitVec 4) (irqEn : Bool) : (s.storeCommand op irqEn).irqEn = irqEn := rfl
@[simp] theorem State.storeCommand_phase (op : BitVec 4) (irqEn : Bool) : (s.storeCommand op irqEn).phase = s.phase := rfl
@[simp] theorem State.storeCommand_done (op : BitVec 4) (irqEn : Bool) : (s.storeCommand op irqEn).done = s.done := rfl
@[simp] theorem State.storeCommand_err (op : BitVec 4) (irqEn : Bool) : (s.storeCommand op irqEn).err = s.err := rfl
@[simp] theorem State.storeCommand_inLen (op : BitVec 4) (irqEn : Bool) : (s.storeCommand op irqEn).inLen = s.inLen := rfl
@[simp] theorem State.storeCommand_outLen (op : BitVec 4) (irqEn : Bool) : (s.storeCommand op irqEn).outLen = s.outLen := rfl
@[simp] theorem State.storeCommand_errInfo (op : BitVec 4) (irqEn : Bool) : (s.storeCommand op irqEn).errInfo = s.errInfo := rfl
@[simp] theorem State.storeCommand_snrLo (op : BitVec 4) (irqEn : Bool) : (s.storeCommand op irqEn).snrLo = s.snrLo := rfl
@[simp] theorem State.storeCommand_snrHi (op : BitVec 4) (irqEn : Bool) : (s.storeCommand op irqEn).snrHi = s.snrHi := rfl
@[simp] theorem State.storeCommand_seedLo (op : BitVec 4) (irqEn : Bool) : (s.storeCommand op irqEn).seedLo = s.seedLo := rfl
@[simp] theorem State.storeCommand_seedHi (op : BitVec 4) (irqEn : Bool) : (s.storeCommand op irqEn).seedHi = s.seedHi := rfl
@[simp] theorem State.storeCommand_drawCnt (op : BitVec 4) (irqEn : Bool) : (s.storeCommand op irqEn).drawCnt = s.drawCnt := rfl
@[simp] theorem State.storeCommand_ibuf (op : BitVec 4) (irqEn : Bool) : (s.storeCommand op irqEn).ibuf = s.ibuf := rfl
@[simp] theorem State.storeCommand_obuf (op : BitVec 4) (irqEn : Bool) : (s.storeCommand op irqEn).obuf = s.obuf := rfl
@[simp] theorem State.storeCommand_held (op : BitVec 4) (irqEn : Bool) : (s.storeCommand op irqEn).held = s.held := rfl
@[simp] theorem State.storeCommand_answer (op : BitVec 4) (irqEn : Bool) : (s.storeCommand op irqEn).answer = s.answer := rfl
@[simp] theorem State.storeCommand_agenda (op : BitVec 4) (irqEn : Bool) : (s.storeCommand op irqEn).agenda = s.agenda := rfl
@[simp] theorem State.storeCommand_epoch (op : BitVec 4) (irqEn : Bool) : (s.storeCommand op irqEn).epoch = s.epoch := rfl
@[simp] theorem State.storeCommand_freeCnt (op : BitVec 4) (irqEn : Bool) : (s.storeCommand op irqEn).freeCnt = s.freeCnt := rfl

/-! `State.start` -/

@[simp] theorem State.start_cfg (op : BitVec 4) (irqEn : Bool) : (s.start op irqEn).cfg = s.cfg := rfl
@[simp] theorem State.start_op (op : BitVec 4) (irqEn : Bool) : (s.start op irqEn).op = op := rfl
@[simp] theorem State.start_irqEn (op : BitVec 4) (irqEn : Bool) : (s.start op irqEn).irqEn = irqEn := rfl
@[simp] theorem State.start_phase (op : BitVec 4) (irqEn : Bool) : (s.start op irqEn).phase = .busy := rfl
@[simp] theorem State.start_done (op : BitVec 4) (irqEn : Bool) : (s.start op irqEn).done = false := rfl
@[simp] theorem State.start_err (op : BitVec 4) (irqEn : Bool) : (s.start op irqEn).err = .none := rfl
@[simp] theorem State.start_inLen (op : BitVec 4) (irqEn : Bool) : (s.start op irqEn).inLen = s.inLen := rfl
@[simp] theorem State.start_outLen (op : BitVec 4) (irqEn : Bool) : (s.start op irqEn).outLen = s.outLen := rfl
@[simp] theorem State.start_errInfo (op : BitVec 4) (irqEn : Bool) : (s.start op irqEn).errInfo = s.errInfo := rfl
@[simp] theorem State.start_snrLo (op : BitVec 4) (irqEn : Bool) : (s.start op irqEn).snrLo = s.snrLo := rfl
@[simp] theorem State.start_snrHi (op : BitVec 4) (irqEn : Bool) : (s.start op irqEn).snrHi = s.snrHi := rfl
@[simp] theorem State.start_seedLo (op : BitVec 4) (irqEn : Bool) : (s.start op irqEn).seedLo = s.seedLo := rfl
@[simp] theorem State.start_seedHi (op : BitVec 4) (irqEn : Bool) : (s.start op irqEn).seedHi = s.seedHi := rfl
@[simp] theorem State.start_drawCnt (op : BitVec 4) (irqEn : Bool) : (s.start op irqEn).drawCnt = s.drawCnt := rfl
@[simp] theorem State.start_ibuf (op : BitVec 4) (irqEn : Bool) : (s.start op irqEn).ibuf = s.ibuf := rfl
@[simp] theorem State.start_obuf (op : BitVec 4) (irqEn : Bool) : (s.start op irqEn).obuf = s.obuf := rfl
@[simp] theorem State.start_held (op : BitVec 4) (irqEn : Bool) : (s.start op irqEn).held = s.held := rfl
@[simp] theorem State.start_answer (op : BitVec 4) (irqEn : Bool) : (s.start op irqEn).answer = s.answer := rfl
@[simp] theorem State.start_agenda (op : BitVec 4) (irqEn : Bool) : (s.start op irqEn).agenda = s.agenda := rfl
@[simp] theorem State.start_epoch (op : BitVec 4) (irqEn : Bool) : (s.start op irqEn).epoch = s.epoch := rfl
@[simp] theorem State.start_freeCnt (op : BitVec 4) (irqEn : Bool) : (s.start op irqEn).freeCnt = s.freeCnt := rfl

/-! `State.complete` -/

@[simp] theorem State.complete_cfg (m : Nat) : (s.complete m).cfg = s.cfg := rfl
@[simp] theorem State.complete_op (m : Nat) : (s.complete m).op = s.op := rfl
@[simp] theorem State.complete_irqEn (m : Nat) : (s.complete m).irqEn = s.irqEn := rfl
@[simp] theorem State.complete_phase (m : Nat) : (s.complete m).phase = .idle := rfl
@[simp] theorem State.complete_done (m : Nat) : (s.complete m).done = true := rfl
@[simp] theorem State.complete_err (m : Nat) : (s.complete m).err = .none := rfl
@[simp] theorem State.complete_inLen (m : Nat) : (s.complete m).inLen = s.inLen := rfl
@[simp] theorem State.complete_outLen (m : Nat) : (s.complete m).outLen = BitVec.ofNat 32 m := rfl
@[simp] theorem State.complete_errInfo (m : Nat) : (s.complete m).errInfo = 0 := rfl
@[simp] theorem State.complete_snrLo (m : Nat) : (s.complete m).snrLo = s.snrLo := rfl
@[simp] theorem State.complete_snrHi (m : Nat) : (s.complete m).snrHi = s.snrHi := rfl
@[simp] theorem State.complete_seedLo (m : Nat) : (s.complete m).seedLo = s.seedLo := rfl
@[simp] theorem State.complete_seedHi (m : Nat) : (s.complete m).seedHi = s.seedHi := rfl
@[simp] theorem State.complete_drawCnt (m : Nat) : (s.complete m).drawCnt = s.drawCnt := rfl
@[simp] theorem State.complete_ibuf (m : Nat) : (s.complete m).ibuf = s.ibuf := rfl
@[simp] theorem State.complete_obuf (m : Nat) : (s.complete m).obuf = s.obuf := rfl
@[simp] theorem State.complete_held (m : Nat) : (s.complete m).held = s.held := rfl
@[simp] theorem State.complete_answer (m : Nat) : (s.complete m).answer = s.answer := rfl
@[simp] theorem State.complete_agenda (m : Nat) : (s.complete m).agenda = s.agenda := rfl
@[simp] theorem State.complete_epoch (m : Nat) : (s.complete m).epoch = s.epoch := rfl
@[simp] theorem State.complete_freeCnt (m : Nat) : (s.complete m).freeCnt = s.freeCnt := rfl

/-! `State.raiseError` -/

@[simp] theorem State.raiseError_cfg (code : ErrorCode) (info : Word) : (s.raiseError code info).cfg = s.cfg := rfl
@[simp] theorem State.raiseError_op (code : ErrorCode) (info : Word) : (s.raiseError code info).op = s.op := rfl
@[simp] theorem State.raiseError_irqEn (code : ErrorCode) (info : Word) : (s.raiseError code info).irqEn = s.irqEn := rfl
@[simp] theorem State.raiseError_phase (code : ErrorCode) (info : Word) : (s.raiseError code info).phase = .idle := rfl
@[simp] theorem State.raiseError_done (code : ErrorCode) (info : Word) : (s.raiseError code info).done = true := rfl
@[simp] theorem State.raiseError_err (code : ErrorCode) (info : Word) : (s.raiseError code info).err = code := rfl
@[simp] theorem State.raiseError_inLen (code : ErrorCode) (info : Word) : (s.raiseError code info).inLen = s.inLen := rfl
@[simp] theorem State.raiseError_outLen (code : ErrorCode) (info : Word) : (s.raiseError code info).outLen = 0 := rfl
@[simp] theorem State.raiseError_errInfo (code : ErrorCode) (info : Word) : (s.raiseError code info).errInfo = info := rfl
@[simp] theorem State.raiseError_snrLo (code : ErrorCode) (info : Word) : (s.raiseError code info).snrLo = s.snrLo := rfl
@[simp] theorem State.raiseError_snrHi (code : ErrorCode) (info : Word) : (s.raiseError code info).snrHi = s.snrHi := rfl
@[simp] theorem State.raiseError_seedLo (code : ErrorCode) (info : Word) : (s.raiseError code info).seedLo = s.seedLo := rfl
@[simp] theorem State.raiseError_seedHi (code : ErrorCode) (info : Word) : (s.raiseError code info).seedHi = s.seedHi := rfl
@[simp] theorem State.raiseError_drawCnt (code : ErrorCode) (info : Word) : (s.raiseError code info).drawCnt = s.drawCnt := rfl
@[simp] theorem State.raiseError_ibuf (code : ErrorCode) (info : Word) : (s.raiseError code info).ibuf = s.ibuf := rfl
@[simp] theorem State.raiseError_obuf (code : ErrorCode) (info : Word) : (s.raiseError code info).obuf = s.obuf := rfl
@[simp] theorem State.raiseError_held (code : ErrorCode) (info : Word) : (s.raiseError code info).held = s.held := rfl
@[simp] theorem State.raiseError_answer (code : ErrorCode) (info : Word) : (s.raiseError code info).answer = s.answer := rfl
@[simp] theorem State.raiseError_agenda (code : ErrorCode) (info : Word) : (s.raiseError code info).agenda = s.agenda := rfl
@[simp] theorem State.raiseError_epoch (code : ErrorCode) (info : Word) : (s.raiseError code info).epoch = s.epoch := rfl
@[simp] theorem State.raiseError_freeCnt (code : ErrorCode) (info : Word) : (s.raiseError code info).freeCnt = s.freeCnt := rfl

/-! `State.clearDone` -/

@[simp] theorem State.clearDone_cfg : s.clearDone.cfg = s.cfg := rfl
@[simp] theorem State.clearDone_op : s.clearDone.op = s.op := rfl
@[simp] theorem State.clearDone_irqEn : s.clearDone.irqEn = s.irqEn := rfl
@[simp] theorem State.clearDone_phase : s.clearDone.phase = s.phase := rfl
@[simp] theorem State.clearDone_done : s.clearDone.done = false := rfl
@[simp] theorem State.clearDone_err : s.clearDone.err = s.err := rfl
@[simp] theorem State.clearDone_inLen : s.clearDone.inLen = s.inLen := rfl
@[simp] theorem State.clearDone_outLen : s.clearDone.outLen = s.outLen := rfl
@[simp] theorem State.clearDone_errInfo : s.clearDone.errInfo = s.errInfo := rfl
@[simp] theorem State.clearDone_snrLo : s.clearDone.snrLo = s.snrLo := rfl
@[simp] theorem State.clearDone_snrHi : s.clearDone.snrHi = s.snrHi := rfl
@[simp] theorem State.clearDone_seedLo : s.clearDone.seedLo = s.seedLo := rfl
@[simp] theorem State.clearDone_seedHi : s.clearDone.seedHi = s.seedHi := rfl
@[simp] theorem State.clearDone_drawCnt : s.clearDone.drawCnt = s.drawCnt := rfl
@[simp] theorem State.clearDone_ibuf : s.clearDone.ibuf = s.ibuf := rfl
@[simp] theorem State.clearDone_obuf : s.clearDone.obuf = s.obuf := rfl
@[simp] theorem State.clearDone_held : s.clearDone.held = s.held := rfl
@[simp] theorem State.clearDone_answer : s.clearDone.answer = s.answer := rfl
@[simp] theorem State.clearDone_agenda : s.clearDone.agenda = s.agenda := rfl
@[simp] theorem State.clearDone_epoch : s.clearDone.epoch = s.epoch := rfl
@[simp] theorem State.clearDone_freeCnt : s.clearDone.freeCnt = s.freeCnt := rfl

/-! `State.writeOutput` -/

@[simp] theorem State.writeOutput_cfg (bytes : List Byte) : (s.writeOutput bytes).cfg = s.cfg := rfl
@[simp] theorem State.writeOutput_op (bytes : List Byte) : (s.writeOutput bytes).op = s.op := rfl
@[simp] theorem State.writeOutput_irqEn (bytes : List Byte) : (s.writeOutput bytes).irqEn = s.irqEn := rfl
@[simp] theorem State.writeOutput_phase (bytes : List Byte) : (s.writeOutput bytes).phase = s.phase := rfl
@[simp] theorem State.writeOutput_done (bytes : List Byte) : (s.writeOutput bytes).done = s.done := rfl
@[simp] theorem State.writeOutput_err (bytes : List Byte) : (s.writeOutput bytes).err = s.err := rfl
@[simp] theorem State.writeOutput_inLen (bytes : List Byte) : (s.writeOutput bytes).inLen = s.inLen := rfl
@[simp] theorem State.writeOutput_outLen (bytes : List Byte) : (s.writeOutput bytes).outLen = s.outLen := rfl
@[simp] theorem State.writeOutput_errInfo (bytes : List Byte) : (s.writeOutput bytes).errInfo = s.errInfo := rfl
@[simp] theorem State.writeOutput_snrLo (bytes : List Byte) : (s.writeOutput bytes).snrLo = s.snrLo := rfl
@[simp] theorem State.writeOutput_snrHi (bytes : List Byte) : (s.writeOutput bytes).snrHi = s.snrHi := rfl
@[simp] theorem State.writeOutput_seedLo (bytes : List Byte) : (s.writeOutput bytes).seedLo = s.seedLo := rfl
@[simp] theorem State.writeOutput_seedHi (bytes : List Byte) : (s.writeOutput bytes).seedHi = s.seedHi := rfl
@[simp] theorem State.writeOutput_drawCnt (bytes : List Byte) : (s.writeOutput bytes).drawCnt = s.drawCnt := rfl
@[simp] theorem State.writeOutput_ibuf (bytes : List Byte) : (s.writeOutput bytes).ibuf = s.ibuf := rfl
@[simp] theorem State.writeOutput_obuf (bytes : List Byte) : (s.writeOutput bytes).obuf = Memory.writeList s.obuf 0 bytes := rfl
@[simp] theorem State.writeOutput_held (bytes : List Byte) : (s.writeOutput bytes).held = s.held := rfl
@[simp] theorem State.writeOutput_answer (bytes : List Byte) : (s.writeOutput bytes).answer = s.answer := rfl
@[simp] theorem State.writeOutput_agenda (bytes : List Byte) : (s.writeOutput bytes).agenda = s.agenda := rfl
@[simp] theorem State.writeOutput_epoch (bytes : List Byte) : (s.writeOutput bytes).epoch = s.epoch := rfl
@[simp] theorem State.writeOutput_freeCnt (bytes : List Byte) : (s.writeOutput bytes).freeCnt = s.freeCnt := rfl

/-! `State.advanceDraws` -/

@[simp] theorem State.advanceDraws_cfg (k : Nat) : (s.advanceDraws k).cfg = s.cfg := rfl
@[simp] theorem State.advanceDraws_op (k : Nat) : (s.advanceDraws k).op = s.op := rfl
@[simp] theorem State.advanceDraws_irqEn (k : Nat) : (s.advanceDraws k).irqEn = s.irqEn := rfl
@[simp] theorem State.advanceDraws_phase (k : Nat) : (s.advanceDraws k).phase = s.phase := rfl
@[simp] theorem State.advanceDraws_done (k : Nat) : (s.advanceDraws k).done = s.done := rfl
@[simp] theorem State.advanceDraws_err (k : Nat) : (s.advanceDraws k).err = s.err := rfl
@[simp] theorem State.advanceDraws_inLen (k : Nat) : (s.advanceDraws k).inLen = s.inLen := rfl
@[simp] theorem State.advanceDraws_outLen (k : Nat) : (s.advanceDraws k).outLen = s.outLen := rfl
@[simp] theorem State.advanceDraws_errInfo (k : Nat) : (s.advanceDraws k).errInfo = s.errInfo := rfl
@[simp] theorem State.advanceDraws_snrLo (k : Nat) : (s.advanceDraws k).snrLo = s.snrLo := rfl
@[simp] theorem State.advanceDraws_snrHi (k : Nat) : (s.advanceDraws k).snrHi = s.snrHi := rfl
@[simp] theorem State.advanceDraws_seedLo (k : Nat) : (s.advanceDraws k).seedLo = s.seedLo := rfl
@[simp] theorem State.advanceDraws_seedHi (k : Nat) : (s.advanceDraws k).seedHi = s.seedHi := rfl
@[simp] theorem State.advanceDraws_drawCnt (k : Nat) : (s.advanceDraws k).drawCnt = s.drawCnt + BitVec.ofNat 64 k := rfl
@[simp] theorem State.advanceDraws_ibuf (k : Nat) : (s.advanceDraws k).ibuf = s.ibuf := rfl
@[simp] theorem State.advanceDraws_obuf (k : Nat) : (s.advanceDraws k).obuf = s.obuf := rfl
@[simp] theorem State.advanceDraws_held (k : Nat) : (s.advanceDraws k).held = s.held := rfl
@[simp] theorem State.advanceDraws_answer (k : Nat) : (s.advanceDraws k).answer = s.answer := rfl
@[simp] theorem State.advanceDraws_agenda (k : Nat) : (s.advanceDraws k).agenda = s.agenda := rfl
@[simp] theorem State.advanceDraws_epoch (k : Nat) : (s.advanceDraws k).epoch = s.epoch := rfl
@[simp] theorem State.advanceDraws_freeCnt (k : Nat) : (s.advanceDraws k).freeCnt = s.freeCnt := rfl

/-! `State.nextFree` -/

@[simp] theorem State.nextFree_cfg : s.nextFree.cfg = s.cfg := rfl
@[simp] theorem State.nextFree_op : s.nextFree.op = s.op := rfl
@[simp] theorem State.nextFree_irqEn : s.nextFree.irqEn = s.irqEn := rfl
@[simp] theorem State.nextFree_phase : s.nextFree.phase = s.phase := rfl
@[simp] theorem State.nextFree_done : s.nextFree.done = s.done := rfl
@[simp] theorem State.nextFree_err : s.nextFree.err = s.err := rfl
@[simp] theorem State.nextFree_inLen : s.nextFree.inLen = s.inLen := rfl
@[simp] theorem State.nextFree_outLen : s.nextFree.outLen = s.outLen := rfl
@[simp] theorem State.nextFree_errInfo : s.nextFree.errInfo = s.errInfo := rfl
@[simp] theorem State.nextFree_snrLo : s.nextFree.snrLo = s.snrLo := rfl
@[simp] theorem State.nextFree_snrHi : s.nextFree.snrHi = s.snrHi := rfl
@[simp] theorem State.nextFree_seedLo : s.nextFree.seedLo = s.seedLo := rfl
@[simp] theorem State.nextFree_seedHi : s.nextFree.seedHi = s.seedHi := rfl
@[simp] theorem State.nextFree_drawCnt : s.nextFree.drawCnt = s.drawCnt := rfl
@[simp] theorem State.nextFree_ibuf : s.nextFree.ibuf = s.ibuf := rfl
@[simp] theorem State.nextFree_obuf : s.nextFree.obuf = s.obuf := rfl
@[simp] theorem State.nextFree_held : s.nextFree.held = s.held := rfl
@[simp] theorem State.nextFree_answer : s.nextFree.answer = s.answer := rfl
@[simp] theorem State.nextFree_agenda : s.nextFree.agenda = s.agenda := rfl
@[simp] theorem State.nextFree_epoch : s.nextFree.epoch = s.epoch := rfl
@[simp] theorem State.nextFree_freeCnt : s.nextFree.freeCnt = s.freeCnt + 1 := rfl

/-! `State.turn` -/

@[simp] theorem State.turn_cfg (rest : List Event) : (s.turn rest).cfg = s.cfg := rfl
@[simp] theorem State.turn_op (rest : List Event) : (s.turn rest).op = s.op := rfl
@[simp] theorem State.turn_irqEn (rest : List Event) : (s.turn rest).irqEn = s.irqEn := rfl
@[simp] theorem State.turn_phase (rest : List Event) : (s.turn rest).phase = s.phase := rfl
@[simp] theorem State.turn_done (rest : List Event) : (s.turn rest).done = s.done := rfl
@[simp] theorem State.turn_err (rest : List Event) : (s.turn rest).err = s.err := rfl
@[simp] theorem State.turn_inLen (rest : List Event) : (s.turn rest).inLen = s.inLen := rfl
@[simp] theorem State.turn_outLen (rest : List Event) : (s.turn rest).outLen = s.outLen := rfl
@[simp] theorem State.turn_errInfo (rest : List Event) : (s.turn rest).errInfo = s.errInfo := rfl
@[simp] theorem State.turn_snrLo (rest : List Event) : (s.turn rest).snrLo = s.snrLo := rfl
@[simp] theorem State.turn_snrHi (rest : List Event) : (s.turn rest).snrHi = s.snrHi := rfl
@[simp] theorem State.turn_seedLo (rest : List Event) : (s.turn rest).seedLo = s.seedLo := rfl
@[simp] theorem State.turn_seedHi (rest : List Event) : (s.turn rest).seedHi = s.seedHi := rfl
@[simp] theorem State.turn_drawCnt (rest : List Event) : (s.turn rest).drawCnt = s.drawCnt := rfl
@[simp] theorem State.turn_ibuf (rest : List Event) : (s.turn rest).ibuf = s.ibuf := rfl
@[simp] theorem State.turn_obuf (rest : List Event) : (s.turn rest).obuf = s.obuf := rfl
@[simp] theorem State.turn_held (rest : List Event) : (s.turn rest).held = s.held := rfl
@[simp] theorem State.turn_answer (rest : List Event) : (s.turn rest).answer = none := rfl
@[simp] theorem State.turn_agenda (rest : List Event) : (s.turn rest).agenda = rest := rfl
@[simp] theorem State.turn_epoch (rest : List Event) : (s.turn rest).epoch = s.epoch := rfl
@[simp] theorem State.turn_freeCnt (rest : List Event) : (s.turn rest).freeCnt = s.freeCnt := rfl

/-! `State.resetTo` -/

@[simp] theorem State.resetTo_cfg (rest : List Event) : (s.resetTo rest).cfg = s.cfg := rfl
@[simp] theorem State.resetTo_op (rest : List Event) : (s.resetTo rest).op = 0 := rfl
@[simp] theorem State.resetTo_irqEn (rest : List Event) : (s.resetTo rest).irqEn = false := rfl
@[simp] theorem State.resetTo_phase (rest : List Event) : (s.resetTo rest).phase = .idle := rfl
@[simp] theorem State.resetTo_done (rest : List Event) : (s.resetTo rest).done = false := rfl
@[simp] theorem State.resetTo_err (rest : List Event) : (s.resetTo rest).err = .none := rfl
@[simp] theorem State.resetTo_inLen (rest : List Event) : (s.resetTo rest).inLen = 0 := rfl
@[simp] theorem State.resetTo_outLen (rest : List Event) : (s.resetTo rest).outLen = 0 := rfl
@[simp] theorem State.resetTo_errInfo (rest : List Event) : (s.resetTo rest).errInfo = 0 := rfl
@[simp] theorem State.resetTo_snrLo (rest : List Event) : (s.resetTo rest).snrLo = 0 := rfl
@[simp] theorem State.resetTo_snrHi (rest : List Event) : (s.resetTo rest).snrHi = 0 := rfl
@[simp] theorem State.resetTo_seedLo (rest : List Event) : (s.resetTo rest).seedLo = 0 := rfl
@[simp] theorem State.resetTo_seedHi (rest : List Event) : (s.resetTo rest).seedHi = 0 := rfl
@[simp] theorem State.resetTo_drawCnt (rest : List Event) : (s.resetTo rest).drawCnt = 0 := rfl
@[simp] theorem State.resetTo_ibuf (rest : List Event) : (s.resetTo rest).ibuf = [] := rfl
@[simp] theorem State.resetTo_obuf (rest : List Event) : (s.resetTo rest).obuf = [] := rfl
@[simp] theorem State.resetTo_held (rest : List Event) : (s.resetTo rest).held = none := rfl
@[simp] theorem State.resetTo_answer (rest : List Event) : (s.resetTo rest).answer = none := rfl
@[simp] theorem State.resetTo_agenda (rest : List Event) : (s.resetTo rest).agenda = rest := rfl
@[simp] theorem State.resetTo_epoch (rest : List Event) : (s.resetTo rest).epoch = s.epoch + 1 := rfl
@[simp] theorem State.resetTo_freeCnt (rest : List Event) : (s.resetTo rest).freeCnt = s.freeCnt := rfl

/-! `State.start` made twice is made once, so an operation may repeat what the host's write has done. -/

@[simp] theorem State.start_start (op op' : BitVec 4) (q q' : Bool) : (s.start op q).start op' q' = s.start op' q' := rfl

@[simp] theorem State.start_snrDb (op : BitVec 4) (q : Bool) : (s.start op q).snrDb = s.snrDb := rfl

@[simp] theorem State.start_seed (op : BitVec 4) (q : Bool) : (s.start op q).seed = s.seed := rfl

end Sys2Proof.Machine
end

