-- ==== Sys2Proof/Laws/Operation.lean ====
section
/-! SUPPORT. What the shared skeleton of an operation can do: the verdict of its checks, and every outcome of `operate`. -/
namespace Sys2Proof.Machine

/-! `check` reads only `IN_LEN`, the parameters and IBUF (60_exceptions.md R174). -/

@[simp] theorem check_start (sh : Shape) (s : State) (op : BitVec 4) (q : Bool) : check sh (s.start op q) = check sh s := rfl

theorem check_capacityIn {sh : Shape} {s : State} (h : s.cfg.ibufBytes < s.inLen.toNat * elemSize sh.input) :
    check sh s = .error .capacity 0 := by
  simp [check, h]

theorem check_parity {sh : Shape} {s : State} {c : ErrorCode} (h : s.inLen.toNat * elemSize sh.input ≤ s.cfg.ibufBytes)
    (hp : sh.parity = some c) (hn : s.inLen.toNat % 2 = 1) : check sh s = .error c 0 := by
  simp [check, Nat.not_lt.mpr h, parityError, hn, hp]

theorem parityError_eq_none {sh : Shape} {n : Nat} (h : sh.parity = none ∨ n % 2 = 0) : parityError sh n = none := by
  unfold parityError
  rcases h with h | h
  · simp [h]
  · simp [h]

theorem check_capacityOut {sh : Shape} {s : State} (h : s.inLen.toNat * elemSize sh.input ≤ s.cfg.ibufBytes)
    (hp : sh.parity = none ∨ s.inLen.toNat % 2 = 0)
    (ho : s.cfg.obufBytes < sh.outLen s.inLen.toNat * elemSize sh.output) : check sh s = .error .capacity 1 := by
  simp [check, Nat.not_lt.mpr h, parityError_eq_none hp, ho]

/-- Past the length checks, the verdict is the bit check's, or pass where no bits are read. -/
theorem check_content {sh : Shape} {s : State} (h : s.inLen.toNat * elemSize sh.input ≤ s.cfg.ibufBytes)
    (hp : sh.parity = none ∨ s.inLen.toNat % 2 = 0)
    (ho : sh.outLen s.inLen.toNat * elemSize sh.output ≤ s.cfg.obufBytes) :
    check sh s = if sh.checksBits then scanBits s.ibuf 0 s.inLen.toNat else .pass := by
  simp [check, Nat.not_lt.mpr h, parityError_eq_none hp, Nat.not_lt.mpr ho]

/-- What a passed check has shown. -/
theorem check_eq_pass {sh : Shape} {s : State} (h : check sh s = .pass) :
    s.inLen.toNat * elemSize sh.input ≤ s.cfg.ibufBytes ∧ (sh.parity = none ∨ s.inLen.toNat % 2 = 0) ∧
    sh.outLen s.inLen.toNat * elemSize sh.output ≤ s.cfg.obufBytes ∧
    (sh.checksBits = true → scanBits s.ibuf 0 s.inLen.toNat = .pass) := by
  simp only [check] at h
  split at h
  · cases h
  · rename_i h1
    split at h
    · cases h
    · rename_i h2
      have hp : sh.parity = none ∨ s.inLen.toNat % 2 = 0 := by
        unfold parityError at h2
        by_cases hn : s.inLen.toNat % 2 = 1
        · rw [if_pos hn] at h2; exact .inl h2
        · exact .inr (by omega)
      split at h
      · cases h
      · rename_i h3
        refine ⟨by omega, hp, by omega, fun hb => ?_⟩
        rw [if_pos hb] at h; exact h

/-- The errors `check` can report. -/
theorem check_error {sh : Shape} {s : State} {c : ErrorCode} {info : Word} (h : check sh s = .error c info) :
    (c = .capacity ∧ (info = 0 ∨ info = 1)) ∨ (sh.parity = some c ∧ info = 0) ∨ (sh.checksBits = true ∧ c = .invalidBit) := by
  simp only [check] at h
  split at h
  · cases h; exact .inl ⟨rfl, .inl rfl⟩
  · split at h
    · rename_i h2
      cases h
      unfold parityError at h2
      split at h2
      · exact .inr (.inl ⟨h2, rfl⟩)
      · cases h2
    · split at h
      · cases h; exact .inl ⟨rfl, .inr rfl⟩
      · split at h
        · rename_i hb; exact .inr (.inr ⟨hb, scanBits_error h⟩)
        · cases h

/-- `check` stops only for a byte never written. -/
theorem check_stop {sh : Shape} {s : State} {f : Fault} (h : check sh s = .stop f) : f = .unwrittenInput := by
  simp only [check] at h
  split at h
  · cases h
  · split at h
    · cases h
    · split at h
      · cases h
      · split at h
        · exact scanBits_stop h
        · cases h

/-! `bodyOf` -/

theorem bodyOf_ok {α : Type} {s : State} {get : Memory → Nat → Option α} {f : List α → Output} {xs : List α}
    (h : inputs s get = some xs) : bodyOf s get f = .ok (f xs) := by simp [bodyOf, h]

theorem bodyOf_error {α : Type} {s : State} {get : Memory → Nat → Option α} {f : List α → Output}
    (h : inputs s get = none) : bodyOf s get f = .error .unwrittenInput := by simp [bodyOf, h]

/-- A body that answers has read all its input. -/
theorem bodyOf_eq_ok {α : Type} {s : State} {get : Memory → Nat → Option α} {f : List α → Output} {o : Output}
    (h : bodyOf s get f = .ok o) : ∃ xs, inputs s get = some xs ∧ xs.length = s.inLen.toNat ∧ o = f xs := by
  unfold bodyOf at h
  split at h
  · rename_i xs hx
    cases h
    exact ⟨xs, hx, ((collect_eq_some _ _ _ _).mp hx).1, rfl⟩
  · cases h

theorem bodyOf_eq_error {α : Type} {s : State} {get : Memory → Nat → Option α} {f : List α → Output} {e : Fault}
    (h : bodyOf s get f = .error e) : e = .unwrittenInput := by
  unfold bodyOf at h
  split at h
  · cases h
  · cases h; rfl

/-! `operate` -/

/-- The state a successful operation leaves (40_operation_common.md R100, R106; 44_awgn.md R157). -/
def succeeded (sh : Shape) (q : Bool) (s : State) (o : Output) : State :=
  ((((s.start sh.code q).writeOutput o.bytes).advanceDraws o.draws).nextFree).complete (sh.outLen s.inLen.toNat)

theorem operate_success {sh : Shape} {q : Bool} {body : State → Except Fault Output} {s : State} {o : Output}
    (hc : check sh s = .pass) (hb : body (s.start sh.code q) = .ok o) : operate sh q body s = .next (succeeded sh q s o) := by
  simp [operate, hc, hb, succeeded]

theorem operate_error {sh : Shape} {q : Bool} {body : State → Except Fault Output} {s : State} {c : ErrorCode} {info : Word}
    (hc : check sh s = .error c info) : operate sh q body s = .next ((s.start sh.code q).raiseError c info) := by
  simp [operate, hc]

theorem operate_stop {sh : Shape} {q : Bool} {body : State → Except Fault Output} {s : State} {f : Fault}
    (hc : check sh s = .stop f) : operate sh q body s = .fault f := by simp [operate, hc]

theorem operate_fault {sh : Shape} {q : Bool} {body : State → Except Fault Output} {s : State} {f : Fault}
    (hc : check sh s = .pass) (hb : body (s.start sh.code q) = .error f) : operate sh q body s = .fault f := by
  simp [operate, hc, hb]

/-- Everything an operation that answers a next state can have done: it failed a check and wrote nothing, or it passed them all and
wrote its whole output (40_operation_common.md R108). -/
theorem operate_next {sh : Shape} {q : Bool} {body : State → Except Fault Output} {s t : State}
    (h : operate sh q body s = .next t) :
    (∃ c info, check sh s = .error c info ∧ t = (s.start sh.code q).raiseError c info) ∨
    (∃ o, check sh s = .pass ∧ body (s.start sh.code q) = .ok o ∧ t = succeeded sh q s o) := by
  unfold operate at h
  simp only [check_start] at h
  split at h
  · cases h
  · rename_i c info hc; cases h; exact .inl ⟨c, info, hc, rfl⟩
  · rename_i hc
    split at h
    · cases h
    · rename_i o hb; cases h; exact .inr ⟨o, hc, hb, rfl⟩

/-- An operation never refuses. -/
theorem operate_not_refused (sh : Shape) (q : Bool) (body : State → Except Fault Output) (s : State) (r : Refusal) :
    operate sh q body s ≠ .refused r := by
  unfold operate
  intro h
  simp only [check_start] at h
  split at h
  · cases h
  · cases h
  · split at h <;> cases h

end Sys2Proof.Machine
end

