-- ==== Sys2Proof/Laws/PerInstr.lean ====
section
/-! SUPPORT. Statements for all instructions, made one lemma per constructor: the word an operation is encoded as, against its row of
spec/opcode_table.json. -/
namespace Sys2Proof.Laws.OpcodeRow

/-- The row's `match` word in spec/opcode_table.json, under the mask 0x000000F1 (30_encoding.md R81). -/
def rowMatch : Instr → Word
  | .manEnc _ => 0x00000011
  | .manDec _ => 0x00000021
  | .bpskMod _ => 0x00000031
  | .bpskDemod _ => 0x00000041
  | .qpskMod _ => 0x00000051
  | .qpskDemod _ => 0x00000061
  | .awgnReal _ => 0x00000071
  | .awgnCplx _ => 0x00000081

/-- The encoded word is the row's match word with `IRQ_EN` in bit 8 and every other bit 0 (30_encoding.md R75, R81). -/
def Statement (i : Instr) : Prop :=
  encode i = rowMatch i ||| (if i.irqEn then 0x00000100 else 0) ∧ encode i &&& 0x000000F1 = rowMatch i

theorem manEnc (irqEn : Bool) : Statement (.manEnc irqEn) := by cases irqEn <;> exact ⟨rfl, rfl⟩
theorem manDec (irqEn : Bool) : Statement (.manDec irqEn) := by cases irqEn <;> exact ⟨rfl, rfl⟩
theorem bpskMod (irqEn : Bool) : Statement (.bpskMod irqEn) := by cases irqEn <;> exact ⟨rfl, rfl⟩
theorem bpskDemod (irqEn : Bool) : Statement (.bpskDemod irqEn) := by cases irqEn <;> exact ⟨rfl, rfl⟩
theorem qpskMod (irqEn : Bool) : Statement (.qpskMod irqEn) := by cases irqEn <;> exact ⟨rfl, rfl⟩
theorem qpskDemod (irqEn : Bool) : Statement (.qpskDemod irqEn) := by cases irqEn <;> exact ⟨rfl, rfl⟩
theorem awgnReal (irqEn : Bool) : Statement (.awgnReal irqEn) := by cases irqEn <;> exact ⟨rfl, rfl⟩
theorem awgnCplx (irqEn : Bool) : Statement (.awgnCplx irqEn) := by cases irqEn <;> exact ⟨rfl, rfl⟩

end Sys2Proof.Laws.OpcodeRow
end

