-- ==== Sys2Proof/Laws/Port.lean ====
section
/-! SUPPORT. What the port does with one transaction, window by window and register by register, so that no proof unfolds `hostRead`,
`hostWrite` or `perform`. -/
namespace Sys2Proof.Machine

theorem windowOf_reg {a : Nat} (h : a < 0x1000) : windowOf a = .reg := by simp [windowOf, h]

theorem windowOf_ibuf {k : Nat} (h : k < 0x100000) : windowOf (0x100000 + k) = .ibuf := by
  unfold windowOf; rw [if_neg (by omega), if_pos (by omega)]

theorem windowOf_obuf {k : Nat} (h : k < 0x100000) : windowOf (0x200000 + k) = .obuf := by
  unfold windowOf; rw [if_neg (by omega), if_neg (by omega), if_pos (by omega)]

/-- Every register is found at its own offset. -/
@[simp] theorem regAt_regOffset (r : Reg) : regAt (regOffset r) = some r := by cases r <;> rfl

theorem regOffset_lt (r : Reg) : regOffset r < 0x1000 := by cases r <;> decide

/-- A read at a register's offset reads that register. -/
theorem hostRead_reg (s : State) (r : Reg) : hostRead s (regOffset r) = .ok (regRead s r) := by
  simp only [hostRead, windowOf_reg (regOffset_lt r), regAt_regOffset]

/-- A write at a register's offset applies that register's write rule. -/
theorem hostWrite_reg (s : State) (r : Reg) (w : Word) : hostWrite s (regOffset r) w = regWrite s r w := by
  simp only [hostWrite, windowOf_reg (regOffset_lt r), regAt_regOffset]

/-! The two windows onto the buffers, at buffer offset `k`. -/

theorem hostWrite_ibuf {s : State} {k : Nat} (w : Word) (h : k < 0x100000) (hk : k + 4 ≤ s.cfg.ibufBytes) :
    hostWrite s (0x100000 + k) w = { s with ibuf := Memory.writeList s.ibuf k (leBytes 4 w.toNat) } := by
  simp only [hostWrite, windowOf_ibuf h, Nat.add_sub_cancel_left, hk, if_true]

theorem hostWrite_ibuf_beyond {s : State} {k : Nat} (w : Word) (h : k < 0x100000) (hk : s.cfg.ibufBytes < k + 4) :
    hostWrite s (0x100000 + k) w = s := by
  simp only [hostWrite, windowOf_ibuf h, Nat.add_sub_cancel_left, Nat.not_le.mpr hk, if_false]

theorem hostRead_ibuf {s : State} {k : Nat} (h : k < 0x100000) (hk : k + 4 ≤ s.cfg.ibufBytes) :
    hostRead s (0x100000 + k) = .ok (BitVec.ofNat 32
      (leValue [hostIbufByte s k, hostIbufByte s (k + 1), hostIbufByte s (k + 2), hostIbufByte s (k + 3)])) := by
  simp only [hostRead, windowOf_ibuf h, Nat.add_sub_cancel_left, hk, if_true]

theorem hostRead_ibuf_beyond {s : State} {k : Nat} (h : k < 0x100000) (hk : s.cfg.ibufBytes < k + 4) :
    hostRead s (0x100000 + k) = .ok 0 := by
  simp only [hostRead, windowOf_ibuf h, Nat.add_sub_cancel_left, Nat.not_le.mpr hk, if_false]

theorem hostWrite_obuf (s : State) {k : Nat} (w : Word) (h : k < 0x100000) : hostWrite s (0x200000 + k) w = s := by
  simp only [hostWrite, windowOf_obuf h]

theorem hostRead_obuf {s : State} {k : Nat} {bs : List Byte} (h : k < 0x100000) (hk : k + 4 ≤ s.cfg.obufBytes)
    (hb : Memory.bytes s.obuf k 4 = some bs) : hostRead s (0x200000 + k) = .ok (BitVec.ofNat 32 (leValue bs)) := by
  simp only [hostRead, windowOf_obuf h, Nat.add_sub_cancel_left, hk, if_true, hb]

theorem hostRead_obuf_unwritten {s : State} {k : Nat} (h : k < 0x100000) (hk : k + 4 ≤ s.cfg.obufBytes)
    (hb : Memory.bytes s.obuf k 4 = none) : hostRead s (0x200000 + k) = .error .unwrittenOutput := by
  simp only [hostRead, windowOf_obuf h, Nat.add_sub_cancel_left, hk, if_true, hb]

theorem hostRead_obuf_beyond {s : State} {k : Nat} (h : k < 0x100000) (hk : s.cfg.obufBytes < k + 4) :
    hostRead s (0x200000 + k) = .ok 0 := by
  simp only [hostRead, windowOf_obuf h, Nat.add_sub_cancel_left, Nat.not_le.mpr hk, if_false]

/-! Performing a transaction. -/

/-- The three conditions of a request's spelling, as propositions. -/
theorem wellFormed_iff (r : Request) : r.wellFormed = true ↔ r.width = 32 ∧ r.offset % 4 = 0 ∧ r.offset < 0x400000 := by
  simp [Request.wellFormed, and_assoc]

/-- A well-formed write is performed and answered. -/
theorem perform_write {a w : Nat} {d : Word} (s : State) (h : (Request.write a w d).wellFormed = true) :
    perform (.write a w d) s = .next { hostWrite s a d with answer := some (.write a d) } := by
  simp only [perform, h, if_true]

/-- A well-formed read that finds its data is answered with it. -/
theorem perform_read {a w : Nat} {d : Word} {s : State} (h : (Request.read a w).wellFormed = true) (hd : hostRead s a = .ok d) :
    perform (.read a w) s = .next { s with answer := some (.read a d) } := by
  simp only [perform, h, if_true, hd]

/-- A well-formed read of OBUF bytes never written faults. -/
theorem perform_read_fault {a w : Nat} {f : Fault} {s : State} (h : (Request.read a w).wellFormed = true)
    (hd : hostRead s a = .error f) : perform (.read a w) s = .fault f := by
  simp only [perform, h, if_true, hd]

/-- A request outside the protocol is refused. -/
theorem perform_refused {r : Request} (s : State) (h : r.wellFormed = false) : perform r s = .refused .outsidePort := by
  simp [perform, h]

end Sys2Proof.Machine
end

