-- ==== Sys2Proof/Laws/Rounding.lean ====
section
/-! SUPPORT. The grid of binary64 values, what `roundMag` answers said through the middles beside it, the two searches the root and
`EXP10` use, and what each of them finds. -/
namespace Sys2Proof.Machine

/-! The grid. -/

/-- The value at a binade `e` and a significand `k`, up to and including the first value of the next binade. -/
theorem gridValue_binade {e k : Nat} (he : e = 0 ∨ 2 ^ 52 ≤ k) (hk : k ≤ 2 ^ 53) : gridValue (e * 2 ^ 52 + k) = k * 2 ^ e := by
  unfold gridValue
  rcases Nat.lt_or_ge (e * 2 ^ 52 + k) (2 ^ 52) with h | h
  · rw [if_pos h]
    have h0 : e = 0 := by omega
    rw [h0, Nat.zero_mul, Nat.zero_add, Nat.pow_zero, Nat.mul_one]
  · rw [if_neg (by omega)]
    rcases Nat.lt_or_ge k (2 ^ 53) with hk' | hk'
    · have h1 : (e * 2 ^ 52 + k) % 2 ^ 52 = k - 2 ^ 52 := by omega
      have h2 : (e * 2 ^ 52 + k) / 2 ^ 52 - 1 = e := by omega
      rw [h1, h2, Nat.add_sub_cancel' (by omega)]
    · have h1 : (e * 2 ^ 52 + k) % 2 ^ 52 = 0 := by omega
      have h2 : (e * 2 ^ 52 + k) / 2 ^ 52 - 1 = e + 1 := by omega
      rw [h1, h2, show k = 2 ^ 52 * 2 by omega, Nat.pow_succ]; ring

/-- Every pattern has a binade and a significand. -/
theorem exists_binade (p : Nat) : ∃ e k, p = e * 2 ^ 52 + k ∧ (e = 0 ∨ 2 ^ 52 ≤ k) ∧ k < 2 ^ 53 := by
  rcases Nat.lt_or_ge p (2 ^ 53) with h | h
  · exact ⟨0, p, by omega, .inl rfl, h⟩
  · exact ⟨p / 2 ^ 52 - 1, 2 ^ 52 + p % 2 ^ 52, by omega, .inr (by omega), by omega⟩

theorem gridValue_succ (p : Nat) : gridValue p < gridValue (p + 1) := by
  obtain ⟨e, k, rfl, he, hk⟩ := exists_binade p
  rw [gridValue_binade he (by omega), Nat.add_assoc, gridValue_binade (by omega) (by omega)]
  exact Nat.mul_lt_mul_of_pos_right (by omega) (Nat.two_pow_pos e)

/-- A greater pattern has a greater value. -/
theorem gridValue_lt {p q : Nat} (h : p < q) : gridValue p < gridValue q := by
  induction q with
  | zero => omega
  | succ q ih =>
    rcases Nat.lt_or_ge p q with h' | h'
    · exact Nat.lt_trans (ih h') (gridValue_succ q)
    · rw [show p = q by omega]; exact gridValue_succ q

theorem gridValue_le {p q : Nat} (h : p ≤ q) : gridValue p ≤ gridValue q := by
  rcases Nat.lt_or_ge p q with h' | h'
  · exact Nat.le_of_lt (gridValue_lt h')
  · rw [show p = q by omega]

/-- A pattern is nearest where the exact value lies between the middles to its two neighbours, or at one of them and the pattern is
even. -/
theorem nearestPattern_of_middles {v : ℝ} {p : Nat} (hp : p ≤ infPattern)
    (hb : 0 < p → (gridValue (p - 1) + gridValue p : ℝ) < 2 * v * 2 ^ 1074 ∨
      ((gridValue (p - 1) + gridValue p : ℝ) = 2 * v * 2 ^ 1074 ∧ p % 2 = 0))
    (ha : p < infPattern → 2 * v * 2 ^ 1074 < (gridValue p + gridValue (p + 1) : ℝ) ∨
      (2 * v * 2 ^ 1074 = (gridValue p + gridValue (p + 1) : ℝ) ∧ p % 2 = 0)) : NearestPattern v p := by
  refine ⟨hp, fun q hq hne => ?_⟩
  have hu : (0 : ℝ) < 2 ^ 1074 := pow_pos (by norm_num) _
  generalize (2 : ℝ) ^ 1074 = u at *
  obtain ⟨w, rfl⟩ : ∃ w, v = w / u := ⟨v * u, by field_simp⟩
  have e : 2 * (w / u) * u = 2 * w := by field_simp
  rw [e] at hb ha
  have hd : ∀ x : ℝ, |w / u - x / u| = |w - x| / u := fun x => by rw [← sub_div, abs_div, abs_of_pos hu]
  rw [hd, hd, div_lt_div_iff_of_pos_right hu, div_left_inj' hu.ne']
  rcases Nat.lt_or_ge q p with h | h
  · have h1 : (gridValue q : ℝ) ≤ gridValue (p - 1) := by exact_mod_cast gridValue_le (by omega)
    have h2 : (gridValue q : ℝ) < gridValue p := by exact_mod_cast gridValue_lt h
    have key : (gridValue q + gridValue p : ℝ) < 2 * w → |w - gridValue p| < |w - gridValue q| := fun h3 => by
      rw [abs_of_pos (show (0 : ℝ) < w - gridValue q by linarith), abs_lt]; constructor <;> linarith
    rcases hb (by omega) with h3 | ⟨h3, h4⟩
    · exact .inl (key (by linarith))
    · rcases Nat.lt_or_ge q (p - 1) with h5 | h5
      · have : (gridValue q : ℝ) < gridValue (p - 1) := by exact_mod_cast gridValue_lt h5
        exact .inl (key (by linarith))
      · right
        have : q = p - 1 := by omega
        subst this
        refine ⟨?_, h4⟩
        rw [abs_of_pos (show (0 : ℝ) < w - gridValue (p - 1) by linarith), abs_of_neg (by linarith)]; linarith
  · have h0 : p < q := by omega
    have h1 : (gridValue (p + 1) : ℝ) ≤ gridValue q := by exact_mod_cast gridValue_le (by omega)
    have h2 : (gridValue p : ℝ) < gridValue q := by exact_mod_cast gridValue_lt h0
    have key : 2 * w < (gridValue p + gridValue q : ℝ) → |w - gridValue p| < |w - gridValue q| := fun h3 => by
      rw [abs_of_neg (show w - gridValue q < 0 by linarith), abs_lt]; constructor <;> linarith
    rcases ha (by omega) with h3 | ⟨h3, h4⟩
    · exact .inl (key (by linarith))
    · rcases Nat.lt_or_ge (p + 1) q with h5 | h5
      · have : (gridValue (p + 1) : ℝ) < gridValue q := by exact_mod_cast gridValue_lt h5
        exact .inl (key (by linarith))
      · right
        have : q = p + 1 := by omega
        subst this
        refine ⟨?_, h4⟩
        rw [abs_of_neg (show w - gridValue (p + 1) < 0 by linarith), abs_of_pos (by linarith)]; linarith

/-! Rounding. -/

theorem roundMag_le (num den : Nat) : roundMag num den ≤ infPattern := Nat.min_le_left _ _

/-- The quotient before it is rounded: a binade, a significand and what is left over; and the pattern before overflow. -/
theorem roundMag_cases (num : Nat) {den : Nat} (hden : 0 < den) :
    ∃ e k r up, num = k * (den * 2 ^ e) + r ∧ r < den * 2 ^ e ∧ k < 2 ^ 53 ∧ (e = 0 ∨ 2 ^ 52 ≤ k) ∧
      roundMag num den = min infPattern (e * 2 ^ 52 + k + up) ∧
      ((up = 0 ∧ (2 * r < den * 2 ^ e ∨ (2 * r = den * 2 ^ e ∧ k % 2 = 0))) ∨
        (up = 1 ∧ (den * 2 ^ e < 2 * r ∨ (2 * r = den * 2 ^ e ∧ k % 2 = 1)))) := by
  generalize he : Nat.log2 (num / den) - 52 = e
  have hd : 0 < den * 2 ^ e := Nat.mul_pos hden (Nat.two_pow_pos e)
  have hq : num / den < 2 ^ (e + 53) := by
    refine Nat.lt_of_lt_of_le Nat.lt_log2_self (Nat.pow_le_pow_right (by omega) ?_)
    omega
  refine ⟨e, num / (den * 2 ^ e), num % (den * 2 ^ e),
    (decide (den * 2 ^ e < 2 * (num % (den * 2 ^ e))) ||
      (decide (den * 2 ^ e = 2 * (num % (den * 2 ^ e))) && decide (num / (den * 2 ^ e) % 2 = 1))).toNat,
    (Nat.div_add_mod' num _).symm, Nat.mod_lt _ hd, ?_, ?_, ?_, ?_⟩
  · rw [← Nat.div_div_eq_div_mul, Nat.div_lt_iff_lt_mul (Nat.two_pow_pos e), ← Nat.pow_add, Nat.add_comm]; exact hq
  · rcases Nat.eq_zero_or_pos e with h | h
    · exact .inl h
    · right
      have hl : Nat.log2 (num / den) = e + 52 := by omega
      have h0 : num / den ≠ 0 := by intro h0; rw [h0] at hl; simp at hl
      rw [← Nat.div_div_eq_div_mul, Nat.le_div_iff_mul_le (Nat.two_pow_pos e), ← Nat.pow_add, Nat.add_comm, ← hl]
      exact Nat.log2_self_le h0
  · subst he; rfl
  · generalize num % (den * 2 ^ e) = r
    generalize den * 2 ^ e = d
    generalize num / d = k
    rcases Nat.lt_trichotomy d (2 * r) with h | h | h
    · right; simp [h]
    · rcases Nat.mod_two_eq_zero_or_one k with hk | hk
      · left; simp [← h, hk]
      · right; simp [← h, hk]
    · left; simp [show ¬ d < 2 * r by omega, show ¬ d = 2 * r by omega, h]

/-- The exact quotient is above the middle below the rounded pattern, or at it where the pattern is even. -/
theorem roundMag_below {num den : Nat} (hden : 0 < den) (hp : 0 < roundMag num den) :
    (gridValue (roundMag num den - 1) + gridValue (roundMag num den)) * den < 2 * num ∨
    ((gridValue (roundMag num den - 1) + gridValue (roundMag num den)) * den = 2 * num ∧ roundMag num den % 2 = 0) := by
  obtain ⟨e, k, r, up, hn, hr, hk, he, hm, hup⟩ := roundMag_cases num hden
  have raw : 0 < e * 2 ^ 52 + k + up →
      (gridValue (e * 2 ^ 52 + k + up - 1) + gridValue (e * 2 ^ 52 + k + up)) * den < 2 * num ∨
      ((gridValue (e * 2 ^ 52 + k + up - 1) + gridValue (e * 2 ^ 52 + k + up)) * den = 2 * num ∧
        (e * 2 ^ 52 + k + up) % 2 = 0) := fun h0 => by
    have g0 : gridValue (e * 2 ^ 52 + k) * den = k * (den * 2 ^ e) := by rw [gridValue_binade he (by omega)]; ring
    rcases hup with ⟨rfl, _⟩ | ⟨rfl, h⟩
    · left
      have := Nat.mul_lt_mul_of_pos_right (gridValue_lt (show e * 2 ^ 52 + k - 1 < e * 2 ^ 52 + k by omega)) hden
      simp only [Nat.add_zero]
      rw [Nat.add_mul]; omega
    · have g1 : gridValue (e * 2 ^ 52 + k + 1) * den = k * (den * 2 ^ e) + den * 2 ^ e := by
        rw [Nat.add_assoc, gridValue_binade (by omega) (by omega)]; ring
      rw [Nat.add_sub_cancel, Nat.add_mul, g0, g1]
      rcases h with h | ⟨h, h'⟩
      · left; omega
      · right; omega
  rw [hm] at hp ⊢
  rcases Nat.lt_or_ge infPattern (e * 2 ^ 52 + k + up) with h | h
  case inr =>
    rw [Nat.min_eq_right h] at hp ⊢; exact raw hp
  case inl =>
    rw [Nat.min_eq_left (by omega)]
    left
    have h1 := gridValue_le (show infPattern ≤ e * 2 ^ 52 + k + up - 1 by omega)
    have h2 := gridValue_lt (show infPattern - 1 < infPattern by decide)
    have h3 := gridValue_le (show infPattern ≤ e * 2 ^ 52 + k + up by omega)
    have h4 := Nat.mul_lt_mul_of_pos_right
      (show gridValue (infPattern - 1) + gridValue infPattern <
        gridValue (e * 2 ^ 52 + k + up - 1) + gridValue (e * 2 ^ 52 + k + up) by omega) hden
    rcases raw (by omega) with h5 | h5 <;> omega

/-- The exact quotient is below the middle above the rounded pattern, or at it where the pattern is even. -/
theorem roundMag_above {num den : Nat} (hden : 0 < den) (hp : roundMag num den < infPattern) :
    2 * num < (gridValue (roundMag num den) + gridValue (roundMag num den + 1)) * den ∨
    (2 * num = (gridValue (roundMag num den) + gridValue (roundMag num den + 1)) * den ∧ roundMag num den % 2 = 0) := by
  obtain ⟨e, k, r, up, hn, hr, hk, he, hm, hup⟩ := roundMag_cases num hden
  have hm' : roundMag num den = e * 2 ^ 52 + k + up := by omega
  rw [hm']
  have g1 : gridValue (e * 2 ^ 52 + k + 1) * den = k * (den * 2 ^ e) + den * 2 ^ e := by
    rw [Nat.add_assoc, gridValue_binade (by omega) (by omega)]; ring
  rw [Nat.add_mul]
  rcases hup with ⟨rfl, h⟩ | ⟨rfl, _⟩
  · have g0 : gridValue (e * 2 ^ 52 + k) * den = k * (den * 2 ^ e) := by rw [gridValue_binade he (by omega)]; ring
    simp only [Nat.add_zero]
    rw [g0, g1]
    rcases h with h | ⟨h, h'⟩
    · left; omega
    · right; omega
  · left
    have := Nat.mul_lt_mul_of_pos_right (gridValue_succ (e * 2 ^ 52 + k + 1)) hden
    omega

/-! Signs. -/

/-- A sign put on a pattern below 2^63 leaves the pattern and is the sign. -/
theorem withSign_eq (neg : Bool) {p : Nat} (hp : p < 2 ^ 63) : (withSign neg p).toNat % 2 ^ 63 = p ∧ signBit (withSign neg p) = neg := by
  have ht : (BitVec.ofNat 64 p).toNat = p := by rw [BitVec.toNat_ofNat]; exact Nat.mod_eq_of_lt (by omega)
  have hs : (BitVec.ofNat 64 p).getLsbD 63 = false := by rw [BitVec.getLsbD, ht]; exact Nat.testBit_lt_two_pow hp
  cases neg
  · constructor
    · have : withSign false p = BitVec.ofNat 64 p := by simp [withSign, plusZero]
      rw [this, ht, Nat.mod_eq_of_lt hp]
    · simpa [withSign, plusZero, signBit] using hs
  · constructor
    · have h : (withSign true p).toNat = 2 ^ 63 + p := by
        have : withSign true p = BitVec.ofNat 64 p ||| minusZero := rfl
        rw [this, BitVec.toNat_or, ht, Nat.or_comm, show minusZero.toNat = 2 ^ 63 * 1 by decide,
          ← Nat.two_pow_add_eq_or_of_lt hp, Nat.mul_one]
      rw [h]; omega
    · have : minusZero.getLsbD 63 = true := by decide
      simp only [signBit, withSign, BitVec.getLsbD_or, if_true, this, Bool.or_true]

/-! The searches. -/

/-- The whole part of a root. -/
theorem wholeSqrt_spec (fuel n : Nat) (h : n < 4 ^ fuel) :
    wholeSqrt fuel n * wholeSqrt fuel n ≤ n ∧ n < (wholeSqrt fuel n + 1) * (wholeSqrt fuel n + 1) := by
  induction fuel generalizing n with
  | zero => simp only [Nat.pow_zero] at h; simp [wholeSqrt]; omega
  | succ fuel ih =>
    have h4 : n / 4 < 4 ^ fuel := by rw [Nat.pow_succ] at h; omega
    obtain ⟨h1, h2⟩ := ih (n / 4) h4
    simp only [wholeSqrt]
    generalize wholeSqrt fuel (n / 4) = r at *
    split
    · rename_i hle
      exact ⟨hle, by nlinarith [Nat.div_add_mod n 4, Nat.mod_lt n (show 0 < 4 by omega)]⟩
    · rename_i hle
      have : 2 * r * (2 * r) = 4 * (r * r) := by ring
      exact ⟨by omega, by omega⟩

/-- The search keeps to the numbers a downward-closed test accepts and stops below the first it does not. -/
theorem greatest_spec (test : Nat → Bool) (bits p : Nat)
    (hdown : ∀ a b, p < a → a ≤ b → b < p + 2 ^ bits → test b = true → test a = true) :
    p ≤ greatest test bits p ∧ greatest test bits p < p + 2 ^ bits ∧
    (∀ a, p < a → a ≤ greatest test bits p → test a = true) ∧
    (∀ a, greatest test bits p < a → a < p + 2 ^ bits → test a = false) := by
  induction bits generalizing p with
  | zero => simp only [greatest, Nat.pow_zero]; exact ⟨Nat.le_refl _, by omega, fun a _ _ => by omega, fun a _ _ => by omega⟩
  | succ bits ih =>
    have hp := Nat.two_pow_pos bits
    have hs : 2 ^ (bits + 1) = 2 ^ bits + 2 ^ bits := by rw [Nat.pow_succ]; omega
    rw [hs] at hdown ⊢
    simp only [greatest]
    split
    · rename_i ht
      obtain ⟨h1, h2, h3, h4⟩ := ih (p + 2 ^ bits) fun a b ha hab hb => hdown a b (by omega) hab (by omega)
      refine ⟨by omega, by omega, fun a ha hle => ?_, fun a ha hlt => h4 a ha (by omega)⟩
      rcases Nat.lt_or_ge (p + 2 ^ bits) a with h | h
      · exact h3 a h hle
      · exact hdown a _ ha h (by omega) ht
    · rename_i ht
      obtain ⟨h1, h2, h3, h4⟩ := ih p fun a b ha hab hb => hdown a b ha hab (by omega)
      refine ⟨h1, by omega, h3, fun a ha hlt => ?_⟩
      rcases Nat.lt_or_ge a (p + 2 ^ bits) with h | h
      · exact h4 a ha h
      · rw [Bool.eq_false_iff]; intro hta
        exact ht (hdown _ a (by omega) h hlt hta)

/-! Rounding to a pattern. -/

theorem infPattern_lt : infPattern < 2 ^ 63 := by decide

/-- What `rounded` answers: the exact value `v`, given in units of 2^-1074 as `num / den`, rounded, with the sign asked for. -/
theorem rounded_spec {neg : Bool} {num den : Nat} (hden : 0 < den) {v : ℝ} (hv : |v| * 2 ^ 1074 * den = num)
    (h1 : v < 0 → neg = true) (h2 : 0 < v → neg = false) :
    RoundsTo v (rounded neg num den) ∧ signBit (rounded neg num den) = neg := by
  have hw := withSign_eq neg (Nat.lt_of_le_of_lt (roundMag_le num den) infPattern_lt)
  have hd : (0:ℝ) < den := by exact_mod_cast hden
  refine ⟨⟨?_, fun h => hw.2.trans (h1 h), fun h => hw.2.trans (h2 h)⟩, hw.2⟩
  show NearestPattern _ ((withSign neg (roundMag num den)).toNat % 2 ^ 63)
  rw [hw.1]
  have e : 2 * |v| * 2 ^ 1074 * den = 2 * num := by rw [← hv]; ring
  generalize hX : 2 * |v| * (2:ℝ) ^ 1074 = X at e
  refine nearestPattern_of_middles (roundMag_le _ _) (fun hp => ?_) (fun hp => ?_)
  · rw [hX]
    rcases roundMag_below hden hp with h | ⟨h, h'⟩
    · left
      have : ((gridValue (roundMag num den - 1) + gridValue (roundMag num den) : ℝ)) * den < X * den := by rw [e]; exact_mod_cast h
      exact lt_of_mul_lt_mul_right this hd.le
    · right
      refine ⟨?_, h'⟩
      have : ((gridValue (roundMag num den - 1) + gridValue (roundMag num den) : ℝ)) * den = X * den := by rw [e]; exact_mod_cast h
      exact mul_right_cancel₀ hd.ne' this
  · rw [hX]
    rcases roundMag_above hden hp with h | ⟨h, h'⟩
    · left
      have : X * den < ((gridValue (roundMag num den) + gridValue (roundMag num den + 1) : ℝ)) * den := by rw [e]; exact_mod_cast h
      exact lt_of_mul_lt_mul_right this hd.le
    · right
      refine ⟨?_, h'⟩
      have : X * den = ((gridValue (roundMag num den) + gridValue (roundMag num den + 1) : ℝ)) * den := by rw [e]; exact_mod_cast h
      exact mul_right_cancel₀ hd.ne' this

/-! Finite values. -/

/-- A finite value is no NaN and no infinity. -/
theorem finite_cases {a : F64} (h : isFinite a = true) : isNaN a = false ∧ isInf a = false := by
  simp only [isFinite, decide_eq_true_eq] at h
  simp [isNaN, isInf, h]

theorem gridValue_eq_zero {p : Nat} : gridValue p = 0 ↔ p = 0 := by
  constructor
  · intro h; by_contra h0
    have := gridValue_lt (show 0 < p by omega); omega
  · rintro rfl; rfl

theorem magnitude_eq_zero (a : F64) : magnitude a = 0 ↔ isZero a = true := by
  unfold magnitude; rw [gridValue_eq_zero]
  simp only [isZero, exponentField, fractionField, Bool.and_eq_true, decide_eq_true_eq, BitVec.extractLsb'_toNat, Nat.shiftRight_eq_div_pow]
  have := a.isLt
  constructor <;> intro h <;> omega

/-- The exact value, by sign and magnitude. -/
theorem valueOf_eq (a : F64) : valueOf a = (if signBit a then -1 else 1) * (magnitude a : ℚ) / 2 ^ 1074 := by
  unfold valueOf signedUnits; split <;> simp

/-- What `negate` changes, and what not. -/
theorem negate_spec (x : F64) :
    signBit (negate x) = !signBit x ∧ magnitude (negate x) = magnitude x ∧ isNaN (negate x) = isNaN x ∧
      isFinite (negate x) = isFinite x := by
  have hb : ∀ i, i < 63 → (negate x).getLsbD i = x.getLsbD i := by
    intro i hi
    have : minusZero.getLsbD i = false := by
      have : ∀ i, i < 63 → minusZero.getLsbD i = false := by decide
      exact this i hi
    rw [negate, BitVec.getLsbD_xor, this, Bool.xor_false]
  have he : (negate x).extractLsb' 52 11 = x.extractLsb' 52 11 := by
    apply BitVec.eq_of_getLsbD_eq; intro i hi
    rw [BitVec.getLsbD_extractLsb', BitVec.getLsbD_extractLsb', hb _ (by omega)]
  have hf : (negate x).extractLsb' 0 52 = x.extractLsb' 0 52 := by
    apply BitVec.eq_of_getLsbD_eq; intro i hi
    rw [BitVec.getLsbD_extractLsb', BitVec.getLsbD_extractLsb', hb _ (by omega)]
  have hm : (negate x).toNat % 2 ^ 63 = x.toNat % 2 ^ 63 := by
    have : ∀ y : F64, y.toNat % 2 ^ 63 = (y.extractLsb' 0 63).toNat := by intro y; simp [BitVec.extractLsb'_toNat]
    rw [this, this]; congr 1
    apply BitVec.eq_of_getLsbD_eq; intro i hi
    rw [BitVec.getLsbD_extractLsb', BitVec.getLsbD_extractLsb', hb _ (by omega)]
  refine ⟨?_, ?_, ?_, ?_⟩
  · have : minusZero.getLsbD 63 = true := by decide
    rw [signBit, negate, BitVec.getLsbD_xor, this, Bool.xor_true]; rfl
  · rw [magnitude, magnitude, hm]
  · unfold isNaN exponentField fractionField; rw [he, hf]
  · unfold isFinite exponentField; rw [he]

theorem valueOf_negate (x : F64) : valueOf (negate x) = - valueOf x := by
  rw [valueOf_eq, valueOf_eq, (negate_spec x).1, (negate_spec x).2.1]
  cases signBit x <;> simp <;> ring

/-- The magnitude is that of the exact value. -/
theorem abs_valueOf (a : F64) : |((valueOf a : ℚ) : ℝ)| * 2 ^ 1074 = magnitude a := by
  have hu' : (0:ℝ) < 2 ^ 1074 := pow_pos (by norm_num) _
  rw [valueOf_eq]
  push_cast
  rw [abs_div, abs_of_pos hu', div_mul_cancel₀ _ hu'.ne', abs_mul]
  split <;> simp

theorem valueOf_nonneg {a : F64} (h : signBit a = false) : 0 ≤ valueOf a := by
  rw [valueOf_eq, h]; simp; positivity

theorem valueOf_nonpos {a : F64} (h : signBit a = true) : valueOf a ≤ 0 := by
  rw [valueOf_eq, h]
  have : (0:ℚ) ≤ (magnitude a : ℚ) / 2 ^ 1074 := by positivity
  simp only [if_true]
  have e : (-1) * (magnitude a : ℚ) / 2 ^ 1074 = -((magnitude a : ℚ) / 2 ^ 1074) := by ring
  rw [e]; linarith

/-- Zero is its own nearest pattern. -/
theorem nearestPattern_zero : NearestPattern |(0:ℝ)| 0 := by
  refine nearestPattern_of_middles (by decide) (fun h => absurd h (lt_irrefl _)) (fun _ => ?_)
  left
  have : gridValue 0 < gridValue 1 := gridValue_lt (by decide)
  have : (0:ℝ) < gridValue (0+1) := by exact_mod_cast (by omega : 0 < gridValue 1)
  simp; positivity

/-- A non-negative pattern as a binary64. -/
theorem ofNat_pattern (p : Nat) (hp : p < 2 ^ 63) : (BitVec.ofNat 64 p).toNat % 2 ^ 63 = p ∧ signBit (BitVec.ofNat 64 p) = false := by
  have := withSign_eq false hp
  have e : withSign false p = BitVec.ofNat 64 p := by simp [withSign, plusZero]
  rwa [e] at this

/-! The root and `EXP10`. -/

/-- From 2 ^ (e+53) units on the grid stands at multiples of 2 ^ e. -/
theorem gridValue_dvd {p e : Nat} (h : 2 ^ (e+53) ≤ gridValue p) : 2 ^ e ∣ gridValue p ∧ 2 ^ e ∣ gridValue (p+1) := by
  obtain ⟨e', k, rfl, he, hk⟩ := exists_binade p
  rw [gridValue_binade he (by omega)] at h ⊢
  rw [Nat.add_assoc, gridValue_binade (by omega) (by omega)]
  have : e ≤ e' := by
    by_contra h0
    have h1 : k * 2 ^ e' < 2 ^ 53 * 2 ^ e := by
      calc k * 2 ^ e' < 2 ^ 53 * 2 ^ e' := Nat.mul_lt_mul_of_pos_right hk (Nat.two_pow_pos _)
        _ ≤ 2 ^ 53 * 2 ^ e := Nat.mul_le_mul_left _ (Nat.pow_le_pow_right (by omega) (by omega))
    rw [← Nat.pow_add, Nat.add_comm] at h1
    omega
  have hd := Nat.pow_dvd_pow 2 this
  exact ⟨Dvd.dvd.mul_left hd _, Dvd.dvd.mul_left hd _⟩

/-- What `rootOf` takes the root of: `m` of at least 120 bits, so that the whole part of its root has more bits than a significand. -/
theorem rootOf_significand (x : F64) (hx : isFinite x = true) (h0 : magnitude x ≠ 0) :
    ∃ h m, 2 ≤ h ∧ h ≤ 2000 ∧ magnitude x * 2 ^ 1074 = m * 2 ^ (2 * h) ∧ 2 ^ 120 ≤ m ∧ m < 4 ^ 90 ∧
      rootOf x = rounded false ((2 * wholeSqrt 90 m + (decide (wholeSqrt 90 m * wholeSqrt 90 m ≠ m)).toNat) * 2 ^ (h - 1)) 1 := by
  have hfin : x.toNat % 2 ^ 63 / 2 ^ 52 < 2047 := by
    simp only [isFinite, exponentField, BitVec.extractLsb'_toNat, decide_eq_true_eq, Nat.shiftRight_eq_div_pow] at hx
    have := x.isLt
    omega
  generalize hp : x.toNat % 2 ^ 63 / 2 ^ 52 - 1 = e
  have hmag : ∃ sig, magnitude x = sig * 2 ^ e ∧ sig < 2 ^ 53 := by
    unfold magnitude gridValue
    generalize x.toNat % 2 ^ 63 = q at *
    split
    · rename_i hq
      have : e = 0 := by omega
      exact ⟨q, by rw [this]; simp, by omega⟩
    · exact ⟨2 ^ 52 + q % 2 ^ 52, by rw [hp], by omega⟩
  obtain ⟨sig, hs, hs'⟩ := hmag
  have hs0 : 0 < sig := by
    rcases Nat.eq_zero_or_pos sig with h | h
    · rw [h] at hs; omega
    · exact h
  generalize hh : (1074 + e - 120) / 2 = h
  have hN : magnitude x * 2 ^ 1074 = sig * 2 ^ (1074 + e - 2*h) * 2 ^ (2*h) := by
    rw [hs, Nat.mul_assoc, ← Nat.pow_add, Nat.mul_assoc, ← Nat.pow_add]; congr 2; omega
  have hdiv : magnitude x * 2 ^ 1074 / 2 ^ (2*h) = sig * 2 ^ (1074 + e - 2*h) := by
    rw [hN]; exact Nat.mul_div_cancel _ (Nat.two_pow_pos _)
  have hj : 1074 + e - 2*h = 120 ∨ 1074 + e - 2*h = 121 := by omega
  refine ⟨h, sig * 2 ^ (1074 + e - 2*h), by omega, by omega, hN, ?_, ?_, ?_⟩
  · rcases hj with hj | hj <;> rw [hj] <;> omega
  · rcases hj with hj | hj <;> rw [hj] <;> omega
  · unfold rootOf
    simp only [hp, hh, hdiv]

/-- `exp10Reaches` says on which side of the middle below `p` the positive value `v` = 10 ^ (±P/Q) lies. -/
theorem exp10Reaches_iff (neg : Bool) (P Q p : Nat) (hQ : 0 < Q) (v : ℝ) (hv : 0 < v)
    (hvQ : v ^ Q = if neg then 1 / 10 ^ P else 10 ^ P) (hp : p ≤ infPattern) :
    exp10Reaches neg P Q p = true ↔ ((gridValue (p - 1) + gridValue p : ℝ) < 2 * v * 2 ^ 1074 ∨
      ((gridValue (p - 1) + gridValue p : ℝ) = 2 * v * 2 ^ 1074 ∧ p % 2 = 0)) := by
  have hM : (0:ℝ) ≤ (gridValue (p - 1) + gridValue p : ℝ) := add_nonneg (Nat.cast_nonneg _) (Nat.cast_nonneg _)
  have e1 : 2 * v * 2 ^ 1074 = v * 2 ^ 1075 := by
    have := pow_succ (2:ℝ) 1074
    rw [show (2:ℝ) ^ 1075 = 2 ^ 1074 * 2 from this]; generalize (2:ℝ) ^ 1074 = u; ring
  have hu : (0:ℝ) < 2 ^ 1075 := pow_pos (by norm_num) _
  rw [e1]
  have hQ' : Q ≠ 0 := by omega
  have hX : 0 ≤ v * 2 ^ 1075 := mul_nonneg hv.le hu.le
  have key : ∀ (c : ℝ), 0 ≤ c → (c < v * 2 ^ 1075 ↔ c ^ Q < (v * 2 ^ 1075) ^ Q) ∧
      (c = v * 2 ^ 1075 ↔ c ^ Q = (v * 2 ^ 1075) ^ Q) :=
    fun c hc =>
    ⟨(pow_lt_pow_iff_left₀ hc hX hQ').symm, (pow_left_inj₀ hc hX hQ').symm⟩
  rw [(key _ hM).1, (key _ hM).2, mul_pow, hvQ]
  have h10 : (0:ℝ) < 10 ^ P := pow_pos (by norm_num) _
  have hN : ((gridValue (p - 1) + gridValue p : ℝ)) ^ Q = (((gridValue (p - 1) + gridValue p) ^ Q : ℕ) : ℝ) := by push_cast; ring
  have hD : ((2:ℝ) ^ 1075) ^ Q = (((2 ^ 1075) ^ Q : ℕ) : ℝ) := by push_cast; ring
  have hT : (10:ℝ) ^ P = ((10 ^ P : ℕ) : ℝ) := by push_cast; ring
  unfold exp10Reaches
  rw [hN, hD]
  generalize (gridValue (p - 1) + gridValue p) ^ Q = N
  generalize (2 ^ 1075) ^ Q = D
  cases neg
  · simp only [Bool.false_eq_true, if_false, hT]
    generalize 10 ^ P = T
    simp only [hp, decide_true, Bool.true_and, Bool.or_eq_true, Bool.and_eq_true, decide_eq_true_eq]
    constructor
    · rintro (h | h)
      · left; exact_mod_cast h
      · right; exact ⟨by exact_mod_cast h.1, h.2⟩
    · rintro (h | h)
      · left; exact_mod_cast h
      · right; exact ⟨by exact_mod_cast h.1, h.2⟩
  · simp only [if_true]
    have a1 : (N:ℝ) < 1 / 10 ^ P * D ↔ (N:ℝ) * 10 ^ P < D := by
      rw [div_mul_eq_mul_div, one_mul, lt_div_iff₀ h10]
    have a2 : (N:ℝ) = 1 / 10 ^ P * D ↔ (N:ℝ) * 10 ^ P = D := by
      rw [div_mul_eq_mul_div, one_mul, eq_div_iff h10.ne']
    rw [a1, a2, hT]
    generalize 10 ^ P = T
    simp only [hp, decide_true, Bool.true_and, Bool.or_eq_true, Bool.and_eq_true, decide_eq_true_eq]
    constructor
    · rintro (h | h)
      · left; exact_mod_cast h
      · right; exact ⟨by exact_mod_cast h.1, h.2⟩
    · rintro (h | h)
      · left; exact_mod_cast h
      · right; exact ⟨by exact_mod_cast h.1, h.2⟩

/-! Values that are not finite, and the order. -/

/-- The kinds of a pattern, by its number without the sign bit. -/
theorem pattern_cases (x : F64) :
    (isNaN x = true ↔ infPattern < x.toNat % 2 ^ 63) ∧ (isInf x = true ↔ x.toNat % 2 ^ 63 = infPattern) ∧
    (isFinite x = true ↔ x.toNat % 2 ^ 63 < infPattern) := by
  simp only [isNaN, isInf, isFinite, exponentField, fractionField, Bool.and_eq_true, decide_eq_true_eq, BitVec.extractLsb'_toNat,
    Nat.shiftRight_eq_div_pow, infPattern]
  have := x.isLt
  refine ⟨?_, ?_, ?_⟩ <;> omega

/-- A rounded result is no NaN. -/
theorem isNaN_withSign (neg : Bool) {p : Nat} (h : p ≤ infPattern) : isNaN (withSign neg p) = false := by
  rw [Bool.eq_false_iff, ne_eq, (pattern_cases _).1, (withSign_eq neg (Nat.lt_of_le_of_lt h infPattern_lt)).1]
  omega

@[simp] theorem isNaN_rounded (neg : Bool) (num den : Nat) : isNaN (rounded neg num den) = false :=
  isNaN_withSign neg (roundMag_le num den)

theorem gridValue_lt_iff {p q : Nat} : gridValue p < gridValue q ↔ p < q := by
  refine ⟨fun h => ?_, gridValue_lt⟩
  by_contra h0
  exact absurd (gridValue_le (Nat.not_lt.mp h0)) (Nat.not_le.mpr h)

/-- The order of the values is the order of the patterns (00_scope.md R11). -/
theorem extendedValue_lt_iff {a b : F64} (ha : isNaN a = false) (hb : isNaN b = false) :
    extendedValue a < extendedValue b ↔ orderKey a < orderKey b := by
  have ⟨na, ia, _⟩ := pattern_cases a
  have ⟨nb, ib, _⟩ := pattern_cases b
  rw [ha] at na
  rw [hb] at nb
  have finite : valueOf a < valueOf b ↔ orderKey a < orderKey b := by
    have hu : (0 : ℚ) < 2 ^ 1074 := pow_pos (by norm_num) _
    have h1 := gridValue_lt_iff (p := a.toNat % 2 ^ 63) (q := b.toNat % 2 ^ 63)
    have h2 := gridValue_lt_iff (p := b.toNat % 2 ^ 63) (q := a.toNat % 2 ^ 63)
    have h3 := gridValue_eq_zero (p := a.toNat % 2 ^ 63)
    have h4 := gridValue_eq_zero (p := b.toNat % 2 ^ 63)
    rw [valueOf, valueOf, div_lt_div_iff_of_pos_right hu, Int.cast_lt]
    unfold signedUnits orderKey magnitude
    split <;> split <;> omega
  have hI : infPattern = 9218868437227405312 := rfl
  have na : a.toNat % 2 ^ 63 ≤ infPattern := by simpa using na
  have nb : b.toNat % 2 ^ 63 ≤ infPattern := by simpa using nb
  have fa : isInf a = false → a.toNat % 2 ^ 63 ≠ infPattern := fun h e => by simp [ia.mpr e] at h
  have fb : isInf b = false → b.toNat % 2 ^ 63 ≠ infPattern := fun h e => by simp [ib.mpr e] at h
  unfold orderKey at *
  generalize a.toNat % 2 ^ 63 = p at *
  generalize b.toNat % 2 ^ 63 = q at *
  cases hia : isInf a <;> cases hib : isInf b <;> simp only [hia, hib, true_iff, forall_const] at ia ib fa fb <;>
    cases hsa : signBit a <;> cases hsb : signBit b <;>
    simp only [extendedValue, hia, hib, hsa, hsb, if_true, if_false, Bool.false_eq_true, WithBot.coe_lt_coe, WithTop.coe_lt_coe,
      WithTop.coe_lt_top, WithBot.bot_lt_coe, not_lt_bot, not_top_lt, lt_self_iff_false, true_iff, false_iff] at finite ⊢ <;>
    first | exact finite | omega

theorem extendedValue_eq_iff {a b : F64} (ha : isNaN a = false) (hb : isNaN b = false) :
    extendedValue a = extendedValue b ↔ orderKey a = orderKey b := by
  have h1 := extendedValue_lt_iff ha hb
  have h2 := extendedValue_lt_iff hb ha
  rw [eq_iff_le_not_lt, ← not_lt, h1, h2]; omega

/-- An infinity is no NaN, not finite and no zero. -/
theorem infinite_cases {a : F64} (h : isInf a = true) : isNaN a = false ∧ isFinite a = false ∧ isZero a = false := by
  simp only [isInf, Bool.and_eq_true, decide_eq_true_eq] at h
  simp [isNaN, isFinite, isZero, h]

/-- A value is zero exactly at the two zeros. -/
theorem valueOf_eq_zero {b : F64} : valueOf b = 0 ↔ isZero b = true := by
  rw [← magnitude_eq_zero]
  have h := abs_valueOf b
  have hu : (0:ℝ) < 2 ^ 1074 := pow_pos (by norm_num) _
  constructor
  · intro e; rw [e] at h; simp at h; exact_mod_cast h.symm
  · intro e; rw [valueOf_eq, e]; simp

/-- The two infinities. -/
theorem infinite_eq {a : F64} (h : isInf a = true) : a = if signBit a then minusInf else plusInf := by
  have := (pattern_cases a).2.1.mp h
  have hs : signBit a = decide (2 ^ 63 ≤ a.toNat) := by
    simp only [signBit]; rw [← BitVec.msb_eq_getLsbD_last, BitVec.msb_eq_decide]
  rw [hs]
  have hl := a.isLt
  apply BitVec.eq_of_toNat_eq
  unfold infPattern at this
  by_cases hh : 2 ^ 63 ≤ a.toNat
  · simp only [hh, decide_true, if_true]; show _ = 0xFFF0000000000000; omega
  · simp only [hh, decide_false, Bool.false_eq_true, if_false]; show _ = 0x7FF0000000000000; omega

@[simp] theorem isInf_negate {a : F64} : isInf (negate a) = isInf a := by
  by_cases h : isInf a = true
  · rw [h]
    rw [infinite_eq h]; cases signBit a <;> decide
  · have : isInf (negate a) ≠ true := by
      intro hh; apply h
      have := infinite_eq hh
      have e : a = negate (negate a) := by simp
      rw [e, this]; cases signBit (negate a) <;> decide
    simp at h this; rw [h, this]

/-- The signed infinity and the signed zero of a product or a quotient. -/
theorem withSign_infPattern (a b : F64) : withSign (signBit a != signBit b) infPattern = productInfinity a b := by
  unfold productInfinity; cases signBit a <;> cases signBit b <;> decide

theorem withSign_zero (a b : F64) : withSign (signBit a != signBit b) 0 = productZero a b := by
  unfold productZero; cases signBit a <;> cases signBit b <;> decide

@[simp] theorem isNaN_rootOf (x : F64) : isNaN (rootOf x) = false := by
  unfold rootOf
  exact isNaN_rounded _ _ _

end Sys2Proof.Machine
end

