-- ==== Sys2Proof/Laws/Step.lean ====
section
/-! SUPPORT. What a command, a transaction and a step can do, said once: every meaning as the shared skeleton with its shape and
body, and the cases of `step`. -/
namespace Sys2Proof.Machine

/-! Every command is the skeleton with a shape and a body. -/

/-- The shape a command's meaning uses. -/
def shapeOf : Instr → Shape
  | .manEnc _ => manEncShape
  | .manDec _ => manDecShape
  | .bpskMod _ => bpskModShape
  | .bpskDemod _ => bpskDemodShape
  | .qpskMod _ => qpskModShape
  | .qpskDemod _ => qpskDemodShape
  | .awgnReal _ => awgnRealShape
  | .awgnCplx _ => awgnCplxShape

/-- The body a command's meaning uses. -/
def bodyFor : Instr → State → Except Fault Output
  | .manEnc _ => manEncBody
  | .manDec _ => manDecBody
  | .bpskMod _ => bpskModBody
  | .bpskDemod _ => bpskDemodBody
  | .qpskMod _ => qpskModBody
  | .qpskDemod _ => qpskDemodBody
  | .awgnReal _ => awgnRealBody
  | .awgnCplx _ => awgnCplxBody

theorem exec_eq_operate (i : Instr) (s : State) : exec i s = operate (shapeOf i) i.irqEn (bodyFor i) s := by
  cases i <;> rfl

@[simp] theorem shapeOf_code (i : Instr) : (shapeOf i).code = i.code := by cases i <;> rfl
@[simp] theorem shapeOf_inputSize (i : Instr) : elemSize (shapeOf i).input = inputSize i := by cases i <;> rfl
@[simp] theorem shapeOf_outputSize (i : Instr) : elemSize (shapeOf i).output = outputSize i := by cases i <;> rfl
@[simp] theorem shapeOf_outLen (i : Instr) (n : Nat) : (shapeOf i).outLen n = outputLen i n := by cases i <;> rfl
@[simp] theorem shapeOf_parity (i : Instr) : (shapeOf i).parity = oddError i := by cases i <;> rfl
@[simp] theorem shapeOf_checksBits (i : Instr) : (shapeOf i).checksBits = takesBits i := by cases i <;> rfl

/-- A body that answers gives exactly the bytes of its output elements, and makes the draws its rule gives. -/
theorem bodyFor_output {i : Instr} {s : State} {o : Output} (h : bodyFor i s = .ok o) :
    o.bytes.length = outBytes i s ∧ o.draws = drawsMade i s.inLen.toNat := by
  cases i <;> simp only [bodyFor] at h
  all_goals
    obtain ⟨xs, -, hl, rfl⟩ := bodyOf_eq_ok h
    simp only [outBytes, outputLen, outputSize, drawsMade]
  · rw [length_flatMap_const _ 8 realBytes_length, manEncode_length, hl]; exact ⟨by omega, trivial⟩
  · rw [manDecode_length, hl]; exact ⟨by omega, trivial⟩
  · rw [length_flatMap_const _ 8 realBytes_length, List.length_map, hl]; exact ⟨by omega, trivial⟩
  · rw [List.length_map, hl]; exact ⟨by omega, trivial⟩
  · rw [length_flatMap_const _ 16 cplxBytes_length, qpskMap_length, hl]; exact ⟨by omega, trivial⟩
  · rw [length_flatMap_const _ 2 qpskSlice_length, hl]; exact ⟨by omega, trivial⟩
  · rw [length_flatMap_const _ 8 realBytes_length, channelReal_length, hl]; exact ⟨by omega, rfl⟩
  · rw [length_flatMap_const _ 16 cplxBytes_length, channelCplx_length, hl]; exact ⟨by omega, rfl⟩

/-- A body stops only for a byte never written. -/
theorem bodyFor_error {i : Instr} {s : State} {f : Fault} (h : bodyFor i s = .error f) : f = .unwrittenInput := by
  cases i <;> exact bodyOf_eq_error h

/-- A body reads no field of the state that a START changes. -/
theorem bodyFor_start (i : Instr) (s : State) (op : BitVec 4) (q : Bool) : bodyFor i (s.start op q) = bodyFor i s := by
  cases i <;> rfl

/-- Where the input fits and has been written, a body answers. -/
theorem bodyFor_answers {i : Instr} {s : State} (h : inputWritten i s) : ∃ o, bodyFor i s = .ok o := by
  have bits : ∀ n, n = s.inLen.toNat → inBytes i s = n * 1 → ∃ xs, inputs s bitAt = some xs := by
    intro n hn hb
    cases hc : inputs s bitAt with
    | some xs => exact ⟨xs, rfl⟩
    | none =>
      obtain ⟨j, hj, hr⟩ := (collect_eq_none _ _ _).mp hc
      exact absurd (by simpa [bitAt] using hr) (h j (by omega))
  have reals : inBytes i s = s.inLen.toNat * 8 → ∃ xs, inputs s realAt = some xs := by
    intro hb
    cases hc : inputs s realAt with
    | some xs => exact ⟨xs, rfl⟩
    | none =>
      obtain ⟨j, hj, hr⟩ := (collect_eq_none _ _ _).mp hc
      obtain ⟨k, h1, h2, hk⟩ := (realAt_eq_none _ _).mp hr
      exact absurd hk (h k (by omega))
  have cplxs : inBytes i s = s.inLen.toNat * 16 → ∃ xs, inputs s cplxAt = some xs := by
    intro hb
    cases hc : inputs s cplxAt with
    | some xs => exact ⟨xs, rfl⟩
    | none =>
      obtain ⟨j, hj, hr⟩ := (collect_eq_none _ _ _).mp hc
      obtain ⟨k, h1, h2, hk⟩ := (cplxAt_eq_none _ _).mp hr
      exact absurd hk (h k (by omega))
  cases i
  case manEnc => obtain ⟨xs, hx⟩ := bits _ rfl rfl; exact ⟨_, bodyOf_ok hx⟩
  case manDec => obtain ⟨xs, hx⟩ := reals rfl; exact ⟨_, bodyOf_ok hx⟩
  case bpskMod => obtain ⟨xs, hx⟩ := bits _ rfl rfl; exact ⟨_, bodyOf_ok hx⟩
  case bpskDemod => obtain ⟨xs, hx⟩ := reals rfl; exact ⟨_, bodyOf_ok hx⟩
  case qpskMod => obtain ⟨xs, hx⟩ := bits _ rfl rfl; exact ⟨_, bodyOf_ok hx⟩
  case qpskDemod => obtain ⟨xs, hx⟩ := cplxs rfl; exact ⟨_, bodyOf_ok hx⟩
  case awgnReal => obtain ⟨xs, hx⟩ := reals rfl; exact ⟨_, bodyOf_ok hx⟩
  case awgnCplx => obtain ⟨xs, hx⟩ := cplxs rfl; exact ⟨_, bodyOf_ok hx⟩

/-- The state a successful command leaves, in the spec's terms. -/
theorem succeeded_eq {i : Instr} {s : State} {o : Output} (h : bodyFor i s = .ok o) :
    succeeded (shapeOf i) i.irqEn s o = succeededWith i s (Memory.writeList s.obuf 0 o.bytes) := by
  have hd := (bodyFor_output h).2
  simp [succeeded, succeededWith, State.start, State.writeOutput, State.advanceDraws, State.nextFree, State.complete, hd]

/-- Everything a command that answers a next state can have done (40_operation_common.md R108). -/
theorem exec_next {i : Instr} {s t : State} (h : exec i s = .next t) :
    (∃ c info, check (shapeOf i) s = .error c info ∧ t = failedWith i s c info) ∨
    (∃ o, check (shapeOf i) s = .pass ∧ bodyFor i s = .ok o ∧ o.bytes.length = outBytes i s ∧
      t = succeededWith i s (Memory.writeList s.obuf 0 o.bytes)) := by
  rw [exec_eq_operate] at h
  rcases operate_next h with ⟨c, info, hc, rfl⟩ | ⟨o, hc, hb, rfl⟩
  · exact .inl ⟨c, info, hc, by simp [failedWith, State.raiseError, State.start]⟩
  · rw [bodyFor_start] at hb
    exact .inr ⟨o, hc, hb, (bodyFor_output hb).1, succeeded_eq hb⟩

/-- A command whose checks pass and whose body answers succeeds. -/
theorem exec_success {i : Instr} {s : State} {o : Output} (hc : check (shapeOf i) s = .pass) (hb : bodyFor i s = .ok o) :
    exec i s = .next (succeededWith i s (Memory.writeList s.obuf 0 o.bytes)) := by
  rw [exec_eq_operate, operate_success hc (by rw [bodyFor_start]; exact hb), succeeded_eq hb]

/-- A command whose checks report an error ends with it. -/
theorem exec_error {i : Instr} {s : State} {c : ErrorCode} {info : Word} (hc : check (shapeOf i) s = .error c info) :
    exec i s = .next (failedWith i s c info) := by
  rw [exec_eq_operate, operate_error hc]
  simp [failedWith, State.raiseError, State.start]

/-- A command that stops does so for a byte never written, and no command refuses. -/
theorem exec_not_refused (i : Instr) (s : State) (r : Refusal) : exec i s ≠ .refused r := by
  rw [exec_eq_operate]; exact operate_not_refused _ _ _ _ _

/-- A command does not look at what the port holds, what is left to come, or the fields its own START sets: it gives the same state but for
the first three (40_operation_common.md R100, R102). -/
theorem exec_after_start {i : Instr} {s t : State} (h : exec i s = .next t) (op : BitVec 4) (q : Bool) (held : Option Request)
    (answer : Option Answer) (agenda : List Event) :
    exec i { s.start op q with held := held, answer := answer, agenda := agenda } =
      .next { t with held := held, answer := answer, agenda := agenda } := by
  rcases exec_next h with ⟨c, info, hc, rfl⟩ | ⟨o, hc, hb, _, rfl⟩
  · exact exec_error (s := { s.start op q with held := held, answer := answer, agenda := agenda }) hc
  · rw [exec_success (s := { s.start op q with held := held, answer := answer, agenda := agenda }) (o := o) hc]
    · rfl
    · rw [← hb]; cases i <;> rfl

/-- Values the registers hold, or that the command does not read, make no difference to it (40_operation_common.md R102). -/
theorem exec_withMeant {i : Instr} {s t : State} {snr : F64} {seed : BitVec 64} (h : exec i s = .next t)
    (hh : halvesConsistent i snr seed s) : exec i (withMeant snr seed s) = .next (withMeant snr seed t) := by
  have whole : ∀ {u : State}, u.snrDb = snr ∧ u.seed = seed → withMeant snr seed u = u := by
    intro u hu
    have split : ∀ x y : Word, (x ++ y).extractLsb' 32 32 = x ∧ (x ++ y).extractLsb' 0 32 = y := by
      intro x y
      constructor <;> apply BitVec.eq_of_getLsbD_eq <;> intro j hj <;>
        simp only [BitVec.getLsbD_extractLsb', BitVec.getLsbD_append, hj, decide_true, Bool.true_and]
      · rw [if_neg (by omega)]; congr 1; omega
      · simp [hj]
    rw [withMeant, ← hu.1, ← hu.2, State.snrDb, State.seed, (split _ _).1, (split _ _).1, (split _ _).2, (split _ _).2]
  by_cases hn : usesNoise i = true
  · have hs := hh hn
    have ht : t.snrDb = snr ∧ t.seed = seed := by
      have hk : t.snrHi = s.snrHi ∧ t.snrLo = s.snrLo ∧ t.seedHi = s.seedHi ∧ t.seedLo = s.seedLo := by
        rcases exec_next h with ⟨c, info, _, rfl⟩ | ⟨o, _, _, _, rfl⟩ <;> exact ⟨rfl, rfl, rfl, rfl⟩
      rw [State.snrDb, State.seed, hk.1, hk.2.1, hk.2.2.1, hk.2.2.2]; exact hs
    rw [whole hs, whole ht]; exact h
  · rcases exec_next h with ⟨c, info, hc, rfl⟩ | ⟨o, hc, hb, _, rfl⟩
    · exact exec_error (s := withMeant snr seed s) hc
    · rw [exec_success (s := withMeant snr seed s) (o := o) hc]
      · rfl
      · rw [← hb]; cases i <;> first | exact absurd rfl hn | rfl

/-! The words the engine decodes. -/

/-- The fields of a packed word (30_encoding.md R75). -/
@[simp] theorem startField_packWord (q : Bool) (op : BitVec 4) (b : Bool) : startField (packWord q op b) = b := by
  revert q op b; decide

@[simp] theorem opField_packWord (q : Bool) (op : BitVec 4) (b : Bool) : opField (packWord q op b) = op := by
  revert q op b; decide

@[simp] theorem irqField_packWord (q : Bool) (op : BitVec 4) (b : Bool) : irqField (packWord q op b) = q := by
  revert q op b; decide

theorem commandWord_turn (s : State) (rest : List Event) : commandWord (s.turn rest) = commandWord s := rfl

/-! The cases of `step`. -/

theorem step_reset {s : State} {rest : List Event} (h : s.agenda = .reset :: rest) : step s = .next (s.resetTo rest) := by
  simp [step, nextMove, h]

/-- The engine's turn: it runs the command its word decodes to. -/
def engineTurn (t : State) : Host.Outcome State Fault Refusal :=
  match engineMove t with
  | .run i u => exec i u
  | .finish o => o

theorem engineTurn_ok {t : State} {i : Instr} (h : decodeWord (commandWord t) = .ok i) : engineTurn t = exec i t := by
  simp [engineTurn, engineMove, h]

theorem engineTurn_error {t : State} {e : DecodeError} (h : decodeWord (commandWord t) = .error e) :
    engineTurn t = .next (t.raiseError .illegalOp 0) := by
  simp [engineTurn, engineMove, h]

theorem step_engine {s : State} {rest : List Event} (hb : s.phase = .busy) (h : s.agenda = .engine :: rest) :
    step s = engineTurn (s.turn rest) := by
  simp only [step, nextMove, h, hb]; rfl

theorem step_engine_empty {s : State} (hb : s.phase = .busy) (h : s.agenda = []) : step s = engineTurn (s.turn []) := by
  simp only [step, nextMove, h, hb]; rfl

theorem step_engine_blocked {s : State} {r r' : Request} {rest : List Event} (hb : s.phase = .busy) (hh : s.held = some r)
    (h : s.agenda = .present r' :: rest) : step s = engineTurn (s.turn (.present r' :: rest)) := by
  simp only [step, nextMove, h, hb, hh]; rfl

theorem step_present_busy {s : State} {r : Request} {rest : List Event} (hb : s.phase = .busy) (hh : s.held = none)
    (h : s.agenda = .present r :: rest) : step s = presentBusy r (s.turn rest) := by
  simp [step, nextMove, h, hb, hh]

theorem step_held {s : State} {r : Request} (hi : s.phase = .idle) (hh : s.held = some r) (h : s.agenda.head? ≠ some .reset) :
    step s = perform r { s.turn s.agenda with held := none } := by
  cases ha : s.agenda with
  | nil => simp [step, nextMove, ha, hi, hh]
  | cons e rest =>
    cases e with
    | reset => simp [ha] at h
    | engine => simp [step, nextMove, ha, hi, hh]
    | present r' => simp [step, nextMove, ha, hi, hh]

theorem step_present_idle {s : State} {r : Request} {rest : List Event} (hi : s.phase = .idle) (hh : s.held = none)
    (h : s.agenda = .present r :: rest) : step s = perform r (s.turn rest) := by
  simp [step, nextMove, h, hi, hh]

theorem step_idle_engine {s : State} {rest : List Event} (hi : s.phase = .idle) (hh : s.held = none)
    (h : s.agenda = .engine :: rest) : step s = .next (s.turn rest) := by
  simp [step, nextMove, h, hi, hh]

theorem step_idle_empty {s : State} (hi : s.phase = .idle) (hh : s.held = none) (h : s.agenda = []) :
    step s = .next (s.turn []) := by
  simp [step, nextMove, h, hi, hh]

/-- Everything one step can be. -/
theorem step_cases (s : State) :
    (∃ rest, s.agenda = .reset :: rest ∧ step s = .next (s.resetTo rest)) ∨
    (∃ rest, s.phase = .busy ∧ step s = engineTurn (s.turn rest)) ∨
    (∃ r rest, s.phase = .busy ∧ s.held = none ∧ s.agenda = .present r :: rest ∧ step s = presentBusy r (s.turn rest)) ∨
    (∃ r, s.phase = .idle ∧ s.held = some r ∧ step s = perform r { s.turn s.agenda with held := none }) ∨
    (∃ r rest, s.phase = .idle ∧ s.held = none ∧ s.agenda = .present r :: rest ∧ step s = perform r (s.turn rest)) ∨
    (∃ rest, s.phase = .idle ∧ s.held = none ∧ step s = .next (s.turn rest)) := by
  cases ha : s.agenda with
  | nil =>
    cases hp : s.phase with
    | busy => exact .inr (.inl ⟨[], rfl, step_engine_empty hp ha⟩)
    | idle =>
      cases hh : s.held with
      | none => exact .inr (.inr (.inr (.inr (.inr ⟨[], rfl, rfl, step_idle_empty hp hh ha⟩))))
      | some r => exact .inr (.inr (.inr (.inl ⟨r, rfl, rfl, by rw [← ha]; exact step_held hp hh (by simp [ha])⟩)))
  | cons e rest =>
    cases e with
    | reset => exact .inl ⟨rest, rfl, step_reset ha⟩
    | engine =>
      cases hp : s.phase with
      | busy => exact .inr (.inl ⟨rest, rfl, step_engine hp ha⟩)
      | idle =>
        cases hh : s.held with
        | none => exact .inr (.inr (.inr (.inr (.inr ⟨rest, rfl, rfl, step_idle_engine hp hh ha⟩))))
        | some r => exact .inr (.inr (.inr (.inl ⟨r, rfl, rfl, by rw [← ha]; exact step_held hp hh (by simp [ha])⟩)))
    | present r' =>
      cases hp : s.phase with
      | busy =>
        cases hh : s.held with
        | none => exact .inr (.inr (.inl ⟨r', rest, rfl, rfl, rfl, step_present_busy hp hh ha⟩))
        | some r => exact .inr (.inl ⟨_, rfl, step_engine_blocked hp hh ha⟩)
      | idle =>
        cases hh : s.held with
        | none => exact .inr (.inr (.inr (.inr (.inl ⟨r', rest, rfl, rfl, rfl, step_present_idle hp hh ha⟩))))
        | some r => exact .inr (.inr (.inr (.inl ⟨r, rfl, rfl, by rw [← ha]; exact step_held hp hh (by simp [ha])⟩)))

/-- While busy the turns before the completion change nothing but what the port holds, what it answers and what is left, and the engine's
turn comes after them (20_memory.md R56). -/
theorem steps_beforeCompletion (i : Instr) : ∀ (rest : List Event) (s : State), s.agenda = rest → s.phase = .busy →
    decodeWord (commandWord s) = .ok i → .reset ∉ beforeCompletion s.held.isSome rest →
    (∀ r, .present r ∈ beforeCompletion s.held.isSome rest → r.wellFormed = true) →
    ∃ u more, stepsTo (beforeCompletion s.held.isSome rest).length s u ∧
      u = { s with held := u.held, answer := u.answer, agenda := u.agenda } ∧ step u = exec i (u.turn more)
  | [], s, ha, hb, hd, _, _ => ⟨s, [], rfl, rfl, (step_engine_empty hb ha).trans (engineTurn_ok (t := s.turn []) hd)⟩
  | .engine :: rest, s, ha, hb, hd, _, _ => ⟨s, rest, rfl, rfl, (step_engine hb ha).trans (engineTurn_ok (t := s.turn rest) hd)⟩
  | .reset :: _, _, _, _, _, hr, _ => absurd (List.mem_singleton.mpr rfl) hr
  | .present r :: rest, s, ha, hb, hd, hr, hw => by
    cases hh : s.held with
    | some r' =>
      exact ⟨s, _, by simp [beforeCompletion, stepsTo], rfl,
        (step_engine_blocked hb hh ha).trans (engineTurn_ok (t := s.turn _) hd)⟩
    | none =>
      rw [hh] at hr hw
      simp only [Option.isSome_none, beforeCompletion, Bool.false_eq_true, if_false, List.mem_cons, not_or] at hr hw
      have hwf := hw r (.inl rfl)
      have hstep : ∃ x, step s = .next x ∧ x = { s with held := x.held, answer := x.answer, agenda := rest } ∧
          x.held.isSome = !isStatusRead r := by
        rw [step_present_busy hb hh ha]
        unfold presentBusy
        rw [if_pos hwf]
        cases hs : isStatusRead r with
        | true =>
          cases r with
          | write a w d => cases hs
          | read a w =>
            have : a = regOffset .status := of_decide_eq_true hs
            subst this
            rw [if_pos rfl, perform_read hwf (hostRead_reg _ _)]
            exact ⟨_, rfl, rfl, by simp [State.turn, hh]⟩
        | false => exact ⟨{ s.turn rest with held := some r }, by simp, rfl, rfl⟩
      obtain ⟨x, hx, hxe, hxh⟩ := hstep
      have hxa : x.agenda = rest := by rw [hxe]
      have hxb : x.phase = .busy := by rw [hxe]; exact hb
      have hxd : decodeWord (commandWord x) = .ok i := by rw [hxe]; exact hd
      obtain ⟨u, more, h1, h2, h3⟩ := steps_beforeCompletion i rest x hxa hxb hxd (by rw [hxh]; exact hr.2)
        (by rw [hxh]; exact fun r h => hw r (.inr h))
      refine ⟨u, more, ?_, ?_, h3⟩
      · simp only [Option.isSome_none, beforeCompletion, Bool.false_eq_true, if_false, List.length_cons]
        rw [hxh] at h1
        exact ⟨x, hx, h1⟩
      · rw [h2, hxe]

/-- Steps after steps. -/
theorem stepsTo_append : ∀ (n m : Nat) {s u t : State}, stepsTo n s u → stepsTo m u t → stepsTo (n + m) s t
  | 0, m, _, _, _, h, h' => by rw [Nat.zero_add, h]; exact h'
  | n + 1, m, _, _, _, ⟨x, hx, h⟩, h' => by rw [Nat.add_right_comm]; exact ⟨x, hx, stepsTo_append n m h h'⟩

/-- What the engine's turn leaves when it answers a next state. -/
theorem engineTurn_next {s t : State} (h : engineTurn s = .next t) :
    (∃ i, decodeWord (commandWord s) = .ok i ∧ exec i s = .next t) ∨ t = s.raiseError .illegalOp 0 := by
  cases hd : decodeWord (commandWord s) with
  | ok i => rw [engineTurn_ok hd] at h; exact .inl ⟨i, rfl, h⟩
  | error e => rw [engineTurn_error hd] at h; cases h; exact .inr rfl

/-! The port. -/

/-- What a performed transaction leaves when it answers a next state. -/
theorem perform_next {r : Request} {s t : State} (h : perform r s = .next t) :
    r.wellFormed = true ∧
    ((∃ a w d, r = .read a w ∧ hostRead s a = .ok d ∧ t = { s with answer := some (.read a d) }) ∨
     (∃ a w d, r = .write a w d ∧ t = { hostWrite s a d with answer := some (.write a d) })) := by
  unfold perform at h
  split at h
  · rename_i hw
    refine ⟨hw, ?_⟩
    cases r with
    | read a w =>
      simp only at h
      split at h
      · rename_i d hd; cases h; exact .inl ⟨a, w, d, rfl, hd, rfl⟩
      · cases h
    | write a w d => cases h; exact .inr ⟨a, w, d, rfl, rfl⟩
  · cases h

/-- What a request presented while busy leaves when it answers a next state. -/
theorem presentBusy_next {r : Request} {s t : State} (h : presentBusy r s = .next t) :
    r.wellFormed = true ∧
    ((isStatusRead r = true ∧ perform r s = .next t) ∨ (isStatusRead r = false ∧ t = { s with held := some r })) := by
  unfold presentBusy at h
  split at h
  · rename_i hw
    refine ⟨hw, ?_⟩
    split at h
    · rename_i hs; exact .inl ⟨hs, h⟩
    · rename_i hs; cases h; exact .inr ⟨by simpa using hs, rfl⟩
  · cases h

/-- Every effect a host write can have. -/
theorem hostWrite_cases (s : State) (a : Nat) (w : Word) :
    hostWrite s a w = s ∨ hostWrite s a w = writeCtrl s w ∨ hostWrite s a w = s.clearDone ∨
    hostWrite s a w = { s with inLen := w } ∨ hostWrite s a w = { s with snrLo := w } ∨
    hostWrite s a w = { s with snrHi := w } ∨ hostWrite s a w = { s with seedLo := w, drawCnt := 0 } ∨
    hostWrite s a w = { s with seedHi := w, drawCnt := 0 } ∨
    (∃ k, k + 4 ≤ s.cfg.ibufBytes ∧ hostWrite s a w = { s with ibuf := Memory.writeList s.ibuf k (leBytes 4 w.toNat) }) := by
  unfold hostWrite
  split
  · cases regAt a with
    | none => simp
    | some r =>
      cases r
      case status =>
        by_cases h : w.getLsbD 1 = true
        · exact .inr (.inr (.inl (by simp only [regWrite, if_pos h])))
        · exact .inl (by simp only [regWrite, if_neg h])
      all_goals simp [regWrite]
  · by_cases h : a - 0x100000 + 4 ≤ s.cfg.ibufBytes
    · refine .inr (.inr (.inr (.inr (.inr (.inr (.inr (.inr ⟨_, h, ?_⟩)))))))
      simp [h]
    · simp [h]
  · simp
  · simp

end Sys2Proof.Machine
end

