-- ==== Sys2Proof/Tests/Slice0.lean ====
section
/-! SUPPORT. Small tests with expected values from spec/95_test_vectors.md (its vector's number stands in each comment) and from words
written out from 30_encoding.md, and one witness for each statement that has hypotheses. -/
namespace Sys2Proof.Tests
open Sys2Proof Sys2Proof.Machine

set_option Elab.async false

/-! Small states and what is looked at in an outcome. -/

/-- The reset state with `bytes` in IBUF from offset 0 on and `IN_LEN` = `n`. -/
def loaded (n : Nat) (bytes : List Byte) : State :=
  { State.reset with inLen := BitVec.ofNat 32 n, ibuf := Memory.writeList [] 0 bytes }

def bitState (bs : List Byte) : State := loaded bs.length bs
def realState (xs : List F64) : State := loaded xs.length (xs.flatMap realBytes)
def cplxState (zs : List (F64 × F64)) : State := loaded zs.length (zs.flatMap cplxBytes)

/-- The state an outcome gives, or the reset state where it gives none. -/
def result (o : Host.Outcome State Fault Refusal) : State :=
  match o with
  | .next t => t
  | _ => State.reset

/-- Whether an outcome is a next state. -/
def isNext (o : Host.Outcome State Fault Refusal) : Bool :=
  match o with
  | .next _ => true
  | _ => false

/-- `STATUS`, `OUT_LEN` and `ERR_INFO` as the host would read them after an outcome. -/
def report (o : Host.Outcome State Fault Refusal) : Option (Word × Word × Word) :=
  match o with
  | .next t => some (statusWord t, t.outLen, t.errInfo)
  | _ => none

def bitsOf (o : Host.Outcome State Fault Refusal) (n : Nat) : Option (List Byte) := Memory.bytes (result o).obuf 0 n
def realsOf (o : Host.Outcome State Fault Refusal) (n : Nat) : Option (List F64) := collect (realAt (result o).obuf) 0 n
def cplxOf (o : Host.Outcome State Fault Refusal) (n : Nat) : Option (List (F64 × F64)) := collect (cplxAt (result o).obuf) 0 n

/-- The port's answer in an outcome. -/
def answerOf (o : Host.Outcome State Fault Refusal) : Option Answer := (result o).answer

def nan : F64 := 0x7FF8000000000000
def sqrtHalf : F64 := 0x3FE6A09E667F3BCD
def minusSqrtHalf : F64 := 0xBFE6A09E667F3BCD

/-- Draws given as a list. -/
def draws (zs : List F64) (j : Nat) : F64 := zs.getD j 0

/-- No NaN payload matters where no operand is a NaN. -/
def noNan : Config.NanSite → F64 := fun _ => 0

/-! Decoding: words from the table of 30_encoding.md R81, bit 0 = START, bits 7:4 = OP, bit 8 = IRQ_EN. -/

theorem test_decode_man_enc : decodeWord 0b00000000000000000000000000010001 = .ok (.manEnc false) := by decide
theorem test_decode_man_dec : decodeWord 0b00000000000000000000000000100001 = .ok (.manDec false) := by decide
theorem test_decode_bpsk_mod : decodeWord 0b00000000000000000000000000110001 = .ok (.bpskMod false) := by decide
theorem test_decode_bpsk_demod : decodeWord 0b00000000000000000000000001000001 = .ok (.bpskDemod false) := by decide
theorem test_decode_qpsk_mod : decodeWord 0b00000000000000000000000001010001 = .ok (.qpskMod false) := by decide
theorem test_decode_qpsk_demod : decodeWord 0b00000000000000000000000001100001 = .ok (.qpskDemod false) := by decide
theorem test_decode_awgn_real : decodeWord 0b00000000000000000000000001110001 = .ok (.awgnReal false) := by decide
theorem test_decode_awgn_cplx : decodeWord 0b00000000000000000000000010000001 = .ok (.awgnCplx false) := by decide
/-- `IRQ_EN` is bit 8; bits 31:9 and 3:1 do not matter (E8). -/
theorem test_decode_irq_and_ignored_bits :
    decodeWord 0x00000131 = .ok (.bpskMod true) ∧ decodeWord 0xFFFFFE31 = .ok (.bpskMod false) ∧
    decodeWord 0xFFFFFFFF = .error (.reservedOp 15) := by decide
/-- E9, E10, E6: reserved codes and a word without START. -/
theorem test_decode_rejects :
    decodeWord 0x00000001 = .error (.reservedOp 0) ∧ decodeWord 0x00000091 = .error (.reservedOp 9) ∧
    decodeWord 0x000000F1 = .error (.reservedOp 15) ∧ decodeWord 0x00000150 = .error .noStart ∧
    decode [0x31, 0x00, 0x00] = .error .truncated := by decide
/-- `STARTI BPSK_DEMOD` of 30_encoding.md R92, as a word and as bytes, lowest first. -/
theorem test_encode_words : encode (.bpskDemod true) = 0x00000141 ∧ encodeBytes (.bpskDemod true) = [0x41, 0x01, 0x00, 0x00] := by
  decide
theorem test_table_words :
    decodeTableWord 32 0x81 = some (.awgnCplx false) ∧ decodeTableWord 32 0x91 = none ∧ decodeTableWord 32 0x80 = none := by
  decide

/-! Well-formedness: a term for each check of a request, refused. Every command term is well formed. -/

theorem test_ill_formed_width : (Request.read 0x00C 16).wellFormed = false := by decide
theorem test_ill_formed_alignment : (Request.write 0x102 32 0).wellFormed = false := by decide
theorem test_ill_formed_offset : (Request.read 0x400000 32).wellFormed = false := by decide
theorem test_well_formed : (Request.read 0x3FFFFC 32).wellFormed = true ∧ (Instr.manEnc true).wellFormed = true := by decide

/-! Arithmetic (00_scope.md R11). -/

/-- Rows of 95_test_vectors.md: 0.5 of M12, M17, M18, Q14 with both values of `QPSK_S`, and the root of A16. -/
theorem test_arithmetic :
    fdiv 0 (fadd 0 0x3FE0000000000000 0xBFE0000000000000) two = plusZero ∧
    fadd 0 0x7FEFFFFFFFFFFFFF 0x7FEFFFFFFFFFFFFF = plusInf ∧ fdiv 0 0x0000000000000001 two = plusZero ∧
    fadd 0 (fmul 0 sqrtHalf sqrtHalf) (fmul 0 sqrtHalf sqrtHalf) = 0x3FF0000000000001 ∧
    fadd 0 (fmul 0 0x3FE6A09E667F3BCC 0x3FE6A09E667F3BCC) (fmul 0 0x3FE6A09E667F3BCC 0x3FE6A09E667F3BCC) = 0x3FEFFFFFFFFFFFFE ∧
    fsqrt 0 0x3FE0000000000000 = sqrtHalf := by decide +kernel
/-- Special values: signed zeros (A9, A10), ∞ − ∞ and ∞ · 0 are the default NaN, the root of a negative value is one, −0 = +0. -/
theorem test_special_values :
    fadd 0 plusZero minusZero = plusZero ∧ fadd 0 minusZero minusZero = minusZero ∧ fadd 0 plusInf minusInf = defaultNaN ∧
    fmul 0 plusInf plusZero = defaultNaN ∧ fsqrt 0 minusOne = defaultNaN ∧ fsub 0 plusOne plusOne = plusZero ∧
    feq minusZero plusZero = true ∧ fgt nan plusZero = false ∧ flt nan plusZero = false ∧ feq nan nan = false := by decide +kernel
/-- 44_awgn.md R152 and A5, A12: whole powers are exact, −∞ gives +0.0, far values overflow and underflow. -/
theorem test_exp_ten :
    exp10Rounded 0x4018000000000000 = 0x412E848000000000 ∧ exp10Rounded minusZero = plusOne ∧ exp10Rounded minusInf = plusZero ∧
    exp10Rounded plusOne = ten ∧ exp10Rounded 0x4074000000000000 = plusInf ∧ exp10Rounded 0xC079000000000000 = plusZero := by
  decide +kernel

/-! The operations. Each answers from the state a test builds; the expected values are the vectors'. -/

/-- M4. -/
theorem test_man_enc :
    report (exec (.manEnc false) (bitState [1, 0, 1, 1])) = some (0x00000002, 8, 0) ∧
    realsOf (exec (.manEnc false) (bitState [1, 0, 1, 1])) 8 =
      some [plusOne, minusOne, minusOne, plusOne, plusOne, minusOne, plusOne, minusOne] := by decide +kernel
/-- P21: an invalid last bit suppresses every output. -/
theorem test_man_enc_invalid_bit :
    report (exec (.manEnc false) (bitState [1, 0, 1, 0xFF])) = some (0x00000102, 0, 3) ∧
    (result (exec (.manEnc false) (bitState [1, 0, 1, 0xFF]))).obuf = [] := by decide +kernel
/-- M5, M6, M7, M13, M14, M18 and M17, one pair each. -/
theorem test_man_dec :
    bitsOf (exec (.manDec false) (realState
      [plusOne, minusOne, minusOne, plusOne, 0x3FF4000000000000, 0xBFE8000000000000, plusOne, 0xBFF0000000000001,
        0x3FF0000000000001, minusOne, 0x0000000000000001, plusZero, 0x7FEFFFFFFFFFFFFF, 0x7FEFFFFFFFFFFFFF])) 7 = some [1, 0, 1, 0, 1, 0, 1] := by
  decide +kernel
/-- P14: an odd length is `INVALID_LENGTH`, not `ODD_LENGTH`. P16: 17 output bytes do not fit 16. -/
theorem test_man_dec_errors :
    report (exec (.manDec false) (loaded 3 [])) = some (0x00000302, 0, 0) ∧
    report (exec (.manDec false) { loaded 34 [] with cfg := { Config.defaults with obufBytes := 16 } }) =
      some (0x00000602, 0, 1) := by decide +kernel
/-- B1. -/
theorem test_bpsk_mod :
    report (exec (.bpskMod true) (bitState [0, 1, 1, 0])) = some (0x00000002, 4, 0) ∧
    realsOf (exec (.bpskMod true) (bitState [0, 1, 1, 0])) 4 = some [minusOne, plusOne, plusOne, minusOne] := by decide +kernel
/-- P22: a byte 0x02 is rejected. P3 and P1: capacities. -/
theorem test_bpsk_mod_errors :
    report (exec (.bpskMod false) (bitState [2])) = some (0x00000102, 0, 0) ∧
    report (exec (.bpskMod false) (loaded 65537 [])) = some (0x00000602, 0, 0) ∧
    report (exec (.bpskMod false) (loaded 65536 [])) = some (0x00000602, 0, 1) := by decide +kernel
/-- B3, B4, B5, B6 in one stream. -/
theorem test_bpsk_demod :
    bitsOf (exec (.bpskDemod false) (realState
      [plusZero, minusZero, 0x0000000000000001, 0x8000000000000001, plusInf, minusInf, nan, 0xFFF8000000000001])) 8 =
      some [0, 0, 1, 0, 1, 0, 0, 0] := by decide +kernel
/-- R39: an input byte never written stops the operation. -/
theorem test_bpsk_demod_unwritten : (match exec (.bpskDemod false) (loaded 1 [0, 0, 0, 0, 0, 0, 0]) with
    | .fault .unwrittenInput => true
    | _ => false) = true := by decide +kernel
/-- Q1 to Q4. -/
theorem test_qpsk_mod :
    report (exec (.qpskMod false) (bitState [0, 0, 0, 1, 1, 1, 1, 0])) = some (0x00000002, 4, 0) ∧
    cplxOf (exec (.qpskMod false) (bitState [0, 0, 0, 1, 1, 1, 1, 0])) 4 =
      some [(sqrtHalf, sqrtHalf), (minusSqrtHalf, sqrtHalf), (minusSqrtHalf, minusSqrtHalf), (sqrtHalf, minusSqrtHalf)] := by
  decide +kernel
/-- P7, P9: parity comes before bits, and the lowest bad index is reported. -/
theorem test_qpsk_mod_errors :
    report (exec (.qpskMod false) (bitState [2])) = some (0x00000202, 0, 0) ∧
    report (exec (.qpskMod false) (bitState [0, 0, 5, 7])) = some (0x00000102, 0, 2) := by decide +kernel
/-- Q8, Q9, Q10, Q13 in one stream. -/
theorem test_qpsk_demod :
    bitsOf (exec (.qpskDemod false) (cplxState [(plusZero, plusZero), (minusZero, minusOne), (0xC000000000000000, plusZero),
      (nan, minusOne)])) 8 = some [0, 0, 1, 0, 0, 1, 1, 0] := by decide +kernel
/-- P18. -/
theorem test_qpsk_demod_capacity : report (exec (.qpskDemod false) (loaded 4097 [])) = some (0x00000602, 0, 0) := by decide +kernel
/-- A1, A2, A6 and A12, with `snr_lin` as the vectors give it. -/
theorem test_awgn_real :
    channelReal noNan plusOne (draws [0x3FE0000000000000, 0xBFD0000000000000]) [plusOne, minusOne] =
      [0x3FF8000000000000, 0xBFF4000000000000] ∧
    channelReal noNan 0x4059000000000000 (draws [plusOne, 0xC000000000000000]) [plusOne, minusOne] =
      [0x3FF199999999999A, 0xBFF3333333333333] ∧
    channelReal noNan plusOne (draws [0x3FE0000000000000, plusOne, minusOne]) [two, plusZero, 0xC000000000000000] =
      [0x4006882F5C030B10, 0x3FFA20BD700C2C3E, 0xC00D105EB806161F] ∧
    channelReal noNan plusZero (draws [0x3FE0000000000000, 0xBFD0000000000000]) [plusOne, minusOne] = [plusInf, minusInf] := by
  decide +kernel
/-- A8 and A19: no draw for an empty stream, and the count wraps; A14: a NaN SNR gives a NaN. -/
theorem test_awgn_real_draws :
    (result (exec (.awgnReal false) { loaded 0 [] with drawCnt := 5 })).drawCnt = 5 ∧
    (result (exec (.awgnReal false) { realState [plusOne] with drawCnt := 0xFFFFFFFFFFFFFFFF })).drawCnt = 0 ∧
    report (exec (.awgnReal false) { realState [plusOne] with snrHi := 0x7FF80000 }) = some (0x00000002, 1, 0) := by decide +kernel
/-- A16 and A17. -/
theorem test_awgn_cplx :
    channelCplx noNan plusOne (draws [plusOne, plusZero, plusZero, minusOne]) [(plusOne, plusZero), (plusZero, minusOne)] =
      [(0x3FFB504F333F9DE6, plusZero), (plusZero, 0xBFFB504F333F9DE6)] ∧
    channelCplx noNan plusOne (draws [plusOne, minusOne, 0x3FE0000000000000, plusZero])
      [(sqrtHalf, sqrtHalf), (minusSqrtHalf, minusSqrtHalf)] =
      [(0x3FF6A09E667F3BCD, plusZero), (0xBFD6A09E667F3BCD, minusSqrtHalf)] := by decide +kernel
/-- P19 and the count of A17. -/
theorem test_awgn_cplx_draws :
    report (exec (.awgnCplx false) (loaded 4097 [])) = some (0x00000602, 0, 0) ∧
    (result (exec (.awgnCplx false) (cplxState [(plusOne, plusZero), (plusZero, minusOne)]))).drawCnt = 4 := by decide +kernel

/-! The port and the registers. -/

/-- Performing one write, then reading one offset back. -/
def writeThenRead (s : State) (a : Nat) (w : Word) (b : Nat) : Except Fault Word := hostRead (hostWrite s a w) b

/-- What a read returns, as data that can be compared. -/
def readWord (s : State) (a : Nat) : Option Word := (hostRead s a).toOption

/-- E1, E2, E3, E5. -/
theorem test_identification :
    readWord State.reset 0x000 = some 0x4D444D31 ∧ readWord State.reset 0x004 = some 0x00010000 ∧
    readWord (hostWrite State.reset 0x000 0) 0x000 = some 0x4D444D31 ∧ readWord State.reset 0x038 = some 0x00010000 ∧
    readWord State.reset 0x03C = some 0x00010000 := by decide +kernel
/-- E4. -/
theorem test_reset_registers :
    [0x008, 0x00C, 0x010, 0x014, 0x018, 0x020, 0x024, 0x028, 0x02C, 0x030, 0x034].map (readWord State.reset) =
      List.replicate 11 (some 0) := by decide +kernel
/-- E6, E7, E8: the two stored fields read back, START reads 0, ignored bits read 0. -/
theorem test_ctrl :
    readWord (hostWrite State.reset 0x008 0x00000150) 0x008 = some 0x00000150 ∧
    readWord (hostWrite State.reset 0x008 0x00000031) 0x008 = some 0x00000030 ∧
    readWord (hostWrite State.reset 0x008 0xFFFFFE31) 0x008 = some 0x00000030 := by decide +kernel
/-- E9, E10: a reserved code, from the START write to the report. -/
theorem test_illegal_op :
    report (step (State.reset.withFetchWord 32 0x01)) = some (0x00000502, 0, 0) ∧
    report (step (State.reset.withFetchWord 32 0x91)) = some (0x00000502, 0, 0) ∧
    report (step (State.reset.withFetchWord 32 0xF1)) = some (0x00000502, 0, 0) := by decide +kernel
/-- E11, after a write of all ones to each. -/
theorem test_reserved_space :
    [0x01C, 0x040, 0xFFC, 0x001000, 0x300000].map (fun a => readWord (hostWrite State.reset a 0xFFFFFFFF) a) =
      List.replicate 5 (some 0) := by decide +kernel
/-- E13, E14, and IBUF bytes as E14 lists them. -/
theorem test_ibuf :
    readWord (hostWrite State.reset 0x110000 1) 0x110000 = some 0 ∧
    Memory.bytes (hostWrite State.reset 0x100000 0x44332211).ibuf 0 4 = some [0x11, 0x22, 0x33, 0x44] ∧
    readWord (hostWrite State.reset 0x100000 0x44332211) 0x100000 = some 0x44332211 := by decide +kernel
/-- E12: OBUF ignores writes; the words of B1's output, low half first. -/
theorem test_obuf :
    readWord (hostWrite (result (exec (.bpskMod false) (bitState [0, 1]))) 0x200000 0x12345678) 0x200000 = some 0 ∧
    readWord (result (exec (.bpskMod false) (bitState [0, 1]))) 0x200004 = some 0xBFF00000 ∧
    readWord State.reset 0x200000 = none ∧ readWord State.reset 0x210000 = some 0 := by decide +kernel
/-- E15: only bit 1 clears `DONE`, and `ERR` is kept. -/
theorem test_status_clear :
    readWord (hostWrite { State.reset with done := true, err := .capacity } 0x00C 1) 0x00C = some 0x00000602 ∧
    readWord (hostWrite { State.reset with done := true, err := .capacity } 0x00C 2) 0x00C = some 0x00000600 := by decide +kernel
/-- E16. -/
theorem test_seed_write :
    readWord (hostWrite { State.reset with drawCnt := 6, seedHi := 9 } 0x02C 0) 0x030 = some 0 ∧
    (hostWrite { State.reset with drawCnt := 6, seedHi := 9 } 0x02C 0).seed = 0 := by decide +kernel
/-- E17. -/
theorem test_irq :
    (hostWrite { State.reset with done := true } 0x008 0x100).irq = true ∧
    (hostWrite (hostWrite { State.reset with done := true } 0x008 0x100) 0x00C 2).irq = false := by decide +kernel

/-- The state after a START of `BPSK_DEMOD` on two reals, with more to come. -/
def busyState (more : List Event) : State :=
  { realState [minusOne, plusOne] with op := 4, phase := .busy, agenda := more }

/-- E18: a STATUS read while busy is answered at once. -/
theorem test_status_while_busy :
    answerOf (step (busyState [.present (.read 0x00C 32)])) = some (.read 0x00C 0x00000001) := by decide +kernel
/-- E19: `OUT_LEN` read while busy is held, the engine runs, and the read then sees the new value. -/
theorem test_held_read :
    answerOf (Host.Core.run Sys2Proof.core 3 (busyState [.present (.read 0x014 32), .engine])) = some (.read 0x014 2) ∧
    (result (step (busyState [.present (.read 0x014 32), .engine]))).held = some (.read 0x014 32) := by decide +kernel
/-- The first step after reset runs the placed command, with its length 0 (M1, M21, B2, Q6, A8, A18). -/
theorem test_first_step :
    [0x11, 0x21, 0x31, 0x41, 0x51, 0x61, 0x71, 0x81].map (fun w => report (step (State.reset.withFetchWord 32 w))) =
      List.replicate 8 (some (0x00000002, 0, 0)) := by decide +kernel
/-- 70_reset_and_hazards.md R190: a reset drops what is held and marks every buffer byte unwritten. -/
theorem test_reset_step :
    (result (step { busyState [.reset] with held := some (.read 0x014 32) })).held = none ∧
    (result (step (busyState [.reset]))).ibuf = [] ∧ (result (step (busyState [.reset]))).phase = .idle := by decide +kernel
/-- The memory form after a write below, between and over what is there. -/
theorem test_memory_form :
    Memory.write (Memory.write (Memory.write [(4, 1)] 2 7) 3 8) 4 9 = [(2, 7), (3, 8), (4, 9)] ∧
    Memory.wf [(2, 7), (3, 8), (4, 9)] = true ∧ Memory.wf [(3, 7), (3, 8)] = false := by decide

/-! Witnesses. Each shows a concrete state and operands that meet every hypothesis of the statement it is named for; where a statement has
several clauses, one for each, at the ends of its range. -/

/-- Bits at the last index of each kind, for the three operations that take bits. -/
theorem test_witness_man_enc :
    lengthsPass (.manEnc false) (bitState [0, 1]) ∧ bitsUpTo (bitState [0, 1]) 2 ∧ (bitState [0, 1]).inLen.toNat = 2 ∧
    Memory.read (bitState [0, 1]).ibuf 1 = some 1 ∧ Memory.read (bitState [0, 1]).ibuf 0 = some 0 := by
  unfold lengthsPass bitsUpTo; decide +kernel
theorem test_witness_bpsk_mod :
    lengthsPass (.bpskMod true) (bitState [0, 1]) ∧ bitsUpTo (bitState [0, 1]) 2 ∧ (bitState [0, 1]).inLen.toNat = 2 ∧
    Memory.read (bitState [0, 1]).ibuf 1 = some 1 ∧ Memory.read (bitState [0, 1]).ibuf 0 = some 0 := by
  unfold lengthsPass bitsUpTo; decide +kernel
theorem test_witness_qpsk_mod :
    lengthsPass (.qpskMod false) (bitState [0, 0, 0, 1, 1, 1, 1, 0]) ∧ bitsUpTo (bitState [0, 0, 0, 1, 1, 1, 1, 0]) 8 ∧
    (bitState [0, 0, 0, 1, 1, 1, 1, 0]).inLen.toNat = 8 ∧
    (List.range 8).map (Memory.read (bitState [0, 0, 0, 1, 1, 1, 1, 0]).ibuf) =
      [some 0, some 0, some 0, some 1, some 1, some 1, some 1, some 0] := by
  unfold lengthsPass bitsUpTo; decide +kernel
/-- One pair for each of the three rules: exact, exact, mean. -/
theorem test_witness_man_dec :
    lengthsPass (.manDec false) (realState [plusOne, minusOne, minusOne, plusOne, plusOne, plusOne]) ∧
    inputWritten (.manDec false) (realState [plusOne, minusOne, minusOne, plusOne, plusOne, plusOne]) ∧
    collect (realAt (realState [plusOne, minusOne, minusOne, plusOne, plusOne, plusOne]).ibuf) 0 6 =
      some [plusOne, minusOne, minusOne, plusOne, plusOne, plusOne] := by
  unfold lengthsPass inputWritten; decide +kernel
theorem test_witness_bpsk_demod :
    lengthsPass (.bpskDemod false) (realState [plusOne]) ∧ inputWritten (.bpskDemod false) (realState [plusOne]) ∧
    realAt (realState [plusOne]).ibuf 0 = some plusOne := by
  unfold lengthsPass inputWritten; decide +kernel
theorem test_witness_qpsk_demod :
    lengthsPass (.qpskDemod false) (cplxState [(plusOne, minusOne)]) ∧
    inputWritten (.qpskDemod false) (cplxState [(plusOne, minusOne)]) ∧
    cplxAt (cplxState [(plusOne, minusOne)]).ibuf 0 = some (plusOne, minusOne) := by
  unfold lengthsPass inputWritten; decide +kernel
theorem test_witness_awgn_real :
    lengthsPass (.awgnReal false) (realState [plusOne, minusOne]) ∧ (realState [plusOne, minusOne]).inLen.toNat = 2 ∧
    ∀ i, i < 2 → realAt (realState [plusOne, minusOne]).ibuf i = [plusOne, minusOne][i]? := by
  unfold lengthsPass; decide +kernel
theorem test_witness_awgn_cplx :
    lengthsPass (.awgnCplx false) (cplxState [(plusOne, minusOne)]) ∧ (cplxState [(plusOne, minusOne)]).inLen.toNat = 1 ∧
    ∀ i, i < 1 → cplxAt (cplxState [(plusOne, minusOne)]).ibuf i = [(plusOne, minusOne)][i]? := by
  unfold lengthsPass; decide +kernel
/-- The first lengths that do not fit: 65537 bits in, and 8193 reals out (P3, P2). -/
theorem test_witness_sizes_that_do_not_fit :
    (loaded 65537 []).cfg.ibufBytes < inBytes (.bpskMod false) (loaded 65537 []) ∧
    inBytes (.bpskMod false) (loaded 8193 []) ≤ (loaded 8193 []).cfg.ibufBytes ∧
    (oddError (.bpskMod false) = none ∨ (loaded 8193 []).inLen.toNat % 2 = 0) ∧
    (loaded 8193 []).cfg.obufBytes < outBytes (.bpskMod false) (loaded 8193 []) := by decide +kernel
/-- The greatest odd lengths that fit (P11; the one below P15). -/
theorem test_witness_odd_length :
    (loaded 65535 []).inLen.toNat % 2 = 1 ∧ inBytes (.qpskMod false) (loaded 65535 []) ≤ (loaded 65535 []).cfg.ibufBytes ∧
    (loaded 8191 []).inLen.toNat % 2 = 1 ∧ inBytes (.manDec false) (loaded 8191 []) ≤ (loaded 8191 []).cfg.ibufBytes := by
  decide +kernel
/-- The bad byte first (P22) and last (P21). -/
theorem test_witness_lowest_invalid_bit :
    lengthsPass (.bpskMod false) (bitState [2]) ∧ bitsUpTo (bitState [2]) 0 ∧ Memory.read (bitState [2]).ibuf 0 = some 2 ∧
    lengthsPass (.manEnc false) (bitState [1, 0, 1, 0xFF]) ∧ bitsUpTo (bitState [1, 0, 1, 0xFF]) 3 ∧
    Memory.read (bitState [1, 0, 1, 0xFF]).ibuf 3 = some 0xFF ∧ takesBits (.manEnc false) = true := by
  unfold lengthsPass bitsUpTo; decide +kernel
theorem test_witness_unwritten_input :
    lengthsPass (.bpskMod false) (loaded 2 [1]) ∧ bitsUpTo (loaded 2 [1]) 1 ∧ Memory.read (loaded 2 [1]).ibuf 1 = none ∧
    lengthsPass (.awgnReal false) (loaded 1 [0, 0, 0, 0, 0, 0, 0]) ∧
    ¬ inputWritten (.awgnReal false) (loaded 1 [0, 0, 0, 0, 0, 0, 0]) := by
  unfold lengthsPass bitsUpTo inputWritten; decide +kernel
/-- Next states with every error an operation can report, and with none: for the statements about a next state of `exec`. -/
theorem test_witness_errors :
    (result (exec (.bpskMod false) (bitState [0, 1]))).err = .none ∧ isNext (exec (.bpskMod false) (bitState [0, 1])) = true ∧
    (result (exec (.qpskMod false) (loaded 1 []))).err = .oddLength ∧
    (result (exec (.manDec false) (loaded 1 []))).err = .invalidLength ∧
    (result (exec (.bpskMod false) (loaded 65537 []))).errInfo = 0 ∧
    (result (exec (.bpskMod false) (loaded 65537 []))).err = .capacity ∧
    (result (exec (.bpskMod false) (loaded 8193 []))).errInfo = 1 ∧
    (result (exec (.bpskMod false) (loaded 8193 []))).err = .capacity ∧
    (result (exec (.bpskMod false) (bitState [2]))).err = .invalidBit := by decide +kernel
/-- Two states with the same operands in one of which the command completes. For an operation that draws no noise they differ in OBUF,
`ERR`, SNR, seed, draw count and NaN payloads, and beyond the input; for one that draws, in OBUF, `ERR` and beyond the input. -/
theorem test_witness_same_operands :
    sameOperands (.bpskMod false) (bitState [0, 1])
      { loaded 2 [0, 1, 7] with
        obuf := [(3, 4)], err := .capacity, snrHi := 0x40340000, seedLo := 9, drawCnt := 5, freeCnt := 6 } ∧
    isNext (exec (.bpskMod false) (bitState [0, 1])) = true ∧
    sameOperands (.awgnReal false) (loaded 0 []) { loaded 0 [7] with obuf := [(3, 4)], err := .capacity } ∧
    isNext (exec (.awgnReal false) (loaded 0 [])) = true ∧
    usesNoise (.bpskMod false) = false ∧ usesNoise (.awgnReal false) = true := by
  unfold sameOperands; decide +kernel
/-- What comes after a START: a STATUS read, a write that is held, a request that waits behind it, and a reset. -/
def launchTurns : List Event := [.present (.read 0x00C 32), .present (.write 0x010 32 1), .present (.read 0x014 32), .reset]

theorem test_witness_launched : inputWritten (.awgnCplx true) (cplxState [(plusOne, minusOne)]) := by
  unfold inputWritten; decide +kernel
/-- The START presented while idle, and held from before; a STATUS read, a held write and a further request meanwhile, with a reset only
after the completion. -/
theorem test_witness_launch_premises :
    decodeWord 0x181 = .ok (.awgnCplx true) ∧
    writesCommand 0x181 { cplxState [(plusOne, minusOne)] with agenda := .present (.write 0x008 32 0x181) :: launchTurns } launchTurns ∧
    writesCommand 0x181
      { cplxState [(plusOne, minusOne)] with held := some (.write 0x008 32 0x181), agenda := launchTurns } launchTurns ∧
    idle (cplxState [(plusOne, minusOne)]) ∧ inputWritten (.awgnCplx true) (cplxState [(plusOne, minusOne)]) ∧
    halvesConsistent (.awgnCplx true) 0 0 (cplxState [(plusOne, minusOne)]) ∧ noReset launchTurns ∧ withinProtocol launchTurns := by
  refine ⟨by decide, .inl ⟨rfl, rfl⟩, .inr ⟨rfl, rfl⟩, rfl, ?_, fun _ => by decide, by unfold noReset; decide, ?_⟩
  · unfold inputWritten; decide +kernel
  · intro r h
    rcases List.mem_cons.mp h with h | h
    · cases h; decide
    · rcases List.mem_cons.mp h with h | h
      · cases h; decide
      · cases h
/-- Three steps lead from the held START to the completion where one STATUS read comes between. -/
theorem test_launched_run :
    isNext (Host.Core.run Sys2Proof.core 3 { bitState [0, 1] with
      held := some (.write 0x008 32 0x31), agenda := [.present (.read 0x00C 32), .engine] }) = true ∧
    (result (Host.Core.run Sys2Proof.core 3 { bitState [0, 1] with
      held := some (.write 0x008 32 0x31), agenda := [.present (.read 0x00C 32), .engine] })).done = true ∧
    (beforeCompletion false [.present (.read 0x00C 32), .engine]).length = 1 := by decide +kernel

/-- A second state for the round trips: the first operation's output copied back, and the length of the next. -/
def copiedBack (o : Host.Outcome State Fault Refusal) (n : Nat) : State :=
  { State.reset with ibuf := (result o).obuf, inLen := BitVec.ofNat 32 n }

theorem test_witness_manchester_round_trip :
    lengthsPass (.manEnc false) (bitState [0, 1]) ∧ bitsUpTo (bitState [0, 1]) 2 ∧
    (copiedBack (exec (.manEnc false) (bitState [0, 1])) 4).cfg = (bitState [0, 1]).cfg ∧
    isNext (exec (.manEnc false) (bitState [0, 1])) = true ∧
    16 * 2 ≤ (bitState [0, 1]).cfg.ibufBytes ∧ (copiedBack (exec (.manEnc false) (bitState [0, 1])) 4).inLen.toNat = 2 * 2 := by
  unfold lengthsPass bitsUpTo; decide +kernel
theorem test_witness_bpsk_round_trip :
    lengthsPass (.bpskMod false) (bitState [0, 1]) ∧ bitsUpTo (bitState [0, 1]) 2 ∧
    (copiedBack (exec (.bpskMod false) (bitState [0, 1])) 2).cfg = (bitState [0, 1]).cfg ∧
    isNext (exec (.bpskMod false) (bitState [0, 1])) = true ∧ 8 * 2 ≤ (bitState [0, 1]).cfg.ibufBytes ∧
    (copiedBack (exec (.bpskMod false) (bitState [0, 1])) 2).inLen = (bitState [0, 1]).inLen := by
  unfold lengthsPass bitsUpTo; decide +kernel
theorem test_witness_qpsk_round_trip :
    lengthsPass (.qpskMod false) (bitState [0, 1]) ∧ bitsUpTo (bitState [0, 1]) 2 ∧ (bitState [0, 1]).cfg.legal = true ∧
    (copiedBack (exec (.qpskMod false) (bitState [0, 1])) 1).cfg = (bitState [0, 1]).cfg ∧
    isNext (exec (.qpskMod false) (bitState [0, 1])) = true ∧ 8 * 2 ≤ (bitState [0, 1]).cfg.ibufBytes ∧
    2 * (copiedBack (exec (.qpskMod false) (bitState [0, 1])) 1).inLen.toNat = (bitState [0, 1]).inLen.toNat := by
  unfold lengthsPass bitsUpTo; decide +kernel
theorem test_witness_energy : ([0, 1] : List Byte) ≠ [] ∧ [(0 : Byte), 1].length ≤ 2 ^ 53 ∧ ∀ b ∈ [(0 : Byte), 1], b = 0 ∨ b = 1 := by
  decide
theorem test_witness_exp_ten :
    isNaN nan = true ∧ isNaN minusInf = false ∧ isNaN plusInf = false ∧ orderKey minusInf ≤ orderKey plusInf ∧
    isFinite minusZero = true ∧ isFinite 0x7FEFFFFFFFFFFFFF = true ∧ isFinite 0xFFEFFFFFFFFFFFFF = true := by decide +kernel
/-- Half of the smallest subnormal is a tie that goes to 0; half a unit below 2^1024 is one that goes to the pattern of +∞. -/
theorem test_witness_rounding :
    1 ≤ infPattern ∧ (1 : Nat) ≠ roundMag 1 2 ∧ roundMag 1 2 = 0 ∧
    infPattern - 1 ≠ roundMag (2 ^ 2098 - 2 ^ 2044) 1 ∧ roundMag (2 ^ 2098 - 2 ^ 2044) 1 = infPattern := by decide +kernel
/-- Finite operands for each clause of the operations: a sum that is zero and one that is not, a divisor, and a positive, a zero and a
negative value to take the root of. -/
theorem test_witness_operations :
    isFinite plusOne = true ∧ isFinite minusOne = true ∧ isFinite minusZero = true ∧ valueOf plusOne + valueOf minusOne = 0 ∧
    valueOf plusOne + valueOf plusOne ≠ 0 ∧ valueOf plusOne - valueOf plusOne = 0 ∧ 0 < valueOf plusOne ∧ valueOf minusZero = 0 ∧
    valueOf minusOne < 0 := by
  have h1 : signedUnits plusOne = 2 ^ 1074 := by decide +kernel
  have h2 : signedUnits minusOne = -(2 ^ 1074) := by decide +kernel
  have h3 : signedUnits minusZero = 0 := by decide +kernel
  have e1 : valueOf plusOne = 1 := by rw [valueOf, h1]; push_cast; exact div_self (by positivity)
  have e2 : valueOf minusOne = -1 := by rw [valueOf, h2]; push_cast; rw [neg_div, div_self (by positivity)]
  have e3 : valueOf minusZero = 0 := by rw [valueOf, h3]; simp
  rw [e1, e2, e3]
  exact ⟨by decide, by decide, by decide, by norm_num, by norm_num, by norm_num, by norm_num, rfl, by norm_num⟩
/-- Operands of each kind the special cases name: both infinities, a quiet and a signalling NaN; and the order at the infinities. -/
theorem test_witness_special_operands :
    isInf plusInf = true ∧ isInf minusInf = true ∧ isNaN nan = true ∧ nan.getLsbD 51 = true ∧ isNaN 0x7FF0000000000001 = true ∧
    isNaN plusInf = false ∧ isNaN minusInf = false ∧ isNaN (fsub 0 plusInf plusInf) = true ∧ isNaN (fmul 0 plusInf minusZero) = true ∧
    isNaN (fdiv 0 plusZero minusZero) = true ∧ isNaN (fsqrt 0 minusInf) = true ∧
    flt minusInf minusOne = true ∧ fgt plusInf plusOne = true ∧ feq nan nan = false := by decide +kernel
theorem test_witness_nan_snr :
    isNaN { realState [plusOne] with snrHi := 0x7FF80000 }.snrDb = true ∧
    lengthsPass (.awgnReal false) { realState [plusOne] with snrHi := 0x7FF80000 } ∧
    inputWritten (.awgnReal false) { realState [plusOne] with snrHi := 0x7FF80000 } ∧
    isNaN { cplxState [(plusOne, plusOne)] with snrHi := 0x7FF80000 }.snrDb = true ∧
    lengthsPass (.awgnCplx false) { cplxState [(plusOne, plusOne)] with snrHi := 0x7FF80000 } ∧
    inputWritten (.awgnCplx false) { cplxState [(plusOne, plusOne)] with snrHi := 0x7FF80000 } := by
  unfold lengthsPass inputWritten; decide +kernel
/-- The engine's turn in its three forms. -/
theorem test_witness_engine_turn :
    (busyState [.engine]).phase = .busy ∧ decodeWord (commandWord (busyState [.engine])) = .ok (.bpskDemod false) ∧
    (busyState [.engine]).agenda = .engine :: [] ∧ (busyState []).agenda = [] ∧
    { busyState [.present (.read 0x014 32)] with held := some (.read 0x018 32) }.held = some (.read 0x018 32) := by decide +kernel
theorem test_witness_placed_command : decodeWord (BitVec.ofNat 32 (0x31 % 2 ^ 32)) = .ok (.bpskMod false) := by decide
theorem test_witness_start_then_engine :
    { State.reset with agenda := [.present (.write 0x008 32 0x31), .engine] }.phase = .idle ∧
    { State.reset with agenda := [.present (.write 0x008 32 0x31), .engine] }.held = none ∧
    decodeWord 0x31 = .ok (.bpskMod false) := by decide
/-- The reserved codes at the ends of their ranges. -/
theorem test_witness_reserved_op :
    ({ busyState [.engine] with op := 0 }.op = 0 ∧ { busyState [.engine] with op := 0 }.phase = .busy) ∧
    9 ≤ { busyState [.engine] with op := 9 }.op.toNat ∧ 9 ≤ { busyState [.engine] with op := 15 }.op.toNat ∧
    (busyState [.engine]).agenda = .engine :: [] ∧ (busyState []).agenda = [] ∧
    { busyState [.present (.read 0x014 32)] with held := some (.read 0x018 32) }.held ≠ none ∧
    { busyState [.present (.read 0x014 32)] with held := some (.read 0x018 32) }.agenda = .present (.read 0x014 32) :: [] := by
  decide +kernel
theorem test_witness_busy_port :
    (busyState [.present (.write 0x00C 32 2)]).phase = .busy ∧ (busyState [.present (.write 0x00C 32 2)]).held = none ∧
    (Request.write 0x00C 32 2).wellFormed = true := by decide +kernel
/-- A busy state of the invariant with a STATUS read to come. -/
theorem test_witness_status_read : Inv (busyState [.present (.read 0x00C 32)]) ∧ (busyState []).held = none := by
  refine ⟨⟨by decide +kernel, by decide +kernel, by decide +kernel, rfl, rfl, by decide, fun _ => ⟨rfl, rfl⟩, fun h => absurd rfl h,
    fun _ _ => rfl, fun r h => ?_⟩, rfl⟩
  cases h
theorem test_witness_held_transaction :
    { State.reset with held := some (.read 0x014 32) }.phase = .idle ∧
    { State.reset with held := some (.read 0x014 32) }.agenda.head? ≠ some .reset ∧
    { State.reset with agenda := [.present (.write 0x010 32 1)] }.phase = .idle ∧
    { State.reset with agenda := [.present (.write 0x010 32 1)] }.held = none ∧
    (Request.write 0x3FFFFC 32 1).wellFormed = true := by decide
/-- One request for each way to be outside the port's protocol, idle and busy. -/
theorem test_witness_outside_port :
    (Request.read 0x00C 16).width ≠ 32 ∧ (Request.read 0x002 32).offset % 4 ≠ 0 ∧ 0x400000 ≤ (Request.read 0x400000 32).offset ∧
    (busyState [.present (.read 0x002 32)]).held = none ∧ State.reset.held = none := by decide +kernel
theorem test_witness_idle : State.reset.phase = .idle ∧ State.reset.held = none ∧ State.reset.agenda = [] := by decide
theorem test_witness_reset : (busyState [.reset, .engine]).agenda = .reset :: [.engine] := rfl
/-- A state for each error code, the greatest of them as `STATUS` reads it. -/
theorem test_witness_error_codes :
    (∀ c ∈ [ErrorCode.none, .invalidBit, .oddLength, .invalidLength, .lengthMismatch, .illegalOp, .capacity],
      { State.reset with err := c }.err = c) ∧
    statusWord { State.reset with err := .capacity } = 0x600 := by decide
theorem test_witness_ctrl_write : (0xFFFFFFFE : Word).getLsbD 0 = false ∧ (0x00000001 : Word).getLsbD 0 = true := by decide
/-- Both ends of each reserved range. -/
theorem test_witness_reserved_space :
    ∀ a ∈ [0x01C, 0x040, 0xFFC, 0x1000, 0xFFFFC, 0x300000, 0x3FFFFC],
      a = 0x01C ∨ (0x040 ≤ a ∧ a < 0x1000) ∨ (0x1000 ≤ a ∧ a < 0x100000) ∨ (0x300000 ≤ a ∧ a < 0x400000) := by decide
/-- The first and last words of a default buffer, the first beyond it and the last of the window. -/
theorem test_witness_windows :
    State.reset.cfg.legal = true ∧ (∀ k ∈ [0, 0xFFFC], k < 0x100000 ∧ k % 4 = 0 ∧ k < State.reset.cfg.ibufBytes) ∧
    (∀ k ∈ [0x10000, 0xFFFFC], k < 0x100000 ∧ k % 4 = 0 ∧ State.reset.cfg.ibufBytes ≤ k ∧ State.reset.cfg.obufBytes ≤ k) := by
  decide +kernel
/-- A word of OBUF with all its bytes, and one with a byte missing. -/
theorem test_witness_obuf_words :
    Memory.bytes (result (exec (.bpskMod false) (bitState [0, 1]))).obuf 12 4 = some [0x00, 0x00, 0xF0, 0x3F] ∧
    Memory.read (result (exec (.bpskMod false) (bitState [0, 1]))).obuf (16 + 0) = none := by decide +kernel
theorem test_witness_read :
    isNext (perform (.read 0x00C 32) State.reset) = true ∧ (Request.read 0x200000 32).wellFormed = true ∧
    (hostRead State.reset 0x00C).toOption = some 0 ∧ (hostRead State.reset 0x200000).toOption = none := by decide +kernel
/-- A step from a state of the invariant. -/
theorem test_witness_step : isNext (step (busyState [.engine])) = true ∧ isNext (step State.reset) = true := by decide +kernel
/-- Steps that change a buffer: a host write and an operation; and a reset. -/
theorem test_witness_buffer_changes :
    (result (step { State.reset with agenda := [.present (.write 0x100000 32 1)] })).ibuf ≠ State.reset.ibuf ∧
    (result (step (busyState [.engine]))).obuf ≠ (busyState [.engine]).obuf ∧
    (result (step (busyState [.reset]))).ibuf ≠ (busyState [.reset]).ibuf := by decide +kernel

end Sys2Proof.Tests
end

section
/-! SUPPORT. No step changes the parameters (00_scope.md R3, R6). -/
namespace Sys2Proof.Machine

theorem exec_cfg {i : Instr} {s t : State} (h : exec i s = .next t) : t.cfg = s.cfg := by
  rcases exec_next h with ⟨c, info, -, rfl⟩ | ⟨o, -, -, -, rfl⟩ <;> rfl

theorem engineTurn_cfg {s t : State} (h : engineTurn s = .next t) : t.cfg = s.cfg := by
  rcases engineTurn_next h with ⟨i, -, hi⟩ | rfl
  · exact exec_cfg hi
  · rfl

@[simp] theorem writeCtrl_cfg (s : State) (w : Word) : (writeCtrl s w).cfg = s.cfg := by
  unfold writeCtrl; split <;> rfl

theorem hostWrite_cfg (s : State) (a : Nat) (w : Word) : (hostWrite s a w).cfg = s.cfg := by
  rcases hostWrite_cases s a w with h | h | h | h | h | h | h | h | ⟨k, -, h⟩ <;> simp [h]

theorem perform_cfg {r : Request} {s t : State} (h : perform r s = .next t) : t.cfg = s.cfg := by
  obtain ⟨-, ⟨a, w, d, -, -, rfl⟩ | ⟨a, w, d, -, rfl⟩⟩ := perform_next h
  · rfl
  · exact hostWrite_cfg s a d

theorem presentBusy_cfg {r : Request} {s t : State} (h : presentBusy r s = .next t) : t.cfg = s.cfg := by
  obtain ⟨-, ⟨-, hp⟩ | ⟨-, rfl⟩⟩ := presentBusy_next h
  · exact perform_cfg hp
  · rfl

/-- Settles O58: every turn of `step_cases` ends in a reset, an engine's turn, a transaction or the turn alone, and none of them
writes the parameters. -/
theorem parametersNeverChange : Obligations.ParametersNeverChange := by
  intro s t h
  rcases step_cases s with ⟨rest, -, hs⟩ | ⟨rest, -, hs⟩ | ⟨r, rest, -, -, -, hs⟩ | ⟨r, -, -, hs⟩ |
    ⟨r, rest, -, -, -, hs⟩ | ⟨rest, -, -, hs⟩ <;> rw [hs] at h
  · cases h; rfl
  · exact (engineTurn_cfg h).trans (State.turn_cfg s rest)
  · exact (presentBusy_cfg h).trans (State.turn_cfg s rest)
  · exact (perform_cfg h).trans (State.turn_cfg s s.agenda)
  · exact (perform_cfg h).trans (State.turn_cfg s rest)
  · cases h; rfl

end Sys2Proof.Machine
end

section
/-! SUPPORT. The binary64 primitives against their exact values (00_scope.md R11). -/
namespace Sys2Proof.Machine

/-! Rounding a quotient of whole numbers. -/

theorem unit_pos : (0 : ℝ) < 2 ^ 1074 := pow_pos (by norm_num) _

/-- Distances between whole numbers are distances in units, scaled by the denominator. -/
theorem natAbs_distance (num den g : Nat) (hden : 0 < den) :
    (((num : Int) - (g * den : Nat)).natAbs : ℝ) =
      |(num : ℝ) / (2 ^ 1074 * den) - (g : ℝ) / 2 ^ 1074| * (2 ^ 1074 * den) := by
  have hu := unit_pos
  generalize (2 : ℝ) ^ 1074 = u at *
  have hd : (0 : ℝ) < den := by exact_mod_cast hden
  rw [← abs_of_pos (mul_pos hu hd), ← abs_mul, abs_of_pos (mul_pos hu hd), Nat.cast_natAbs]
  push_cast
  congr 1
  field_simp

/-- `roundMag` gives the pattern nearest to the exact quotient. -/
theorem roundMag_nearestPattern {num den : Nat} (hden : 0 < den) :
    NearestPattern ((num : ℝ) / (2 ^ 1074 * den)) (roundMag num den) := by
  have hv : (0 : ℝ) ≤ (num : ℝ) / (2 ^ 1074 * den) :=
    div_nonneg (Nat.cast_nonneg _) (mul_nonneg unit_pos.le (Nat.cast_nonneg _))
  have hd : (den : ℝ) ≠ 0 := by exact_mod_cast hden.ne'
  have h := (rounded_spec (neg := false) hden (v := (num : ℝ) / (2 ^ 1074 * den)) (num := num)
    (by rw [abs_of_nonneg hv, mul_assoc]; exact div_mul_cancel₀ _ (mul_ne_zero unit_pos.ne' hd))
    (fun h => absurd h (not_lt.mpr hv)) (fun _ => rfl)).1.1
  rwa [abs_of_nonneg hv, rounded, (withSign_eq false (Nat.lt_of_le_of_lt (roundMag_le num den) infPattern_lt)).1] at h

/-- The rounded pattern is the nearest one, as distances of whole numbers. -/
theorem roundMag_nearest {num den p : Nat} (hden : 0 < den) (hp : p ≤ infPattern) (hne : p ≠ roundMag num den) :
    ((num : Int) - (gridValue (roundMag num den) * den : Nat)).natAbs < ((num : Int) - (gridValue p * den : Nat)).natAbs ∨
      (((num : Int) - (gridValue (roundMag num den) * den : Nat)).natAbs = ((num : Int) - (gridValue p * den : Nat)).natAbs ∧
        roundMag num den % 2 = 0) := by
  have hs : (0 : ℝ) < 2 ^ 1074 * den := mul_pos unit_pos (by exact_mod_cast hden)
  rw [← Nat.cast_lt (α := ℝ), ← Nat.cast_inj (R := ℝ), natAbs_distance _ _ _ hden, natAbs_distance _ _ _ hden,
    mul_lt_mul_iff_left₀ hs, mul_left_inj' hs.ne']
  exact (roundMag_nearestPattern hden).2 p hp hne

/-! Finite operands. -/

/-- Zero rounds to either zero. -/
theorem roundsTo_zero {y : F64} (h : y.toNat % 2 ^ 63 = 0) : RoundsTo 0 y :=
  ⟨h ▸ nearestPattern_zero, fun h => absurd h (lt_irrefl _), fun h => absurd h (lt_irrefl _)⟩

theorem fadd_finite {a b : F64} (free : F64) (ha : isFinite a = true) (hb : isFinite b = true) :
    fadd free a b = if signedUnits a + signedUnits b = 0 then (if signBit a && signBit b then minusZero else plusZero)
      else rounded (decide (signedUnits a + signedUnits b < 0)) (signedUnits a + signedUnits b).natAbs 1 := by
  obtain ⟨hna, hia⟩ := finite_cases ha
  obtain ⟨hnb, hib⟩ := finite_cases hb
  simp [fadd, hna, hia, hnb, hib]

theorem valueOf_add (a b : F64) : valueOf a + valueOf b = ((signedUnits a + signedUnits b : ℤ) : ℚ) / 2 ^ 1074 := by
  unfold valueOf; rw [← add_div]; push_cast; rfl

/-- `k` units, rounded. -/
theorem rounded_units (k : ℤ) :
    RoundsTo ((k : ℝ) / 2 ^ 1074) (rounded (decide (k < 0)) k.natAbs 1) := by
  have hu := unit_pos
  refine (rounded_spec Nat.one_pos ?_ (fun h => ?_) (fun h => ?_)).1
  · rw [abs_div, abs_of_pos hu, div_mul_cancel₀ _ hu.ne', Nat.cast_natAbs]; push_cast; ring
  · have : (k : ℝ) < 0 := by simpa using (div_lt_iff₀ hu).mp h
    exact decide_eq_true (by exact_mod_cast this)
  · have : 0 < (k : ℝ) := by simpa using (lt_div_iff₀ hu).mp h
    exact decide_eq_false (not_lt.mpr (by exact_mod_cast this.le))

theorem fadd_spec {a b : F64} (free : F64) (ha : isFinite a = true) (hb : isFinite b = true) :
    RoundsTo ((valueOf a + valueOf b : ℚ) : ℝ) (fadd free a b) ∧
    (valueOf a + valueOf b = 0 → signBit (fadd free a b) = (signBit a && signBit b)) := by
  rw [fadd_finite free ha hb, valueOf_add]
  have hu : (2 ^ 1074 : ℚ) ≠ 0 := pow_ne_zero _ (by norm_num)
  generalize signedUnits a + signedUnits b = k
  by_cases hk : k = 0
  · subst hk
    simp only [if_true, Int.cast_zero, zero_div, Rat.cast_zero]
    cases signBit a <;> cases signBit b <;> exact ⟨roundsTo_zero (by decide), fun _ => by decide⟩
  · rw [if_neg hk]
    refine ⟨?_, fun h => absurd h (div_ne_zero (by exact_mod_cast hk) hu)⟩
    have := rounded_units k
    push_cast
    exact this

theorem fsub_eq_fadd_negate {a b : F64} (free : F64) (ha : isNaN a = false) (hb : isNaN b = false) :
    fsub free a b = fadd free a (negate b) := by simp [fsub, ha, hb]

theorem fsub_spec {a b : F64} (free : F64) (ha : isFinite a = true) (hb : isFinite b = true) :
    RoundsTo ((valueOf a - valueOf b : ℚ) : ℝ) (fsub free a b) ∧
    (valueOf a - valueOf b = 0 → signBit (fsub free a b) = (signBit a && !signBit b)) := by
  obtain ⟨hs, -, -, hf⟩ := negate_spec b
  rw [fsub_eq_fadd_negate free (finite_cases ha).1 (finite_cases hb).1, sub_eq_add_neg, ← valueOf_negate, ← hs]
  exact fadd_spec free ha (hf.trans hb)

/-- The sign of a product is the exclusive or of the signs. -/
theorem valueOf_mul_sign (a b : F64) :
    (valueOf a * valueOf b < 0 → (signBit a != signBit b) = true) ∧
    (0 < valueOf a * valueOf b → (signBit a != signBit b) = false) := by
  cases ha : signBit a <;> cases hb : signBit b
  · exact ⟨fun h => absurd h (not_lt.mpr (mul_nonneg (valueOf_nonneg ha) (valueOf_nonneg hb))), fun _ => rfl⟩
  · exact ⟨fun _ => rfl, fun h => absurd h (not_lt.mpr (mul_nonpos_of_nonneg_of_nonpos (valueOf_nonneg ha) (valueOf_nonpos hb)))⟩
  · exact ⟨fun _ => rfl, fun h => absurd h (not_lt.mpr (mul_nonpos_of_nonpos_of_nonneg (valueOf_nonpos ha) (valueOf_nonneg hb)))⟩
  · exact ⟨fun h => absurd h (not_lt.mpr (mul_nonneg_of_nonpos_of_nonpos (valueOf_nonpos ha) (valueOf_nonpos hb))), fun _ => rfl⟩

/-- The sign of a quotient is that of the product. -/
theorem valueOf_div_sign (a b : F64) :
    (valueOf a / valueOf b < 0 → (signBit a != signBit b) = true) ∧
    (0 < valueOf a / valueOf b → (signBit a != signBit b) = false) := by
  obtain ⟨hneg, hpos⟩ := valueOf_mul_sign a b
  rw [div_neg_iff, ← mul_neg_iff, div_pos_iff, ← mul_pos_iff]
  exact ⟨hneg, hpos⟩

theorem fmul_spec {a b : F64} (free : F64) (ha : isFinite a = true) (hb : isFinite b = true) :
    RoundsTo ((valueOf a * valueOf b : ℚ) : ℝ) (fmul free a b) ∧ signBit (fmul free a b) = (signBit a != signBit b) := by
  obtain ⟨hna, hia⟩ := finite_cases ha
  obtain ⟨hnb, hib⟩ := finite_cases hb
  obtain ⟨hneg, hpos⟩ := valueOf_mul_sign a b
  have hr : fmul free a b = rounded (signBit a != signBit b) (magnitude a * magnitude b) (2 ^ 1074) := by
    simp only [fmul, hna, hia, hnb, hib, Bool.or_self, Bool.false_eq_true, if_false]
  rw [hr]
  refine rounded_spec (Nat.two_pow_pos _) ?_ (fun h => hneg (by exact_mod_cast h)) (fun h => hpos (by exact_mod_cast h))
  have e : ((2 ^ 1074 : ℕ) : ℝ) = 2 ^ 1074 := by rw [Nat.cast_pow, Nat.cast_ofNat]
  rw [Nat.cast_mul, ← abs_valueOf, ← abs_valueOf, Rat.cast_mul, abs_mul, e]
  generalize (2 : ℝ) ^ 1074 = u
  ring

theorem fdiv_spec {a b : F64} (free : F64) (ha : isFinite a = true) (hb : isFinite b = true) (h0 : valueOf b ≠ 0) :
    RoundsTo ((valueOf a / valueOf b : ℚ) : ℝ) (fdiv free a b) ∧ signBit (fdiv free a b) = (signBit a != signBit b) := by
  obtain ⟨hna, hia⟩ := finite_cases ha
  obtain ⟨hnb, hib⟩ := finite_cases hb
  obtain ⟨hneg, hpos⟩ := valueOf_div_sign a b
  have hz : isZero b = false := by simpa [valueOf_eq_zero] using h0
  have hm : 0 < magnitude b := Nat.pos_of_ne_zero fun h => by simp [(magnitude_eq_zero b).mp h] at hz
  have hr : fdiv free a b = rounded (signBit a != signBit b) (magnitude a * 2 ^ 1074) (magnitude b) := by
    simp only [fdiv, hna, hia, hnb, hib, hz, Bool.or_self, Bool.false_eq_true, if_false]
  rw [hr]
  refine rounded_spec hm ?_ (fun h => hneg (by exact_mod_cast h)) (fun h => hpos (by exact_mod_cast h))
  have e : ((2 ^ 1074 : ℕ) : ℝ) = 2 ^ 1074 := by rw [Nat.cast_pow, Nat.cast_ofNat]
  have hb0 : |((valueOf b : ℚ) : ℝ)| ≠ 0 := by simpa using h0
  rw [Nat.cast_mul, ← abs_valueOf, ← abs_valueOf, Rat.cast_div, abs_div, e]
  generalize (2 : ℝ) ^ 1074 = u
  field_simp

theorem f64_roundsTo (k : ℤ) : RoundsTo (k : ℝ) (f64 k) := by
  have h := rounded_units (k * 2 ^ 1074)
  have hu := unit_pos
  have hlt : k * 2 ^ 1074 < 0 ↔ k < 0 := by
    have : (0 : ℤ) < 2 ^ 1074 := pow_pos (by norm_num) _
    generalize (2 : ℤ) ^ 1074 = u at *
    constructor <;> intro h <;> nlinarith
  have habs : (k * 2 ^ 1074).natAbs = k.natAbs * 2 ^ 1074 := by
    rw [Int.natAbs_mul, Int.natAbs_pow]; rfl
  have hv : ((k * 2 ^ 1074 : ℤ) : ℝ) / 2 ^ 1074 = k := by
    rw [Int.cast_mul, Int.cast_pow, Int.cast_ofNat]; exact mul_div_cancel_right₀ _ hu.ne'
  rwa [hv, habs, decide_eq_decide.mpr hlt] at h

/-! The root. -/

/-- Twice a whole root with the bit for what is left over compares with twice a whole number as the square does. -/
theorem sticky_compare {r m : Nat} (j : Nat) (hle : r * r ≤ m) (hlt : m < (r + 1) * (r + 1)) :
    (2 * j < 2 * r + (decide (r * r ≠ m)).toNat ↔ j * j < m) ∧ (2 * j = 2 * r + (decide (r * r ≠ m)).toNat ↔ j * j = m) := by
  have hb := Bool.toNat_le (decide (r * r ≠ m))
  rcases Nat.lt_trichotomy j r with h | rfl | h
  · have := Nat.mul_self_lt_mul_self h
    omega
  · by_cases he : j * j = m <;> simp [he]
    omega
  · have := Nat.mul_self_le_mul_self (Nat.succ_le_of_lt h)
    simp only [Nat.succ_eq_add_one] at this
    omega

/-- A multiple of 2 ^ (h + 1) lies on the same side of twice the exact root as of twice the whole number `rootOf` rounds. -/
theorem root_compare {m h M : Nat} (hh : 1 ≤ h) (hm : m < 4 ^ 90) (hM : 2 ^ (h + 1) ∣ M) :
    ((M : ℝ) < 2 * (√(m : ℝ) * 2 ^ h) ↔
      M < 2 * ((2 * wholeSqrt 90 m + (decide (wholeSqrt 90 m * wholeSqrt 90 m ≠ m)).toNat) * 2 ^ (h - 1))) ∧
    ((M : ℝ) = 2 * (√(m : ℝ) * 2 ^ h) ↔
      M = 2 * ((2 * wholeSqrt 90 m + (decide (wholeSqrt 90 m * wholeSqrt 90 m ≠ m)).toNat) * 2 ^ (h - 1))) := by
  obtain ⟨j, rfl⟩ := hM
  obtain ⟨hle, hlt⟩ := wholeSqrt_spec 90 m hm
  obtain ⟨clt, ceq⟩ := sticky_compare j hle hlt
  generalize 2 * wholeSqrt 90 m + _ = t at clt ceq ⊢
  have eN : 2 * (t * 2 ^ (h - 1)) = 2 ^ h * t := by
    obtain ⟨h, rfl⟩ := Nat.exists_eq_add_of_le' hh
    rw [Nat.add_sub_cancel, Nat.pow_succ]; ring
  have eM : 2 ^ (h + 1) * j = 2 ^ h * (2 * j) := by rw [Nat.pow_succ]; ring
  have hp : (0 : ℝ) < 2 ^ (h + 1) := by positivity
  have eR : 2 * (√(m : ℝ) * 2 ^ h) = 2 ^ (h + 1) * √(m : ℝ) := by rw [pow_succ]; ring
  have eC : ((2 ^ (h + 1) * j : ℕ) : ℝ) = 2 ^ (h + 1) * j := by push_cast; rfl
  have hj : (0 : ℝ) ≤ j := Nat.cast_nonneg j
  rw [eR, eC, eN, eM, Nat.mul_lt_mul_left (Nat.two_pow_pos h), Nat.mul_right_inj (Nat.two_pow_pos h).ne', clt, ceq,
    mul_lt_mul_iff_right₀ hp, mul_right_inj' hp.ne', Real.lt_sqrt hj, eq_comm, Real.sqrt_eq_iff_mul_self_eq (Nat.cast_nonneg m) hj]
  constructor
  · rw [pow_two]; norm_cast
  · rw [eq_comm]; norm_cast

/-- From the square of a whole number of 60 bits on, rounding `t` with 2^(h+60) ≤ t stays above the binade of 2^(h+54). -/
theorem roundMag_ge_binade {t h : Nat} (hh : h ≤ 2000) (ht : 2 ^ (h + 60) ≤ t) : (h + 3) * 2 ^ 52 < roundMag t 1 := by
  by_contra hle
  rw [not_lt] at hle
  have hinf : roundMag t 1 < infPattern := by simp only [infPattern]; omega
  have hnext : (h + 3) * 2 ^ 52 + 1 = (h + 2) * 2 ^ 52 + (2 ^ 52 + 1) := by ring
  have h1 := gridValue_le (Nat.le_succ_of_le hle)
  have h2 := gridValue_le (Nat.succ_le_succ hle)
  rw [Nat.succ_eq_add_one, Nat.succ_eq_add_one, hnext, gridValue_binade (by omega) (by omega)] at h2
  rw [Nat.succ_eq_add_one, hnext, gridValue_binade (by omega) (by omega)] at h1
  have e1 : 2 ^ (h + 60) = 2 ^ 58 * 2 ^ (h + 2) := by rw [← Nat.pow_add]; congr 1; omega
  have e2 := Nat.two_pow_pos (h + 2)
  rcases roundMag_above Nat.one_pos hinf with h3 | ⟨h3, -⟩ <;> omega

/-- The middles beside the pattern `rootOf` rounds to stand at multiples of 2 ^ (h + 1). -/
theorem middles_dvd {p h : Nat} (hp : (h + 3) * 2 ^ 52 < p) :
    2 ^ (h + 1) ∣ gridValue (p - 1) + gridValue p ∧ 2 ^ (h + 1) ∣ gridValue p + gridValue (p + 1) := by
  have hg : 2 ^ (h + 1 + 53) ≤ gridValue (p - 1) := by
    calc 2 ^ (h + 1 + 53) = gridValue ((h + 2) * 2 ^ 52 + 2 ^ 52) := by
          rw [gridValue_binade (by omega) (by omega), ← Nat.pow_add]; congr 1; omega
      _ ≤ gridValue (p - 1) := gridValue_le (by omega)
  have hlast := gridValue_dvd hg
  have hnext := gridValue_dvd (Nat.le_trans hg (gridValue_le (Nat.sub_le p 1)))
  rw [show p - 1 + 1 = p by omega] at hlast
  exact ⟨Nat.dvd_add hlast.1 hlast.2, Nat.dvd_add hnext.1 hnext.2⟩

/-- The root of a value, in units of 2^-1074, by what `rootOf` takes the root of. -/
theorem sqrt_valueOf {x : F64} {m h : Nat} (h0 : 0 ≤ valueOf x) (hN : magnitude x * 2 ^ 1074 = m * 2 ^ (2 * h)) :
    √((valueOf x : ℚ) : ℝ) * 2 ^ 1074 = √(m : ℝ) * 2 ^ h := by
  have hx : (0 : ℝ) ≤ ((valueOf x : ℚ) : ℝ) := by exact_mod_cast h0
  have hv := abs_valueOf x
  rw [abs_of_nonneg hx] at hv
  have hR : (magnitude x : ℝ) * 2 ^ 1074 = m * 2 ^ (2 * h) := by
    have := congrArg (Nat.cast (R := ℝ)) hN
    rwa [Nat.cast_mul, Nat.cast_mul, Nat.cast_pow, Nat.cast_pow, Nat.cast_ofNat] at this
  have hu := unit_pos
  generalize (2 : ℝ) ^ 1074 = u at *
  have hh : (0 : ℝ) ≤ 2 ^ h := by positivity
  rw [← Real.sqrt_sq hu.le, ← Real.sqrt_mul hx, ← Real.sqrt_sq hh, ← Real.sqrt_mul (Nat.cast_nonneg m),
    ← pow_mul, Nat.mul_comm h 2, ← hR, ← hv, pow_two, mul_assoc]

theorem rootOf_roundsTo {x : F64} (hf : isFinite x = true) (hx : 0 < valueOf x) :
    RoundsTo √((valueOf x : ℚ) : ℝ) (rootOf x) := by
  have hmag : magnitude x ≠ 0 := fun h => hx.ne' (valueOf_eq_zero.mpr ((magnitude_eq_zero x).mp h))
  obtain ⟨h, m, h2, h2000, hN, hm, hm', hr⟩ := rootOf_significand x hf hmag
  have hv := sqrt_valueOf hx.le hN
  have hcmp := fun M => root_compare (M := M) (show 1 ≤ h by omega) hm'
  have hbig : 2 ^ (h + 60) ≤
      (2 * wholeSqrt 90 m + (decide (wholeSqrt 90 m * wholeSqrt 90 m ≠ m)).toNat) * 2 ^ (h - 1) := by
    have hr60 : 2 ^ 60 ≤ wholeSqrt 90 m := by
      by_contra hlt
      have := Nat.mul_self_le_mul_self (show wholeSqrt 90 m + 1 ≤ 2 ^ 60 by omega)
      have := (wholeSqrt_spec 90 m hm').2
      omega
    calc 2 ^ (h + 60) = 2 ^ 61 * 2 ^ (h - 1) := by
          rw [show h + 60 = 61 + (h - 1) by omega, Nat.pow_add]
      _ ≤ _ := Nat.mul_le_mul_right _ (by omega)
  rw [hr]
  generalize (2 * wholeSqrt 90 m + (decide (wholeSqrt 90 m * wholeSqrt 90 m ≠ m)).toNat) * 2 ^ (h - 1) = t at *
  obtain ⟨dbelow, dabove⟩ := middles_dvd (roundMag_ge_binade h2000 hbig)
  obtain ⟨hpat, hsign⟩ := withSign_eq false (Nat.lt_of_le_of_lt (roundMag_le t 1) infPattern_lt)
  have hnn := Real.sqrt_nonneg ((valueOf x : ℚ) : ℝ)
  refine ⟨?_, fun h => absurd h (not_lt.mpr hnn), fun _ => hsign⟩
  rw [rounded, hpat, abs_of_nonneg hnn]
  refine nearestPattern_of_middles (roundMag_le t 1) (fun hp => ?_) (fun hp => ?_) <;>
    rw [mul_assoc, hv, ← Nat.cast_add]
  · rw [(hcmp _ dbelow).1, (hcmp _ dbelow).2]
    simpa using roundMag_below Nat.one_pos hp
  · obtain ⟨clt, ceq⟩ := hcmp _ dabove
    rw [eq_comm (b := ((_ : ℕ) : ℝ)), ceq, lt_iff_le_and_ne, ← not_lt, ne_comm, Ne, clt, ceq]
    have := roundMag_above Nat.one_pos hp
    omega

theorem fsqrt_finite {x : F64} (free : F64) (hf : isFinite x = true) :
    (0 < valueOf x → RoundsTo √((valueOf x : ℚ) : ℝ) (fsqrt free x)) ∧
    (valueOf x = 0 → fsqrt free x = x) ∧ (valueOf x < 0 → fsqrt free x = defaultNaN) := by
  obtain ⟨hn, hi⟩ := finite_cases hf
  refine ⟨fun h => ?_, fun h => ?_, fun h => ?_⟩
  · have hz : isZero x = false := by simpa [valueOf_eq_zero] using h.ne'
    have hs : signBit x = false := by
      by_contra hs
      exact absurd h (not_lt.mpr (valueOf_nonpos (by simpa using hs)))
    have : fsqrt free x = rootOf x := by simp [fsqrt, hn, hi, hz, hs]
    exact this ▸ rootOf_roundsTo hf h
  · simp [fsqrt, hn, valueOf_eq_zero.mp h]
  · have hz : isZero x = false := by simpa [valueOf_eq_zero] using h.ne
    have hs : signBit x = true := by
      by_contra hs
      exact absurd h (not_lt.mpr (valueOf_nonneg (by simpa using hs)))
    simp [fsqrt, hn, hz, hs]

/-! NaNs and infinities. -/

theorem isNaN_zeros (neg : Bool) : isNaN (if neg then minusZero else plusZero) = false := by cases neg <;> decide

/-- A NaN made from operands that are none is the default one. -/
theorem fadd_nan_default {a b : F64} (free : F64) (ha : isNaN a = false) (hb : isNaN b = false)
    (h : isNaN (fadd free a b) = true) : fadd free a b = defaultNaN := by
  simp only [fadd, ha, hb, Bool.or_self, Bool.false_eq_true, if_false] at h ⊢
  by_cases hia : isInf a = true
  · by_cases hs : (isInf b && signBit a != signBit b) = true
    · rw [if_pos hia, if_pos hs]
    · simp [hia, hs, ha] at h
  · by_cases hib : isInf b = true
    · simp [hia, hib, hb] at h
    · by_cases h0 : signedUnits a + signedUnits b = 0
      · simp only [hia, hib, h0, isNaN_zeros, Bool.false_eq_true, if_false, if_true] at h
      · simp [hia, hib, h0] at h

theorem fsub_nan_default {a b : F64} (free : F64) (ha : isNaN a = false) (hb : isNaN b = false)
    (h : isNaN (fsub free a b) = true) : fsub free a b = defaultNaN := by
  rw [fsub_eq_fadd_negate free ha hb] at h ⊢
  exact fadd_nan_default free ha ((negate_spec b).2.2.1.trans hb) h

theorem fmul_nan_default {a b : F64} (free : F64) (ha : isNaN a = false) (hb : isNaN b = false)
    (h : isNaN (fmul free a b) = true) : fmul free a b = defaultNaN := by
  simp only [fmul, ha, hb, Bool.or_self, Bool.false_eq_true, if_false] at h ⊢
  split at h
  · split at h
    · rw [if_pos ‹_›, if_pos ‹_›]
    · simp [isNaN_withSign] at h
  · simp at h

theorem fdiv_nan_default {a b : F64} (free : F64) (ha : isNaN a = false) (hb : isNaN b = false)
    (h : isNaN (fdiv free a b) = true) : fdiv free a b = defaultNaN := by
  have hinf := fun neg => isNaN_withSign neg (Nat.le_refl infPattern)
  have hzero := fun neg => isNaN_withSign neg (Nat.zero_le infPattern)
  simp only [fdiv, ha, hb, Bool.or_self, Bool.false_eq_true, if_false] at h ⊢
  cases hia : isInf a <;> cases hib : isInf b <;> simp only [hia, hib, hinf, hzero, Bool.false_eq_true, if_false, if_true] at h ⊢
  cases hzb : isZero b <;> cases hza : isZero a <;> simp [hzb, hza, hinf] at h ⊢

theorem fsqrt_nan_default {a : F64} (free : F64) (ha : isNaN a = false) (h : isNaN (fsqrt free a) = true) :
    fsqrt free a = defaultNaN := by
  simp only [fsqrt, ha, Bool.false_eq_true, if_false] at h ⊢
  cases hz : isZero a <;> cases hs : signBit a <;> cases hi : isInf a <;> simp [hz, hs, hi, ha] at h ⊢

theorem fadd_infinite {a b : F64} (free : F64) (ha : isInf a = true) (hb : isInf b = true) :
    fadd free a b = if signBit a = signBit b then a else defaultNaN := by
  cases hs : signBit a <;> cases ht : signBit b <;> simp [fadd, (infinite_cases ha).1, (infinite_cases hb).1, ha, hb, hs, ht]

/-- Two infinities. -/
theorem infinite_operands {a b : F64} (free : F64) (ha : isInf a = true) (hb : isInf b = true) :
    fadd free a b = (if signBit a = signBit b then a else defaultNaN) ∧
    fsub free a b = (if signBit a = signBit b then defaultNaN else a) ∧
    fmul free a b = productInfinity a b ∧ fdiv free a b = defaultNaN ∧
    fsqrt free a = (if signBit a then defaultNaN else a) := by
  obtain ⟨hna, -, hza⟩ := infinite_cases ha
  obtain ⟨hnb, -, hzb⟩ := infinite_cases hb
  refine ⟨fadd_infinite free ha hb, ?_, ?_, ?_, ?_⟩
  · rw [fsub_eq_fadd_negate free hna hnb, fadd_infinite free ha (isInf_negate.trans hb), (negate_spec b).1]
    cases signBit a <;> cases signBit b <;> rfl
  · simp only [← withSign_infPattern, fmul, hna, hnb, ha, hza, hzb, Bool.or_self, Bool.true_or, Bool.false_eq_true, if_false, if_true]
  · simp [fdiv, hna, hnb, ha, hb]
  · simp [fsqrt, hna, ha, hza]

theorem fadd_infinite_finite {a b : F64} (free : F64) (ha : isInf a = true) (hb : isFinite b = true) :
    fadd free a b = a ∧ fadd free b a = a := by
  obtain ⟨hnb, hib⟩ := finite_cases hb
  simp [fadd, (infinite_cases ha).1, hnb, ha, hib]

theorem fmul_comm (free a b : F64) : fmul free b a = fmul free a b := by
  simp only [fmul, Bool.or_comm (isNaN b), Bool.or_comm (isInf b), Bool.or_comm (isZero b), Nat.mul_comm (magnitude b),
    bne_comm (a := signBit b)]

theorem fmul_infinite_finite {a b : F64} (free : F64) (ha : isInf a = true) (hb : isFinite b = true) :
    fmul free a b = if valueOf b = 0 then defaultNaN else productInfinity a b := by
  obtain ⟨hna, -, hza⟩ := infinite_cases ha
  simp only [← withSign_infPattern, valueOf_eq_zero, fmul, hna, (finite_cases hb).1, ha, hza, Bool.or_self, Bool.true_or,
    Bool.false_or, Bool.false_eq_true, if_false, if_true]

/-- An infinity and a finite value. -/
theorem infinite_finite_operands {a b : F64} (free : F64) (ha : isInf a = true) (hb : isFinite b = true) :
    fadd free a b = a ∧ fadd free b a = a ∧ fsub free a b = a ∧ fsub free b a = negate a ∧
    fmul free a b = (if valueOf b = 0 then defaultNaN else productInfinity a b) ∧
    fmul free b a = (if valueOf b = 0 then defaultNaN else productInfinity a b) ∧
    fdiv free a b = productInfinity a b ∧ fdiv free b a = productZero a b := by
  obtain ⟨hna, -, -⟩ := infinite_cases ha
  obtain ⟨hnb, hib⟩ := finite_cases hb
  obtain ⟨-, -, -, hfb⟩ := negate_spec b
  obtain ⟨hadd, hadd'⟩ := fadd_infinite_finite free ha hb
  have hzero : productZero b a = productZero a b := by unfold productZero; simp only [eq_comm]
  refine ⟨hadd, hadd', ?_, ?_, fmul_infinite_finite free ha hb, ?_, ?_, ?_⟩
  · rw [fsub_eq_fadd_negate free hna hnb]; exact (fadd_infinite_finite free ha (hfb.trans hb)).1
  · rw [fsub_eq_fadd_negate free hnb hna]; exact (fadd_infinite_finite free (isInf_negate.trans ha) hb).2
  · rw [fmul_comm]; exact fmul_infinite_finite free ha hb
  · simp only [← withSign_infPattern, fdiv, hna, hnb, ha, hib, Bool.or_self, Bool.false_eq_true, if_false, if_true]
  · simp only [← hzero, ← withSign_zero, fdiv, hna, hnb, ha, hib, Bool.or_self, Bool.false_eq_true, if_false, if_true]

theorem fdiv_by_zero {a b : F64} (free : F64) (ha : isFinite a = true) (hb : isFinite b = true) (h : valueOf b = 0) :
    fdiv free a b = if valueOf a = 0 then defaultNaN else productInfinity a b := by
  obtain ⟨hna, hia⟩ := finite_cases ha
  obtain ⟨hnb, hib⟩ := finite_cases hb
  simp only [← withSign_infPattern, valueOf_eq_zero, fdiv, hna, hnb, hia, hib, valueOf_eq_zero.mp h, Bool.or_self,
    Bool.false_eq_true, if_false, if_true]

/-! Comparisons. -/

theorem flt_iff (a b : F64) :
    flt a b = true ↔ isNaN a = false ∧ isNaN b = false ∧ extendedValue a < extendedValue b := by
  simp only [flt, Bool.and_eq_true, Bool.not_eq_true', decide_eq_true_eq, and_assoc]
  exact and_congr_right fun ha => and_congr_right fun hb => (extendedValue_lt_iff ha hb).symm

theorem feq_iff (a b : F64) :
    feq a b = true ↔ isNaN a = false ∧ isNaN b = false ∧ extendedValue a = extendedValue b := by
  simp only [feq, Bool.and_eq_true, Bool.not_eq_true', decide_eq_true_eq, and_assoc]
  exact and_congr_right fun ha => and_congr_right fun hb => (extendedValue_eq_iff ha hb).symm

theorem fgt_iff (a b : F64) :
    fgt a b = true ↔ isNaN a = false ∧ isNaN b = false ∧ extendedValue b < extendedValue a := by
  rw [fgt, flt_iff, and_left_comm]
/-- A NaN operand gives the quiet NaN of the free pattern. -/
theorem nan_operands {a b : F64} (free : F64) (h : isNaN a = true ∨ isNaN b = true) :
    fadd free a b = quietNaN free ∧ fsub free a b = quietNaN free ∧ fmul free a b = quietNaN free ∧
      fdiv free a b = quietNaN free := by
  rcases h with h | h <;> simp [fadd, fsub, fmul, fdiv, h]

/-- Settles O33: each clause is the spec of one primitive. -/
theorem roundingIsToNearestEven : Obligations.RoundingIsToNearestEven := by
  refine ⟨fun num den p hden hp hne => ⟨roundMag_le num den, roundMag_nearest hden hp hne⟩, fun free a b ha hb => ?_,
    fun free x hx => fsqrt_finite free hx, f64_roundsTo, fun free a b h => nan_operands free h, fun free x h => fsqrt_nan free h,
    fun y => ⟨isNaN_quietNaN y, quietNaN_quiet y, quietNaN_self⟩, fun free a b ha hb => ?_,
    fun free a b ha hb => infinite_operands free ha hb, fun free a b ha hb => infinite_finite_operands free ha hb,
    fun free a b ha hb h => fdiv_by_zero free ha hb h, fun a b => ⟨flt_iff a b, fgt_iff a b, feq_iff a b⟩, by decide⟩
  · obtain ⟨hadd, hadd0⟩ := fadd_spec free ha hb
    obtain ⟨hsub, hsub0⟩ := fsub_spec free ha hb
    obtain ⟨hmul, hmulsign⟩ := fmul_spec free ha hb
    exact ⟨hadd, hadd0, hsub, hsub0, hmul, hmulsign, fdiv_spec free ha hb⟩
  · exact ⟨fadd_nan_default free ha hb, fsub_nan_default free ha hb, fmul_nan_default free ha hb, fdiv_nan_default free ha hb,
      fsqrt_nan_default free ha⟩

end Sys2Proof.Machine
end

section
/-! SUPPORT. `EXP10` has the properties of 44_awgn.md R152, and its default is 10^x rounded to nearest. -/
namespace Sys2Proof.Machine

/-! Nearest patterns are ordered as the values are. -/

theorem gridValue_unit_lt {p q : Nat} (h : p < q) : (gridValue p : ℝ) / 2 ^ 1074 < (gridValue q : ℝ) / 2 ^ 1074 :=
  div_lt_div_of_pos_right (by exact_mod_cast gridValue_lt h) unit_pos

theorem NearestPattern.distance_le {v : ℝ} {p q : Nat} (h : NearestPattern v p) (hq : q ≤ infPattern) (hne : q ≠ p) :
    |v - (gridValue p : ℝ) / 2 ^ 1074| ≤ |v - (gridValue q : ℝ) / 2 ^ 1074| := by
  rcases h.2 q hq hne with h | ⟨h, -⟩ <;> exact h.le

/-- A value as near to the greater of two points as to the smaller lies at their middle or above. -/
theorem middle_le_of_distance_le {v a b : ℝ} (hab : a < b) (h : |v - b| ≤ |v - a|) : a + b ≤ 2 * v := by
  rcases abs_cases (v - a) with ha | ha <;> rcases abs_cases (v - b) with hb | hb <;> linarith

theorem le_middle_of_distance_le {v a b : ℝ} (hab : a < b) (h : |v - a| ≤ |v - b|) : 2 * v ≤ a + b := by
  rcases abs_cases (v - a) with ha | ha <;> rcases abs_cases (v - b) with hb | hb <;> linarith

/-- A greater value has no smaller nearest pattern: two patterns as near to one value would both be even, and the one between them
nearer. -/
theorem NearestPattern.mono {v w : ℝ} {p q : Nat} (hp : NearestPattern v p) (hq : NearestPattern w q) (h : v ≤ w) : p ≤ q := by
  by_contra hlt
  rw [not_le] at hlt
  have hpq := gridValue_unit_lt hlt
  have hv := middle_le_of_distance_le hpq (hp.distance_le hq.1 hlt.ne)
  have hw := le_middle_of_distance_le hpq (hq.distance_le hp.1 hlt.ne')
  obtain rfl : v = w := by linarith
  have hpe : p % 2 = 0 := by
    rcases hp.2 q hq.1 hlt.ne with h | ⟨-, h⟩
    · exact absurd h (not_lt.mpr (hq.distance_le hp.1 hlt.ne'))
    · exact h
  have hqe : q % 2 = 0 := by
    rcases hq.2 p hp.1 hlt.ne' with h | ⟨-, h⟩
    · exact absurd h (not_lt.mpr (hp.distance_le hq.1 hlt.ne))
    · exact h
  have hr : p - 1 < p := by omega
  have := middle_le_of_distance_le (gridValue_unit_lt hr) (hp.distance_le (by have := hp.1; omega) hr.ne)
  have := gridValue_unit_lt (show q < p - 1 by omega)
  linarith

/-! The default `EXP10` on finite arguments. -/

/-- The greatest pattern that is reached is the nearest one. -/
theorem greatest_nearestPattern {neg : Bool} {P Q : Nat} {v : ℝ} (hQ : 0 < Q) (hv : 0 < v)
    (hvQ : v ^ Q = if neg then 1 / 10 ^ P else 10 ^ P) : NearestPattern v (greatest (exp10Reaches neg P Q) 63 0) := by
  have hle : ∀ p, exp10Reaches neg P Q p = true → p ≤ infPattern := fun p h => by
    simp only [exp10Reaches, Bool.and_eq_true, decide_eq_true_eq] at h; exact h.1
  have hiff := fun p => exp10Reaches_iff neg P Q p hQ v hv hvQ
  have hdown : ∀ a b, 0 < a → a ≤ b → b < 0 + 2 ^ 63 → exp10Reaches neg P Q b = true → exp10Reaches neg P Q a = true := by
    intro a b ha hab _ hb
    have hbi := hle b hb
    rcases hab.eq_or_lt with rfl | hab
    · exact hb
    · have h1 : (gridValue (a - 1) : ℝ) < gridValue (b - 1) := by exact_mod_cast gridValue_lt (by omega)
      have h2 : (gridValue a : ℝ) < gridValue b := by exact_mod_cast gridValue_lt hab
      rw [hiff b hbi] at hb
      rw [hiff a (by omega)]
      left
      rcases hb with hb | ⟨hb, -⟩ <;> linarith
  obtain ⟨-, -, hyes, hno⟩ := greatest_spec (exp10Reaches neg P Q) 63 0 hdown
  generalize greatest (exp10Reaches neg P Q) 63 0 = p at hyes hno ⊢
  have hp : p ≤ infPattern := by
    rcases Nat.eq_zero_or_pos p with rfl | h
    · exact Nat.zero_le _
    · exact hle p (hyes p h le_rfl)
  refine nearestPattern_of_middles hp (fun h => (hiff p hp).mp (hyes p h le_rfl)) (fun h => ?_)
  have hn := hno (p + 1) (by omega) (by have := infPattern_lt; omega)
  rw [Bool.eq_false_iff, Ne, hiff (p + 1) h, Nat.add_sub_cancel, not_or, not_lt] at hn
  obtain ⟨hn1, hn2⟩ := hn
  rcases hn1.lt_or_eq with h1 | h1
  · exact .inl h1
  · exact .inr ⟨h1, by by_contra hodd; exact hn2 ⟨h1.symm, by omega⟩⟩

/-- 10^x to the power of the denominator of x. -/
theorem ten_rpow_pow_den (x : F64) :
    ((10 : ℝ) ^ ((valueOf x : ℚ) : ℝ)) ^ (2 ^ 1074 / Nat.gcd (magnitude x) (2 ^ 1074)) =
      if signBit x then 1 / 10 ^ (magnitude x / Nat.gcd (magnitude x) (2 ^ 1074))
      else 10 ^ (magnitude x / Nat.gcd (magnitude x) (2 ^ 1074)) := by
  have hu : 0 < 2 ^ 1074 := Nat.two_pow_pos 1074
  have hx : ((valueOf x : ℚ) : ℝ) = (if signBit x then -1 else 1) * (magnitude x : ℝ) / ((2 ^ 1074 : ℕ) : ℝ) := by
    rw [valueOf_eq, Nat.cast_pow, Nat.cast_ofNat]; split <;> push_cast <;> rfl
  generalize 2 ^ 1074 = u at *
  obtain ⟨P, hP⟩ := Nat.gcd_dvd_left (magnitude x) u
  obtain ⟨Q, hQ⟩ := Nat.gcd_dvd_right (magnitude x) u
  have hg := Nat.gcd_pos_of_pos_right (magnitude x) hu
  generalize Nat.gcd (magnitude x) u = g at *
  have hg' : (g : ℝ) ≠ 0 := by exact_mod_cast hg.ne'
  have hQ' : (Q : ℝ) ≠ 0 := by
    rintro h0
    rw [Nat.cast_eq_zero] at h0
    rw [hQ, h0] at hu; omega
  rw [hP, hQ] at hx ⊢
  rw [Nat.mul_div_cancel_left _ hg, Nat.mul_div_cancel_left _ hg, ← Real.rpow_natCast, ← Real.rpow_mul (by norm_num), hx]
  have e : (if signBit x then -1 else 1) * ((g * P : ℕ) : ℝ) / ((g * Q : ℕ) : ℝ) * Q = (if signBit x then -1 else 1) * (P : ℝ) := by
    push_cast; field_simp
  rw [e]
  cases signBit x
  · simp
  · simp [Real.rpow_neg]

theorem two_pow_le_ten_rpow {t : ℝ} (h : 400 ≤ t) : (2 : ℝ) ^ 1200 ≤ 10 ^ t := by
  calc (2 : ℝ) ^ 1200 = (2 ^ 3) ^ 400 := by rw [← pow_mul]
    _ ≤ 10 ^ 400 := pow_le_pow_left₀ (by norm_num) (by norm_num) 400
    _ = 10 ^ ((400 : ℕ) : ℝ) := (Real.rpow_natCast 10 400).symm
    _ ≤ 10 ^ t := Real.rpow_le_rpow_of_exponent_le (by norm_num) (by exact_mod_cast h)

theorem gridValue_infPattern : gridValue infPattern = 2 ^ 2098 := by
  rw [show infPattern = 2046 * 2 ^ 52 + 2 ^ 52 by rfl, gridValue_binade (.inr le_rfl) (by omega), ← Nat.pow_add]

/-- From 10^400 on the nearest pattern is that of +∞. -/
theorem nearestPattern_overflow {v : ℝ} (h : 2 ^ 1200 ≤ v) : NearestPattern v infPattern := by
  refine nearestPattern_of_middles le_rfl (fun _ => .inl ?_) (fun h => absurd h (lt_irrefl _))
  have hlt : (gridValue (infPattern - 1) : ℝ) < gridValue infPattern := by exact_mod_cast gridValue_lt (by decide)
  have hinf : (gridValue infPattern : ℝ) ≤ v * 2 ^ 1074 := by
    calc (gridValue infPattern : ℝ) = 2 ^ 2098 := by rw [gridValue_infPattern, Nat.cast_pow, Nat.cast_ofNat]
      _ ≤ 2 ^ (1200 + 1074) := pow_le_pow_right₀ (by norm_num) (by norm_num)
      _ = 2 ^ 1200 * 2 ^ 1074 := pow_add _ _ _
      _ ≤ v * 2 ^ 1074 := mul_le_mul_of_nonneg_right h unit_pos.le
  rw [mul_assoc]
  linarith

/-- Up to 10^-400 the nearest pattern is that of +0.0. -/
theorem nearestPattern_underflow {v : ℝ} (h : v ≤ (2 ^ 1200)⁻¹) : NearestPattern v 0 := by
  refine nearestPattern_of_middles (Nat.zero_le _) (fun h => absurd h (lt_irrefl _)) (fun _ => .inl ?_)
  have hg : (gridValue 0 + gridValue (0 + 1) : ℝ) = 1 := by simp [gridValue]
  rw [hg]
  have hsmall : ((2 : ℝ) ^ 1200)⁻¹ * 2 ^ 1074 = (2 ^ 126)⁻¹ := by
    rw [show (1200 : ℕ) = 126 + 1074 from rfl, pow_add, mul_inv, mul_assoc, inv_mul_cancel₀ unit_pos.ne', mul_one]
  have := mul_le_mul_of_nonneg_right h unit_pos.le
  rw [hsmall] at this
  rw [mul_assoc]
  calc 2 * (v * 2 ^ 1074) ≤ 2 * (2 ^ 126)⁻¹ := mul_le_mul_of_nonneg_left this zero_le_two
    _ < 1 := by norm_num

/-- The default `EXP10` of a finite value is not negative, and its pattern is the one nearest to 10^x. -/
theorem exp10Rounded_finite {x : F64} (hx : isFinite x = true) :
    NearestPattern ((10 : ℝ) ^ ((valueOf x : ℚ) : ℝ)) ((exp10Rounded x).toNat % 2 ^ 63) ∧ signBit (exp10Rounded x) = false := by
  obtain ⟨hn, hi⟩ := finite_cases hx
  by_cases hfar : 400 * 2 ^ 1074 ≤ magnitude x
  · have habs : (400 : ℝ) ≤ |((valueOf x : ℚ) : ℝ)| := by
      refine le_of_mul_le_mul_right ?_ unit_pos
      rw [abs_valueOf]
      have := Nat.cast_le (α := ℝ).mpr hfar
      rwa [Nat.cast_mul, Nat.cast_pow, Nat.cast_ofNat, Nat.cast_ofNat] at this
    have hr : exp10Rounded x = if signBit x then plusZero else plusInf := by
      unfold exp10Rounded
      rw [if_neg (by simp [hn]), if_pos (by rw [hi, Bool.false_or]; exact decide_eq_true hfar)]
    cases hs : signBit x
    · have h0 : (0 : ℝ) ≤ ((valueOf x : ℚ) : ℝ) := by exact_mod_cast valueOf_nonneg hs
      rw [abs_of_nonneg h0] at habs
      rw [hr, hs]
      exact ⟨nearestPattern_overflow (two_pow_le_ten_rpow habs), by decide⟩
    · have h0 : ((valueOf x : ℚ) : ℝ) ≤ 0 := by exact_mod_cast valueOf_nonpos hs
      rw [abs_of_nonpos h0] at habs
      rw [hr, hs, ← neg_neg ((valueOf x : ℚ) : ℝ), Real.rpow_neg (by norm_num)]
      exact ⟨nearestPattern_underflow (inv_anti₀ (by positivity) (two_pow_le_ten_rpow habs)), by decide⟩
  · have hr : exp10Rounded x = BitVec.ofNat 64 (greatest (exp10Reaches (signBit x)
        (magnitude x / Nat.gcd (magnitude x) (2 ^ 1074)) (2 ^ 1074 / Nat.gcd (magnitude x) (2 ^ 1074))) 63 0) := by
      unfold exp10Rounded
      rw [if_neg (by simp [hn]), if_neg (by rw [hi, Bool.false_or]; simpa only [decide_eq_true_eq] using hfar)]
    have hQ : 0 < 2 ^ 1074 / Nat.gcd (magnitude x) (2 ^ 1074) :=
      Nat.div_pos (Nat.gcd_le_right _ (Nat.two_pow_pos _)) (Nat.gcd_pos_of_pos_right _ (Nat.two_pow_pos _))
    have hnear := greatest_nearestPattern hQ (Real.rpow_pos_of_pos (by norm_num) _) (ten_rpow_pow_den x)
    obtain ⟨hpat, hsign⟩ := ofNat_pattern _ (Nat.lt_of_le_of_lt hnear.1 infPattern_lt)
    rw [hr, hpat]
    exact ⟨hnear, hsign⟩

theorem exp10Rounded_roundsTo {x : F64} (hx : isFinite x = true) :
    RoundsTo ((10 : ℝ) ^ ((valueOf x : ℚ) : ℝ)) (exp10Rounded x) := by
  obtain ⟨hnear, hsign⟩ := exp10Rounded_finite hx
  have hpos : (0 : ℝ) < 10 ^ ((valueOf x : ℚ) : ℝ) := Real.rpow_pos_of_pos (by norm_num) _
  exact ⟨by rwa [abs_of_pos hpos], fun h => absurd h (not_lt.mpr hpos.le), fun _ => hsign⟩

/-! The properties of every `EXP10`. -/

theorem finite_or_infinite {x : F64} (h : isNaN x = false) : isFinite x = true ∨ x = minusInf ∨ x = plusInf := by
  obtain ⟨hn, hi, hf⟩ := pattern_cases x
  have hle : x.toNat % 2 ^ 63 ≤ infPattern := by simpa [h] using hn
  rcases hle.lt_or_eq with hlt | heq
  · exact .inl (hf.mpr hlt)
  · have := infinite_eq (hi.mpr heq)
    cases hs : signBit x <;> simp only [hs, if_true, if_false, Bool.false_eq_true] at this
    · exact .inr (.inr this)
    · exact .inr (.inl this)

theorem exp10Rounded_plusInf : exp10Rounded plusInf = plusInf := by decide +kernel
theorem exp10Rounded_minusInf : exp10Rounded minusInf = plusZero := by decide +kernel

/-- The default `EXP10` of what is no NaN is a non-negative pattern up to that of +∞. -/
theorem exp10Rounded_not_nan {x : F64} (h : isNaN x = false) :
    (exp10Rounded x).toNat % 2 ^ 63 ≤ infPattern ∧ signBit (exp10Rounded x) = false := by
  rcases finite_or_infinite h with hf | rfl | rfl
  · obtain ⟨hnear, hsign⟩ := exp10Rounded_finite hf
    exact ⟨hnear.1, hsign⟩
  · rw [exp10Rounded_minusInf]; decide
  · rw [exp10Rounded_plusInf]; decide

theorem orderKey_of_nonneg {y : F64} (h : signBit y = false) : orderKey y = (y.toNat % 2 ^ 63 : Nat) := by
  simp [orderKey, h]

theorem orderKey_finite_lt {x : F64} (h : isFinite x = true) : orderKey minusInf < orderKey x ∧ orderKey x < orderKey plusInf := by
  have hlt := (pattern_cases x).2.2.mp h
  rw [show orderKey minusInf = -(infPattern : ℤ) by decide, show orderKey plusInf = infPattern by decide, orderKey]
  split <;> omega

theorem valueOf_le_of_orderKey_le {x y : F64} (hx : isFinite x = true) (hy : isFinite y = true)
    (h : orderKey x ≤ orderKey y) : valueOf x ≤ valueOf y := by
  obtain ⟨hnx, hix⟩ := finite_cases hx
  obtain ⟨hny, hiy⟩ := finite_cases hy
  have := (not_congr (extendedValue_lt_iff hny hnx)).mpr (not_lt.mpr h)
  simpa [extendedValue, hix, hiy] using this

theorem exp10Rounded_mono {x y : F64} (hx : isNaN x = false) (hy : isNaN y = false) (h : orderKey x ≤ orderKey y) :
    orderKey (exp10Rounded x) ≤ orderKey (exp10Rounded y) := by
  obtain ⟨hxle, hxs⟩ := exp10Rounded_not_nan hx
  obtain ⟨hyle, hys⟩ := exp10Rounded_not_nan hy
  rw [orderKey_of_nonneg hxs, orderKey_of_nonneg hys, Int.ofNat_le]
  have hmin : (exp10Rounded minusInf).toNat % 2 ^ 63 = 0 := by rw [exp10Rounded_minusInf]; rfl
  have hmax : (exp10Rounded plusInf).toNat % 2 ^ 63 = infPattern := by rw [exp10Rounded_plusInf]; rfl
  rcases finite_or_infinite hx with hfx | rfl | rfl
  · rcases finite_or_infinite hy with hfy | rfl | rfl
    · refine (exp10Rounded_finite hfx).1.mono (exp10Rounded_finite hfy).1 ?_
      exact Real.rpow_le_rpow_of_exponent_le (by norm_num) (by exact_mod_cast valueOf_le_of_orderKey_le hfx hfy h)
    · exact absurd h (not_le.mpr (orderKey_finite_lt hfx).1)
    · exact hmax ▸ hxle
  · exact hmin ▸ Nat.zero_le _
  · rcases finite_or_infinite hy with hfy | rfl | rfl
    · exact absurd h (not_le.mpr (orderKey_finite_lt hfy).2)
    · exact absurd h (by decide)
    · exact le_rfl

theorem exp10Rounded_legal : Exp10Legal exp10Rounded := by
  refine ⟨by decide +kernel, by decide +kernel, exp10Rounded_plusInf, exp10Rounded_minusInf, fun i h => ?_, fun i h => ?_,
    fun i j hi hj h => exp10Rounded_mono hi hj h⟩
  · rw [exp10Rounded, if_pos h]; decide
  · obtain ⟨hle, hs⟩ := exp10Rounded_not_nan h
    exact ⟨by rw [Bool.eq_false_iff, Ne, (pattern_cases _).1, not_lt]; exact hle, hs⟩

/-- Either choice is legal: the other function is taken only where it is (00_scope.md R6). -/
theorem exp10_legal (c : Config.Exp10Choice) : Exp10Legal (exp10 c) := by
  cases c with
  | rounded => exact exp10Rounded_legal
  | other =>
    by_cases h : Exp10Legal Config.otherExp10
    · rwa [show exp10 .other = Config.otherExp10 from funext fun x => if_pos h]
    · rw [show exp10 .other = exp10Rounded from funext fun x => if_neg h]
      exact exp10Rounded_legal

/-- Settles O31: both choices are legal, and the default is the nearest pattern. -/
theorem everyExpTenIsLegal : Obligations.EveryExpTenIsLegal := by
  refine ⟨fun c => ?_, fun x hx => exp10Rounded_roundsTo hx⟩
  obtain ⟨hp0, hm0, hpi, hmi, hnan, hval, hmono⟩ := exp10_legal c
  exact ⟨hp0, hm0, hpi, hmi, fun x => hnan x.toFin, fun x => hval x.toFin, fun x y => hmono x.toFin y.toFin⟩

end Sys2Proof.Machine
end

section
/-! SUPPORT. What a command finds and leaves: the cause of each error, the stop on unwritten input, and the frame
(10_state.md R29, R32, R39, R42; 60_exceptions.md R173, R174). -/
namespace Sys2Proof.Machine

/-! The bit check: the first byte that is no bit (60_exceptions.md R174, check 5). -/

theorem exists_first_nonbit {s : State} {n : Nat} (h : ¬bitsUpTo s n) :
    ∃ j, j < n ∧ bitsUpTo s j ∧ Memory.read s.ibuf j ≠ some 0 ∧ Memory.read s.ibuf j ≠ some 1 := by
  have hex : ∃ j, j < n ∧ ¬(Memory.read s.ibuf j = some 0 ∨ Memory.read s.ibuf j = some 1) := by
    simpa only [bitsUpTo, not_forall, exists_prop] using h
  obtain ⟨hlt, hbad⟩ := Nat.find_spec hex
  exact ⟨Nat.find hex, hlt, fun k hk => by_contra fun hb => Nat.find_min hex hk ⟨hk.trans hlt, hb⟩, not_or.mp hbad⟩

/-- An error of the scan is the first byte that is no bit, by its index. -/
theorem scanBits_error_first {s : State} {n : Nat} {c : ErrorCode} {info : Word} (h : scanBits s.ibuf 0 n = .error c info) :
    c = .invalidBit ∧ ∃ j b, j < n ∧ info = BitVec.ofNat 32 j ∧ bitsUpTo s j ∧ Memory.read s.ibuf j = some b ∧ b ≠ 0 ∧ b ≠ 1 := by
  have hn : ¬bitsUpTo s n := fun hb => by
    rw [(scanBits_eq_pass _ _ _).mpr (by simpa [bitsUpTo] using hb)] at h
    cases h
  obtain ⟨j, hj, hbits, hr0, hr1⟩ := exists_first_nonbit hn
  cases hr : Memory.read s.ibuf j with
  | none => rw [scanBits_unwritten _ hj hr hbits] at h; cases h
  | some b =>
    have h0 : b ≠ 0 := fun hb => hr0 (hb ▸ hr)
    have h1 : b ≠ 1 := fun hb => hr1 (hb ▸ hr)
    rw [scanBits_invalid _ hj hr h0 h1 hbits] at h
    cases h
    exact ⟨rfl, j, b, hj, rfl, hbits, hr, h0, h1⟩

/-! The checks of a command. -/

/-- With the length checks passed, what is left is the bit check. -/
theorem check_of_lengthsPass {i : Instr} {s : State} (h : lengthsPass i s) :
    check (shapeOf i) s = if takesBits i then scanBits s.ibuf 0 s.inLen.toNat else .pass := by
  obtain ⟨hin, hodd, hout⟩ := h
  rw [check_content (by simpa [inBytes] using hin) (by simpa using hodd) (by simpa [outBytes] using hout), shapeOf_checksBits]

theorem oddError_eq {i : Instr} {c : ErrorCode} (h : oddError i = some c) : c = .invalidLength ∨ c = .oddLength := by
  cases i <;> cases h
  case manDec => exact .inl rfl
  case qpskMod => exact .inr rfl

/-- What has failed where the checks report an error, and the info beside it (60_exceptions.md R173, R174). -/
theorem check_error_cause {i : Instr} {s : State} {c : ErrorCode} {info : Word} (h : check (shapeOf i) s = .error c info) :
    (c = .capacity ∧ info = 0 ∧ s.cfg.ibufBytes < inBytes i s) ∨ (oddError i = some c ∧ info = 0) ∨
    (c = .capacity ∧ info = 1 ∧ s.cfg.obufBytes < outBytes i s) ∨
    (c = .invalidBit ∧ ∃ j b, j < s.inLen.toNat ∧ info = BitVec.ofNat 32 j ∧ bitsUpTo s j ∧
      Memory.read s.ibuf j = some b ∧ b ≠ 0 ∧ b ≠ 1) := by
  by_cases hin : s.cfg.ibufBytes < inBytes i s
  · rw [check_capacityIn (by simpa [inBytes] using hin)] at h
    cases h
    exact .inl ⟨rfl, rfl, hin⟩
  have hfits : s.inLen.toNat * elemSize (shapeOf i).input ≤ s.cfg.ibufBytes := by simpa [inBytes] using hin
  by_cases hodd : oddError i = none ∨ s.inLen.toNat % 2 = 0
  · have hparity : (shapeOf i).parity = none ∨ s.inLen.toNat % 2 = 0 := by simpa using hodd
    by_cases hout : s.cfg.obufBytes < outBytes i s
    · rw [check_capacityOut hfits hparity (by simpa [outBytes] using hout)] at h
      cases h
      exact .inr (.inr (.inl ⟨rfl, rfl, hout⟩))
    · rw [check_of_lengthsPass ⟨not_lt.mp hin, hodd, not_lt.mp hout⟩] at h
      split at h
      · exact .inr (.inr (.inr (scanBits_error_first h)))
      · cases h
  · obtain ⟨hsome, hn⟩ := not_or.mp hodd
    obtain ⟨e, he⟩ := Option.ne_none_iff_exists'.mp hsome
    rw [check_parity hfits (by simpa using he) (Nat.mod_two_ne_zero.mp hn)] at h
    cases h
    exact .inr (.inl ⟨he, rfl⟩)

/-- An error a command ends in is one of those it can raise: not the absence of one, and not the reserved code. -/
theorem check_error_raised {i : Instr} {s : State} {c : ErrorCode} {info : Word} (h : check (shapeOf i) s = .error c info) :
    c ≠ .none ∧ c ≠ .lengthMismatch := by
  rcases check_error_cause h with ⟨rfl, -⟩ | ⟨hodd, -⟩ | ⟨rfl, -⟩ | ⟨rfl, -⟩
  · decide
  · rcases oddError_eq hodd with rfl | rfl <;> decide
  · decide
  · decide

/-! Unwritten input. -/

theorem inputs_realAt_eq_none {s : State} {k : Nat} (hk : k < s.inLen.toNat * 8) (h : Memory.read s.ibuf k = none) :
    inputs s realAt = none :=
  (collect_eq_none _ _ _).mpr ⟨k / 8, by omega, (realAt_eq_none _ _).mpr ⟨k, by omega, by omega, h⟩⟩

theorem inputs_cplxAt_eq_none {s : State} {k : Nat} (hk : k < s.inLen.toNat * 16) (h : Memory.read s.ibuf k = none) :
    inputs s cplxAt = none :=
  (collect_eq_none _ _ _).mpr ⟨k / 16, by omega, (cplxAt_eq_none _ _).mpr ⟨k, by omega, by omega, h⟩⟩

/-- A command that takes no bits reads its whole input in its body (20_memory.md R63). -/
theorem bodyFor_unwritten {i : Instr} {s : State} (hb : takesBits i = false) (h : ¬inputWritten i s) :
    bodyFor i s = .error .unwrittenInput := by
  obtain ⟨k, hk, hr⟩ : ∃ k, k < inBytes i s ∧ Memory.read s.ibuf k = none := by simpa [inputWritten] using h
  cases i
  case manEnc | bpskMod | qpskMod => cases hb
  case manDec | bpskDemod | awgnReal => exact bodyOf_error (inputs_realAt_eq_none hk hr)
  case qpskDemod | awgnCplx => exact bodyOf_error (inputs_cplxAt_eq_none hk hr)

/-- A command whose checks stop is stopped by that fault. -/
theorem exec_stop {i : Instr} {s : State} {f : Fault} (hc : check (shapeOf i) s = .stop f) : exec i s = .fault f := by
  rw [exec_eq_operate, operate_stop hc]

/-- A command whose checks pass and whose body stops is stopped by that fault. -/
theorem exec_fault {i : Instr} {s : State} {f : Fault} (hc : check (shapeOf i) s = .pass) (hb : bodyFor i s = .error f) :
    exec i s = .fault f := by
  rw [exec_eq_operate, operate_fault hc (by rw [bodyFor_start, hb])]

/-- Settles O18: the bit commands stop in their check, the others in their body. -/
theorem unwrittenInputFaults : Obligations.UnwrittenInputFaults := by
  intro i s hl
  refine ⟨fun hb j hj hbits hr => exec_stop ?_, fun hb hw => exec_fault ?_ (bodyFor_unwritten hb hw)⟩
  · rw [check_of_lengthsPass hl, if_pos hb, scanBits_unwritten _ hj hr hbits]
  · rw [check_of_lengthsPass hl, if_neg (by simp [hb])]

/-! What a command leaves. -/

/-- Settles O20: the info is what the failed check gives beside its error. -/
theorem errInfoRecordsTheCause : Obligations.ErrInfoRecordsTheCause := by
  intro i s t h
  rcases exec_next h with ⟨c, info, hc, rfl⟩ | ⟨o, -, -, -, rfl⟩
  · rcases check_error_cause hc with ⟨rfl, rfl, hin⟩ | ⟨hodd, rfl⟩ | ⟨rfl, rfl, hout⟩ | ⟨rfl, hfirst⟩
    · exact ⟨nofun, nofun, nofun, fun _ => .inl ⟨rfl, hin⟩, nofun⟩
    · rcases oddError_eq hodd with rfl | rfl <;> exact ⟨nofun, fun _ => rfl, fun _ => rfl, nofun, nofun⟩
    · exact ⟨nofun, nofun, nofun, fun _ => .inr ⟨rfl, hout⟩, nofun⟩
    · exact ⟨nofun, nofun, nofun, nofun, fun _ => hfirst⟩
  · exact ⟨fun _ => rfl, nofun, nofun, nofun, nofun⟩

/-- Settles O22: `failedWith` and `succeededWith` name every field that changes, and the output's bytes stand below `outBytes`. -/
theorem operationsLeaveTheRestAlone : Obligations.OperationsLeaveTheRestAlone := by
  intro i s t h
  rcases exec_next h with ⟨c, info, -, rfl⟩ | ⟨o, -, -, hlen, rfl⟩
  · exact ⟨rfl, rfl, rfl, rfl, rfl, rfl, rfl, rfl, rfl, rfl, rfl, rfl, rfl, fun _ _ => rfl⟩
  · exact ⟨rfl, rfl, rfl, rfl, rfl, rfl, rfl, rfl, rfl, rfl, rfl, rfl, rfl,
      fun k hk => Memory.read_writeList_outside _ _ (.inr (by omega))⟩

/-- Settles O23: `succeededWith` adds the draws of the command, `failedWith` leaves the count, and each has its own `ERR`. -/
theorem drawsAreCounted : Obligations.DrawsAreCounted := by
  intro i s t h
  rcases exec_next h with ⟨c, info, hc, rfl⟩ | ⟨o, -, -, -, rfl⟩
  · exact ⟨fun hnone => absurd hnone (check_error_raised hc).1, fun _ => rfl⟩
  · exact ⟨fun _ => rfl, fun herr => absurd rfl herr⟩

end Sys2Proof.Machine
end

section
/-! SUPPORT. The register map as the host reads and writes it, the reserved space around it, reads and the interrupt output
(10_state.md R20 to R41; 20_memory.md R50 to R62). -/
namespace Sys2Proof.Machine

/-! Offsets without a register. -/

/-- An offset of the register window that is no register's is reserved. -/
theorem regAt_eq_none {a : Nat} (h : ∀ r, regOffset r ≠ a) : regAt a = none := by
  simp [regAt, h]

theorem regOffset_lt_reserved (r : Reg) : regOffset r < 0x040 := by cases r <;> decide

theorem regOffset_ne_gap (r : Reg) : regOffset r ≠ 0x01C := by cases r <;> decide

theorem windowOf_unmapped {a : Nat} (h : (0x1000 ≤ a ∧ a < 0x100000) ∨ 0x300000 ≤ a) : windowOf a = .unmapped := by
  unfold windowOf; rw [if_neg (by omega), if_neg (by omega), if_neg (by omega)]

/-- Reserved register offsets read 0 and ignore writes (10_state.md R37). -/
theorem hostAccess_reserved (s : State) {a : Nat} (w : Word) (ha : a < 0x1000) (h : ∀ r, regOffset r ≠ a) :
    hostRead s a = .ok 0 ∧ hostWrite s a w = s := by
  simp only [hostRead, hostWrite, windowOf_reg ha, regAt_eq_none h, and_self]

/-- Unmapped ranges read 0 and ignore writes (20_memory.md R57). -/
theorem hostAccess_unmapped (s : State) {a : Nat} (w : Word) (h : (0x1000 ≤ a ∧ a < 0x100000) ∨ 0x300000 ≤ a) :
    hostRead s a = .ok 0 ∧ hostWrite s a w = s := by
  simp only [hostRead, hostWrite, windowOf_unmapped h, and_self]

/-- Settles O51: a reserved offset is no register's, and the two other ranges lie in no window. -/
theorem reservedSpaceReadsZero : Obligations.ReservedSpaceReadsZero := by
  rintro s a w (rfl | ⟨hlo, hhi⟩ | hgap | ⟨htop, -⟩)
  · exact hostAccess_reserved s w (by decide) regOffset_ne_gap
  · exact hostAccess_reserved s w hhi fun r => ((regOffset_lt_reserved r).trans_le hlo).ne
  · exact hostAccess_unmapped s w (.inl hgap)
  · exact hostAccess_unmapped s w (.inr htop)

/-! Registers that hold a value. -/

/-- Settles O45: both are registers of the map, with constant reads and ignored writes. -/
theorem identificationIsConstant : Obligations.IdentificationIsConstant := fun s w =>
  ⟨hostRead_reg s .id, hostRead_reg s .version, hostWrite_reg s .id w, hostWrite_reg s .version w⟩

/-- Settles O50, register by register. -/
theorem readOnlyRegisters : Obligations.ReadOnlyRegisters := by
  intro s w
  refine ⟨hostRead_reg s .outLen, hostRead_reg s .errInfo, hostRead_reg s .drawCntLo, hostRead_reg s .drawCntHi,
    hostRead_reg s .ibufSize, hostRead_reg s .obufSize, ?_⟩
  simp only [List.forall_mem_cons]
  exact ⟨hostWrite_reg s .outLen w, hostWrite_reg s .errInfo w, hostWrite_reg s .drawCntLo w, hostWrite_reg s .drawCntHi w,
    hostWrite_reg s .ibufSize w, hostWrite_reg s .obufSize w, nofun⟩

/-- What a register reads after a write to another, or to itself, is its read in the state the write's rule gives. -/
theorem hostRead_hostWrite_reg (s : State) (r r' : Reg) (w : Word) :
    hostRead (hostWrite s (regOffset r) w) (regOffset r') = .ok (regRead (regWrite s r w) r') := by
  rw [hostWrite_reg, hostRead_reg]

/-- Settles O48: each write's rule sets its register, and the halves of a pair are the parts of the joined word. -/
theorem lengthAndSnrReadBack : Obligations.LengthAndSnrReadBack := fun s w =>
  ⟨hostWrite_reg s .inLen w, hostRead_hostWrite_reg s .inLen .inLen w,
    hostWrite_reg s .snrLo w, hostRead_hostWrite_reg s .snrLo .snrLo w,
    hostWrite_reg s .snrHi w, hostRead_hostWrite_reg s .snrHi .snrHi w,
    BitVec.extractLsb'_append_eq_right, BitVec.extractLsb'_append_eq_left⟩

/-- Settles O49: the rule of either half sets the draw count too. -/
theorem seedWriteRestartsTheStream : Obligations.SeedWriteRestartsTheStream := fun s w =>
  ⟨hostWrite_reg s .seedLo w, hostWrite_reg s .seedHi w,
    hostRead_hostWrite_reg s .seedLo .seedLo w, hostRead_hostWrite_reg s .seedHi .seedHi w,
    (hostRead_hostWrite_reg s .seedLo .drawCntLo w).trans (congrArg Except.ok BitVec.extractLsb'_zero),
    (hostRead_hostWrite_reg s .seedHi .drawCntHi w).trans (congrArg Except.ok BitVec.extractLsb'_zero),
    BitVec.extractLsb'_append_eq_right, BitVec.extractLsb'_append_eq_left⟩

/-! `CTRL` and `STATUS` (10_state.md R25, R26). -/

/-- The word packed from a word's own `OP` and `IRQ_EN` is that word with every other bit 0 (30_encoding.md R75). -/
theorem packWord_fields (w : Word) : packWord (irqField w) (opField w) false = w &&& 0x000001F0 := by
  refine BitVec.eq_of_getLsbD_eq fun j hj => ?_
  simp only [packWord, irqField, opField, BitVec.getLsbD_append, BitVec.getLsbD_and, BitVec.getLsbD_ofBool,
    BitVec.getLsbD_extractLsb']
  interval_cases j <;> simp

theorem writeCtrl_noStart {s : State} {w : Word} (h : startField w = false) :
    writeCtrl s w = s.storeCommand (opField w) (irqField w) := by simp [writeCtrl, h]

theorem writeCtrl_start {s : State} {w : Word} (h : startField w = true) :
    writeCtrl s w = s.start (opField w) (irqField w) := by simp [writeCtrl, h]

/-- After a `CTRL` write `CTRL` reads the two stored fields (30_encoding.md R76). -/
theorem ctrlWord_writeCtrl (s : State) (w : Word) : ctrlWord (writeCtrl s w) = w &&& 0x000001F0 := by
  rw [← packWord_fields]
  cases h : startField w
  · rw [writeCtrl_noStart h]; rfl
  · rw [writeCtrl_start h]; rfl

/-- Settles O46: a `CTRL` write is `writeCtrl`, by `START`. -/
theorem ctrlWriteStoresOpAndIrqEn : Obligations.CtrlWriteStoresOpAndIrqEn := by
  intro s w
  have hw : hostWrite s 0x008 w = writeCtrl s w := hostWrite_reg s .ctrl w
  refine ⟨?_, fun h => hw.trans (writeCtrl_noStart h), fun h => hw.trans (writeCtrl_start h)⟩
  rw [hw, ← ctrlWord_writeCtrl s w]
  exact hostRead_reg _ .ctrl

/-- The fields of the word `STATUS` reads as. -/
theorem statusWord_fields (s : State) :
    (statusWord s).getLsbD 0 = decide (s.phase = .busy) ∧ (statusWord s).getLsbD 1 = s.done ∧
    (statusWord s).extractLsb' 2 6 = 0 ∧ (statusWord s).extractLsb' 12 20 = 0 ∧
    (statusWord s).extractLsb' 8 4 = s.err.bits := by
  simp only [statusWord, State.busy]
  generalize s.err.bits = e, s.done = d, decide (s.phase = .busy) = b
  revert e d b
  decide

/-- Settles O47: the fields of `STATUS` are those of `statusWord`, and the error field spells the code's number. -/
theorem statusFieldsAndWriteOneToClear : Obligations.StatusFieldsAndWriteOneToClear := by
  refine ⟨fun s w => ⟨⟨statusWord s, hostRead_reg s .status, ?_⟩, hostWrite_reg s .status w⟩, rfl, rfl, rfl, rfl, rfl, rfl, rfl⟩
  obtain ⟨hbusy, hdone, hlow, hhigh, herr⟩ := statusWord_fields s
  refine ⟨hbusy, hdone, hlow, hhigh, herr, ?_⟩
  have number : ∀ e, s.err = e → (statusWord s).extractLsb' 8 4 = e.bits := fun e he => he ▸ herr
  exact ⟨number .none, number .invalidBit, number .oddLength, number .invalidLength, number .lengthMismatch,
    number .illegalOp, number .capacity⟩

/-! Reads (20_memory.md R62). -/

/-- A host read faults only at OBUF bytes never written (10_state.md R39). -/
theorem hostRead_error {s : State} {a : Nat} {f : Fault} (h : hostRead s a = .error f) : f = .unwrittenOutput := by
  simp only [hostRead] at h
  split at h
  · cases h
  · split at h <;> cases h
  · split at h
    · split at h <;> cases h; rfl
    · cases h
  · cases h

/-- Settles O54: a performed read is `hostRead` and its answer. -/
theorem readsHaveNoSideEffect : Obligations.ReadsHaveNoSideEffect := by
  refine ⟨fun s t a w h => ?_, fun s a w hw => ⟨fun d hd => perform_read hw hd, fun f hf =>
    ⟨perform_read_fault hw hf, hostRead_error hf⟩⟩⟩
  obtain ⟨-, ⟨a', w', d, hr, hd, rfl⟩ | ⟨a', w', d, hr, -⟩⟩ := perform_next h <;> cases hr
  exact ⟨d, hd, rfl⟩

/-! The interrupt output and reset. -/

/-- Settles O55: the two bits are the fields `irq` is made of, and a reset clears both. -/
theorem irqIsDoneAndEnabled : Obligations.IrqIsDoneAndEnabled := by
  refine ⟨fun s => ?_, rfl, fun s t rest ha h => ?_⟩
  · have hdone := (statusWord_fields s).2.1
    have hirq : (ctrlWord s).getLsbD 8 = s.irqEn := irqField_packWord s.irqEn s.op false
    rw [State.irq, regRead, regRead, hdone, hirq]
  · rw [step_reset ha] at h
    cases h
    rfl

/-- After reset every register but the constants and the sizes reads 0 (10_state.md R38). -/
theorem hostRead_resetTo_zero (s : State) (rest : List Event) (r : Reg) (h : r ∉ [Reg.id, .version, .ibufSize, .obufSize]) :
    hostRead (s.resetTo rest) (regOffset r) = .ok 0 := by
  refine (hostRead_reg _ r).trans (congrArg Except.ok ?_)
  cases r
  case id | version | ibufSize | obufSize => simp at h
  case ctrl => show packWord false 0 false = 0; decide
  case status =>
    show (0 : BitVec 20) ++ ErrorCode.none.bits ++ (0 : BitVec 6) ++ BitVec.ofBool false ++ BitVec.ofBool false = 0
    decide
  case drawCntLo | drawCntHi => exact BitVec.extractLsb'_zero
  all_goals rfl

/-- Settles O44: the state is the one `resetTo` gives, and 0x01C is no register's offset. -/
theorem resetLeavesTheResetState : Obligations.ResetLeavesTheResetState := by
  intro s rest ha
  have read := hostRead_reg (s.resetTo rest)
  have zero := hostRead_resetTo_zero s rest
  refine ⟨s.resetTo rest, step_reset ha, rfl, read .id, read .version, ?_, read .ibufSize, read .obufSize,
    rfl, rfl, rfl, rfl, fun k => ⟨rfl, rfl⟩⟩
  simp only [List.forall_mem_cons]
  exact ⟨zero .ctrl (by decide), zero .status (by decide), zero .inLen (by decide), zero .outLen (by decide),
    zero .errInfo (by decide), (hostAccess_reserved _ 0 (by decide) regOffset_ne_gap).1, zero .snrLo (by decide),
    zero .snrHi (by decide), zero .seedLo (by decide), zero .seedHi (by decide), zero .drawCntLo (by decide),
    zero .drawCntHi (by decide), nofun⟩

end Sys2Proof.Machine
end

section
/-! SUPPORT. The invariant at reset and over every step, and what may change IBUF. -/
namespace Sys2Proof.Machine

/-! The invariant under each kind of update. It reads neither the agenda nor the port's answer, so a turn and an answer keep it as
they stand. -/

theorem inv_resetWith {p : Config.Params} (hp : p.legal = true) : Inv (State.resetWith p) :=
  ⟨hp, rfl, rfl, rfl, rfl, nofun, nofun, fun _ => rfl, fun _ _ => rfl, nofun⟩

/-- Settles O56: the default parameters are legal. -/
theorem invariantHoldsAtReset : Obligations.InvariantHoldsAtReset := inv_resetWith (by decide)

section
variable {s : State} (hs : Inv s)
include hs

theorem Inv.turn (rest : List Event) : Inv (s.turn rest) := hs

theorem Inv.answered (answer : Option Answer) : Inv { s with answer := answer } := hs

theorem Inv.resetTo (rest : List Event) : Inv (s.resetTo rest) := inv_resetWith hs.1

theorem Inv.release : Inv { s with held := none } := by
  obtain ⟨hcfg, hiwf, hin, howf, hon, herr, hbusy, hout, hinfo, -⟩ := hs
  exact ⟨hcfg, hiwf, hin, howf, hon, herr, hbusy, hout, hinfo, nofun⟩

theorem Inv.hold {r : Request} (hw : r.wellFormed = true) (hr : isStatusRead r = false) : Inv { s with held := some r } := by
  obtain ⟨hcfg, hiwf, hin, howf, hon, herr, hbusy, hout, hinfo, -⟩ := hs
  exact ⟨hcfg, hiwf, hin, howf, hon, herr, hbusy, hout, hinfo, fun _ h => Option.some.inj h ▸ ⟨hw, hr⟩⟩

/-- An error that can be raised leaves `OUT_LEN` 0 and a code that is not `none`, so that `ERR_INFO` is free. -/
theorem Inv.raiseError {c : ErrorCode} (hc : c ≠ .none ∧ c ≠ .lengthMismatch) (info : Word) : Inv (s.raiseError c info) := by
  obtain ⟨hcfg, hiwf, hin, howf, hon, -, -, -, -, hheld⟩ := hs
  exact ⟨hcfg, hiwf, hin, howf, hon, hc.2, nofun, fun _ => rfl, fun _ h => absurd h hc.1, hheld⟩

theorem Inv.start (op : BitVec 4) (q : Bool) : Inv (s.start op q) := by
  obtain ⟨hcfg, hiwf, hin, howf, hon, -, -, -, -, hheld⟩ := hs
  exact ⟨hcfg, hiwf, hin, howf, hon, nofun, fun _ => ⟨rfl, rfl⟩, fun h => absurd rfl h, nofun, hheld⟩

theorem Inv.storeCommand (op : BitVec 4) (q : Bool) : Inv (s.storeCommand op q) := hs

theorem Inv.writeCtrl (w : Word) : Inv (writeCtrl s w) := by
  cases h : startField w
  · rw [writeCtrl_noStart h]; exact hs.storeCommand _ _
  · rw [writeCtrl_start h]; exact hs.start _ _

theorem Inv.clearDone : Inv s.clearDone := by
  obtain ⟨hcfg, hiwf, hin, howf, hon, herr, hbusy, hout, hinfo, hheld⟩ := hs
  exact ⟨hcfg, hiwf, hin, howf, hon, herr, fun h => ⟨rfl, (hbusy h).2⟩, hout, hinfo, hheld⟩

theorem Inv.writeIbuf {k : Nat} {bs : List Byte} (hk : k + bs.length ≤ s.cfg.ibufBytes) :
    Inv { s with ibuf := Memory.writeList s.ibuf k bs } := by
  obtain ⟨hcfg, hiwf, hin, hrest⟩ := hs
  exact ⟨hcfg, Memory.writeList_wf k bs hiwf, Memory.within_writeList hin hk, hrest⟩

/-- A success with output inside OBUF leaves no error, and both registers beside it as the invariant asks. -/
theorem Inv.succeededWith {bytes : List Byte} (i : Instr) (hk : bytes.length ≤ s.cfg.obufBytes) :
    Inv (succeededWith i s (Memory.writeList s.obuf 0 bytes)) := by
  obtain ⟨hcfg, hiwf, hin, howf, hon, -, -, -, -, hheld⟩ := hs
  exact ⟨hcfg, hiwf, hin, Memory.writeList_wf 0 bytes howf, Memory.within_writeList hon ((Nat.zero_add _).trans_le hk),
    nofun, nofun, fun h => absurd rfl h, fun _ _ => rfl, hheld⟩

/-! The invariant under each kind of turn. -/

theorem Inv.hostWrite (a : Nat) (w : Word) : Inv (hostWrite s a w) := by
  rcases hostWrite_cases s a w with h | h | h | h | h | h | h | h | ⟨k, hk, h⟩ <;> rw [h]
  · exact hs
  · exact hs.writeCtrl w
  · exact hs.clearDone
  -- `IN_LEN`, SNR, seed and draw count are no part of the invariant
  iterate 5 exact hs
  · exact hs.writeIbuf (by simpa using hk)

theorem Inv.perform {r : Request} {t : State} (h : perform r s = .next t) : Inv t := by
  obtain ⟨-, ⟨a, w, d, -, -, rfl⟩ | ⟨a, w, d, -, rfl⟩⟩ := perform_next h
  · exact hs.answered _
  · exact (hs.hostWrite a d).answered _

theorem Inv.presentBusy {r : Request} {t : State} (h : presentBusy r s = .next t) : Inv t := by
  obtain ⟨hw, ⟨-, hp⟩ | ⟨hr, rfl⟩⟩ := presentBusy_next h
  · exact hs.perform hp
  · exact hs.hold hw hr

theorem Inv.exec {i : Instr} {t : State} (h : exec i s = .next t) : Inv t := by
  rcases exec_next h with ⟨c, info, hc, rfl⟩ | ⟨o, hc, -, hlen, rfl⟩
  · exact (hs.start i.code i.irqEn).raiseError (check_error_raised hc) info
  · obtain ⟨-, -, hout, -⟩ := check_eq_pass hc
    exact hs.succeededWith i (by simpa [hlen, outBytes] using hout)

theorem Inv.engineTurn {t : State} (h : engineTurn s = .next t) : Inv t := by
  rcases engineTurn_next h with ⟨i, -, hi⟩ | rfl
  · exact hs.exec hi
  · exact hs.raiseError (by decide) 0

end

/-- Settles O57: each turn of `step_cases` keeps the invariant. -/
theorem everyStepKeepsTheInvariant : Obligations.EveryStepKeepsTheInvariant := by
  intro s t hs h
  rcases step_cases s with ⟨rest, -, hstep⟩ | ⟨rest, -, hstep⟩ | ⟨r, rest, -, -, -, hstep⟩ | ⟨r, -, -, hstep⟩ |
    ⟨r, rest, -, -, -, hstep⟩ | ⟨rest, -, -, hstep⟩ <;> rw [hstep] at h
  · cases h; exact hs.resetTo rest
  · exact (hs.turn rest).engineTurn h
  · exact (hs.turn rest).presentBusy h
  · exact (hs.turn s.agenda).release.perform h
  · exact (hs.turn rest).perform h
  · cases h; exact hs.turn rest

/-! Who changes IBUF (10_state.md R42, 20_memory.md R63). -/

theorem exec_ibuf {i : Instr} {s t : State} (h : exec i s = .next t) : t.ibuf = s.ibuf := by
  rcases exec_next h with ⟨c, info, -, rfl⟩ | ⟨o, -, -, -, rfl⟩ <;> rfl

theorem engineTurn_ibuf {s t : State} (h : engineTurn s = .next t) : t.ibuf = s.ibuf := by
  rcases engineTurn_next h with ⟨i, -, hi⟩ | rfl
  · exact exec_ibuf hi
  · rfl

theorem regWrite_ibuf (s : State) (r : Reg) (w : Word) : (regWrite s r w).ibuf = s.ibuf := by
  cases r
  case ctrl | status => simp only [regWrite, writeCtrl]; split <;> rfl
  all_goals rfl

theorem windowOf_eq_ibuf {a : Nat} (h : windowOf a = .ibuf) : 0x100000 ≤ a ∧ a < 0x200000 := by
  unfold windowOf at h
  split at h
  · cases h
  · split at h
    · assumption
    · split at h <;> cases h

/-- A host write outside the IBUF window leaves IBUF as it was (20_memory.md R50, R54). -/
theorem hostWrite_ibuf_of_window {s : State} {a : Nat} (w : Word) (h : windowOf a ≠ .ibuf) :
    (hostWrite s a w).ibuf = s.ibuf := by
  cases hwin : windowOf a with
  | ibuf => exact absurd hwin h
  | obuf | unmapped => simp only [hostWrite, hwin]
  | reg =>
    simp only [hostWrite, hwin]
    cases regAt a with
    | none => rfl
    | some r => exact regWrite_ibuf s r w

/-- A transaction that changes IBUF is a write in its window, and is answered as one. -/
theorem perform_changes_ibuf {r : Request} {s t : State} (h : perform r s = .next t) (hne : t.ibuf ≠ s.ibuf) :
    ∃ (a : Nat) (d : Word), 0x100000 ≤ a ∧ a < 0x200000 ∧ t.answer = some (.write a d) := by
  obtain ⟨-, ⟨a, w, d, -, -, rfl⟩ | ⟨a, w, d, -, rfl⟩⟩ := perform_next h
  · exact absurd rfl hne
  · have hwin : windowOf a = .ibuf := by_contra fun hw => hne (hostWrite_ibuf_of_window d hw)
    obtain ⟨hlo, hhi⟩ := windowOf_eq_ibuf hwin
    exact ⟨a, d, hlo, hhi, rfl⟩

/-- What the port does while busy is a read or no transaction yet. -/
theorem presentBusy_ibuf {r : Request} {s t : State} (h : presentBusy r s = .next t) : t.ibuf = s.ibuf := by
  obtain ⟨-, ⟨hr, hp⟩ | ⟨-, rfl⟩⟩ := presentBusy_next h
  · obtain ⟨-, ⟨a, w, d, -, -, rfl⟩ | ⟨a, w, d, rfl, -⟩⟩ := perform_next hp
    · rfl
    · cases hr
  · rfl

/-- Settles O59: of the turns of `step_cases` only a reset and a transaction performed while idle reach IBUF. -/
theorem onlyHostWritesAndResetChangeIbuf : Obligations.OnlyHostWritesAndResetChangeIbuf := by
  intro s t h hne
  rcases step_cases s with ⟨rest, ha, hs⟩ | ⟨rest, -, hs⟩ | ⟨r, rest, -, -, -, hs⟩ | ⟨r, hi, -, hs⟩ |
    ⟨r, rest, hi, -, -, hs⟩ | ⟨rest, -, -, hs⟩ <;> rw [hs] at h
  · exact .inl (by rw [ha]; rfl)
  · exact absurd (engineTurn_ibuf h) hne
  · exact absurd (presentBusy_ibuf h) hne
  · exact .inr ⟨hi, perform_changes_ibuf h hne⟩
  · exact .inr ⟨hi, perform_changes_ibuf h hne⟩
  · cases h; exact absurd rfl hne

end Sys2Proof.Machine
end

section
/-! SUPPORT. What becomes of a request at the port, busy, idle and outside the protocol (20_memory.md R51, R53, R56, R66). -/
namespace Sys2Proof.Machine

theorem presentBusy_refused {r : Request} (s : State) (h : r.wellFormed = false) : presentBusy r s = .refused .outsidePort := by
  simp [presentBusy, h]

theorem presentBusy_statusRead {r : Request} (s : State) (hs : isStatusRead r = true) : presentBusy r s = perform r s := by
  cases hw : r.wellFormed with
  | true => simp [presentBusy, hw, hs]
  | false => rw [presentBusy_refused s hw, perform_refused s hw]

theorem presentBusy_holds {r : Request} (s : State) (hw : r.wellFormed = true) (hs : isStatusRead r = false) :
    presentBusy r s = .next { s with held := some r } := by
  simp [presentBusy, hw, hs]

theorem isStatusRead_eq_false {r : Request} (h : ∀ w, r ≠ .read 0x00C w) : isStatusRead r = false := by
  cases r with
  | read a w => exact decide_eq_false fun ha => h w (ha ▸ rfl)
  | write a w d => rfl

/-- Settles O39: what is presented while busy is held, unless it reads `STATUS`. -/
theorem busyPortHoldsTransactions : Obligations.BusyPortHoldsTransactions := fun s _ rest hb hh ha hw hr =>
  (step_present_busy hb hh ha).trans (presentBusy_holds (s.turn rest) hw (isStatusRead_eq_false hr))

/-- The word `STATUS` reads as while the engine runs (20_memory.md R56). -/
theorem statusWord_busy {s : State} (hb : s.phase = .busy) (hd : s.done = false) (he : s.err = .none) : statusWord s = 1 := by
  rw [statusWord, State.busy, hb, hd, he]
  decide

/-- Settles O40: the invariant keeps `DONE` and `ERR` clear while busy. -/
theorem statusReadIsNeverHeld : Obligations.StatusReadIsNeverHeld := by
  intro s rest hs hb hh ha
  obtain ⟨-, -, -, -, -, -, hbusy, -⟩ := hs
  obtain ⟨hdone, herr⟩ := hbusy hb
  have hread : hostRead (s.turn rest) 0x00C = .ok 0x00000001 :=
    (hostRead_reg (s.turn rest) .status).trans (congrArg Except.ok (statusWord_busy hb hdone herr))
  rw [step_present_busy hb hh ha, presentBusy_statusRead _ rfl, perform_read (by decide) hread]
  rfl

/-- Settles O41: each clause is a case of `step`, or the port's rule for a write. -/
theorem heldTransactionIsPerformedFirst : Obligations.HeldTransactionIsPerformedFirst :=
  ⟨fun _ _ hi hh ha => step_held hi hh ha, fun _ _ _ hi hh ha => step_present_idle hi hh ha,
    fun s _ _ _ hw => perform_write s hw⟩

/-- Settles O42: a request that is not well formed is refused in either phase. -/
theorem requestsOutsideThePortAreRefused : Obligations.RequestsOutsideThePortAreRefused := by
  intro s r rest hh ha hout
  have hw : r.wellFormed = false := by
    rw [Bool.eq_false_iff, Ne, wellFormed_iff]
    omega
  cases hp : s.phase with
  | idle => rw [step_present_idle hp hh ha, perform_refused _ hw]
  | busy => rw [step_present_busy hp hh ha, presentBusy_refused _ hw]

end Sys2Proof.Machine
end

section
/-! SUPPORT. Words in the two buffer windows (20_memory.md R54, R55, R58), and who changes OBUF (R63; 40_operation_common.md R107). -/
namespace Sys2Proof.Machine

/-! Byte order. -/

theorem getElem?_leBytes {n j : Nat} (v : Nat) (h : j < n) : (leBytes n v)[j]? = some (BitVec.ofNat 8 (v / 256 ^ j)) := by
  induction n generalizing v j with
  | zero => cases h
  | succ n ih =>
    cases j with
    | zero => simp [leBytes]
    | succ j => rw [leBytes, List.getElem?_cons_succ, ih (v / 256) (by omega), Nat.div_div_eq_div_mul, Nat.pow_succ']

/-- Byte `j` of a word laid out lowest byte first is its bits from `8j` on. -/
theorem getElem?_leBytes_word (w : Word) {j : Nat} (h : j < 4) : (leBytes 4 w.toNat)[j]? = some (w.extractLsb' (8 * j) 8) := by
  rw [getElem?_leBytes _ h]
  congr 1
  apply BitVec.eq_of_toNat_eq
  rw [BitVec.toNat_ofNat, BitVec.extractLsb'_toNat, Nat.shiftRight_eq_div_pow, Nat.pow_mul]

theorem ofNat_leValue_leBytes_word (w : Word) : BitVec.ofNat 32 (leValue (leBytes 4 w.toNat)) = w := by
  rw [leValue_leBytes, Nat.mod_eq_of_lt (by simpa using w.isLt), BitVec.ofNat_toNat, BitVec.setWidth_eq]

theorem toNat_append_byte {n : Nat} (x : BitVec n) (b : Byte) : (x ++ b).toNat = b.toNat + 256 * x.toNat := by
  rw [BitVec.toNat_append, ← Nat.shiftLeft_add_eq_or_of_lt b.isLt, Nat.shiftLeft_eq]
  omega

/-- Four bytes, lowest first, spell the word with the last of them on top. -/
theorem ofNat_leValue_four (b0 b1 b2 b3 : Byte) : BitVec.ofNat 32 (leValue [b0, b1, b2, b3]) = b3 ++ b2 ++ b1 ++ b0 := by
  apply BitVec.eq_of_toNat_eq
  simp only [leValue, BitVec.toNat_ofNat, toNat_append_byte]
  omega

/-! A buffer's end lies at a multiple of 4, so a word of its window is all inside the buffer or all beyond it. -/

theorem legal_sizes_mod_four {p : Config.Params} (h : p.legal = true) : p.ibufBytes % 4 = 0 ∧ p.obufBytes % 4 = 0 := by
  simp only [Config.Params.legal, Config.legalSize, Bool.and_eq_true, decide_eq_true_eq] at h
  omega

/-- Bytes just written read back. -/
theorem Memory.bytes_writeList (m : Memory) (k : Nat) (bs : List Byte) :
    Memory.bytes (Memory.writeList m k bs) k bs.length = some bs := by
  refine (Memory.bytes_eq_some _ _ _ _).mpr ⟨rfl, fun j hj => ?_⟩
  rw [Memory.read_writeList, if_pos (by omega), Nat.add_sub_cancel_left]

/-- A word of IBUF whose bytes the host has written reads them. -/
theorem hostRead_ibuf_written {s : State} {k : Nat} {bs : List Byte} (h : k < 0x100000) (hk : k + 4 ≤ s.cfg.ibufBytes)
    (hb : Memory.bytes s.ibuf k 4 = some bs) : hostRead s (0x100000 + k) = .ok (BitVec.ofNat 32 (leValue bs)) := by
  obtain ⟨hlen, hr⟩ := (Memory.bytes_eq_some _ _ _ _).mp hb
  obtain ⟨b0, b1, b2, b3, rfl⟩ := List.length_eq_four.mp hlen
  have h0 : Memory.read s.ibuf k = some b0 := hr 0 (by omega)
  have h1 : Memory.read s.ibuf (k + 1) = some b1 := hr 1 (by omega)
  have h2 : Memory.read s.ibuf (k + 2) = some b2 := hr 2 (by omega)
  have h3 : Memory.read s.ibuf (k + 3) = some b3 := hr 3 (by omega)
  simp [hostRead_ibuf h hk, hostIbufByte, h0, h1, h2, h3]

/-- A word written inside IBUF reads back (20_memory.md R54). -/
theorem hostRead_hostWrite_ibuf {s : State} {k : Nat} (w : Word) (h : k < 0x100000) (hk : k + 4 ≤ s.cfg.ibufBytes) :
    hostRead (hostWrite s (0x100000 + k) w) (0x100000 + k) = .ok w := by
  have hback := Memory.bytes_writeList s.ibuf k (leBytes 4 w.toNat)
  rw [leBytes_length] at hback
  rw [hostWrite_ibuf w h hk]
  generalize Memory.writeList s.ibuf k (leBytes 4 w.toNat) = m at hback ⊢
  exact (hostRead_ibuf_written (s := { s with ibuf := m }) h hk hback).trans (congrArg Except.ok (ofNat_leValue_leBytes_word w))

/-- Settles O52: a word inside the buffer is its four bytes, written and read at once; one beyond it is nothing. -/
theorem ibufWordsAreLittleEndian : Obligations.IbufWordsAreLittleEndian := by
  intro s k w hlegal hk hk4
  obtain ⟨hsize, -⟩ := legal_sizes_mod_four hlegal
  refine ⟨fun hin => ?_, fun hout => ⟨hostRead_ibuf_beyond hk (by omega), hostWrite_ibuf_beyond w hk (by omega)⟩⟩
  have hfits : k + 4 ≤ s.cfg.ibufBytes := by omega
  refine ⟨hostRead_hostWrite_ibuf w hk hfits, ?_⟩
  rw [hostWrite_ibuf w hk hfits]
  refine ⟨fun j hj => ?_, fun a ha => Memory.read_writeList_outside _ _ (by simpa using ha), rfl⟩
  rw [Memory.read_writeList, if_pos (by rw [leBytes_length]; omega), Nat.add_sub_cancel_left, getElem?_leBytes_word w hj]

/-- Settles O53: a word inside the buffer reads its four bytes, or faults for the one that is missing. -/
theorem obufWordsAreReadOnly : Obligations.ObufWordsAreReadOnly := by
  intro s k w hlegal hk hk4
  obtain ⟨-, hsize⟩ := legal_sizes_mod_four hlegal
  refine ⟨hostWrite_obuf s w hk, fun hout => hostRead_obuf_beyond hk (by omega), fun hin => ⟨?_, fun hnone => ?_⟩⟩
  · intro b0 b1 b2 b3 h0 h1 h2 h3
    have hb : Memory.bytes s.obuf k 4 = some [b0, b1, b2, b3] := by simp [Memory.bytes, h0, h1, h2, h3]
    rw [hostRead_obuf hk (by omega) hb, ofNat_leValue_four]
  · exact hostRead_obuf_unwritten hk (by omega) ((Memory.bytes_eq_none _ _ _).mpr hnone)

/-! Who changes OBUF. -/

/-- A command that changes OBUF has succeeded (40_operation_common.md R107). -/
theorem exec_changes_obuf {i : Instr} {s t : State} (h : exec i s = .next t) (hne : t.obuf ≠ s.obuf) :
    t.phase = .idle ∧ t.done = true ∧ t.err = .none := by
  rcases exec_next h with ⟨c, info, -, rfl⟩ | ⟨o, -, -, -, rfl⟩
  · exact absurd rfl hne
  · exact ⟨rfl, rfl, rfl⟩

theorem engineTurn_changes_obuf {s t : State} (h : engineTurn s = .next t) (hne : t.obuf ≠ s.obuf) :
    t.phase = .idle ∧ t.done = true ∧ t.err = .none := by
  rcases engineTurn_next h with ⟨i, -, hi⟩ | rfl
  · exact exec_changes_obuf hi hne
  · exact absurd rfl hne

theorem writeCtrl_obuf (s : State) (w : Word) : (writeCtrl s w).obuf = s.obuf := by
  unfold writeCtrl; split <;> rfl

/-- No host write reaches OBUF, in any window (20_memory.md R55). -/
theorem hostWrite_keeps_obuf (s : State) (a : Nat) (w : Word) : (hostWrite s a w).obuf = s.obuf := by
  rcases hostWrite_cases s a w with h | h | h | h | h | h | h | h | ⟨k, -, h⟩ <;> simp [h, writeCtrl_obuf]

theorem perform_obuf {r : Request} {s t : State} (h : perform r s = .next t) : t.obuf = s.obuf := by
  obtain ⟨-, ⟨a, w, d, -, -, rfl⟩ | ⟨a, w, d, -, rfl⟩⟩ := perform_next h
  · rfl
  · exact hostWrite_keeps_obuf s a d

theorem presentBusy_obuf {r : Request} {s t : State} (h : presentBusy r s = .next t) : t.obuf = s.obuf := by
  obtain ⟨-, ⟨-, hp⟩ | ⟨-, rfl⟩⟩ := presentBusy_next h
  · exact perform_obuf hp
  · rfl

/-- Settles O60: of the turns of `step_cases` only a reset and the engine's reach OBUF, and the engine's only with success. -/
theorem onlySuccessAndResetChangeObuf : Obligations.OnlySuccessAndResetChangeObuf := by
  intro s t h hne
  rcases step_cases s with ⟨rest, ha, hs⟩ | ⟨rest, hb, hs⟩ | ⟨r, rest, -, -, -, hs⟩ | ⟨r, -, -, hs⟩ |
    ⟨r, rest, -, -, -, hs⟩ | ⟨rest, -, -, hs⟩ <;> rw [hs] at h
  · exact .inl (by rw [ha]; rfl)
  · exact .inr ⟨hb, engineTurn_changes_obuf h hne⟩
  · exact absurd (presentBusy_obuf h) hne
  · exact absurd (perform_obuf h) hne
  · exact absurd (perform_obuf h) hne
  · cases h; exact absurd rfl hne

end Sys2Proof.Machine
end

section
/-! SUPPORT. From the START write to the completion (40_operation_common.md R101, 70_reset_and_hazards.md R193). -/
namespace Sys2Proof.Machine

/-! A command whose input has been written completes. -/

/-- The scan stops only at a byte it comes to that was never written. -/
theorem scanBits_stop_unwritten {m : Memory} {n i : Nat} {f : Fault} (h : scanBits m i n = .stop f) :
    ∃ j, i ≤ j ∧ j < i + n ∧ Memory.read m j = none := by
  induction n generalizing i with
  | zero => cases h
  | succ n ih =>
    simp only [scanBits, bitAt] at h
    split at h
    · next hr => exact ⟨i, by omega, by omega, hr⟩
    · split at h
      · obtain ⟨j, hij, hj, hr⟩ := ih h
        exact ⟨j, by omega, by omega, hr⟩
      · cases h

/-- Checks that stop have let the input's length pass and stopped in the scan (60_exceptions.md R174). -/
theorem check_stop_scans {sh : Shape} {s : State} {f : Fault} (h : check sh s = .stop f) :
    s.inLen.toNat * elemSize sh.input ≤ s.cfg.ibufBytes ∧ scanBits s.ibuf 0 s.inLen.toNat = .stop f := by
  simp only [check] at h
  split at h
  · cases h
  · next hin =>
    split at h
    · cases h
    · split at h
      · cases h
      · split at h
        · exact ⟨not_lt.mp hin, h⟩
        · cases h

theorem inLen_le_inBytes (i : Instr) (s : State) : s.inLen.toNat ≤ inBytes i s :=
  Nat.le_mul_of_pos_right _ (by cases i <;> simp [inputSize])

/-- With its input written, if it fits at all, a command answers a next state: its checks find no byte missing, and neither does its
body. -/
theorem exec_completes {i : Instr} {s : State} (h : inBytes i s ≤ s.cfg.ibufBytes → inputWritten i s) :
    ∃ t, exec i s = .next t ∧ t.done = true ∧ t.phase = .idle := by
  cases hc : check (shapeOf i) s with
  | error c info => exact ⟨_, exec_error hc, rfl, rfl⟩
  | pass =>
    obtain ⟨hin, -⟩ := check_eq_pass hc
    obtain ⟨o, ho⟩ := bodyFor_answers (h (by simpa [inBytes] using hin))
    exact ⟨_, exec_success hc ho, rfl, rfl⟩
  | stop f =>
    obtain ⟨hin, hscan⟩ := check_stop_scans hc
    obtain ⟨j, -, hj, hr⟩ := scanBits_stop_unwritten hscan
    have := inLen_le_inBytes i s
    exact absurd hr (h (by simpa [inBytes] using hin) j (by omega))

/-! The START write. -/

theorem startField_of_decodeWord {w : Word} {i : Instr} (h : decodeWord w = .ok i) : startField w = true := by
  cases hs : startField w with
  | true => rfl
  | false => rw [decodeWord, hs] at h; cases h

/-- The command word as a START of `w` leaves it in `CTRL` decodes as `w` does (10_state.md R35). -/
theorem decodeWord_packWord_fields {w : Word} (h : startField w = true) :
    decodeWord (packWord (irqField w) (opField w) true) = decodeWord w := by
  simp [decodeWord, h]

theorem perform_startWrite {w : Word} (s : State) (h : startField w = true) :
    perform (.write 0x008 32 w) s = .next { s.start (opField w) (irqField w) with answer := some (.write 0x008 w) } := by
  have hctrl : hostWrite s 0x008 w = writeCtrl s w := hostWrite_reg s .ctrl w
  rw [perform_write s (by simp [wellFormed_iff, Request.width, Request.offset]), hctrl, writeCtrl_start h]

/-- `s` after the port has performed the START write of `w`, with `rest` left to come (40_operation_common.md R100). -/
def afterStart (w : Word) (s : State) (rest : List Event) : State :=
  { s.start (opField w) (irqField w) with held := none, answer := some (.write 0x008 w), agenda := rest }

/-- The step that performs a START write, presented or held, leads to `afterStart`; where the write is held, a reset before it would be one
before the completion. -/
theorem step_writesCommand {s : State} {w : Word} {rest : List Event} (hstart : startField w = true)
    (hw : writesCommand w s rest) (hi : idle s) (hr : noReset rest) : step s = .next (afterStart w s rest) := by
  rcases hw with ⟨hh, ha⟩ | ⟨hh, rfl⟩
  · rw [step_present_idle hi hh ha, perform_startWrite _ hstart, afterStart, ← hh]
    rfl
  · have hhead : s.agenda.head? ≠ some .reset := by
      intro hreset
      obtain ⟨more, ha⟩ := List.head?_eq_some_iff.mp hreset
      exact hr (by simp [ha, beforeCompletion])
    rw [step_held hi hh hhead, perform_startWrite _ hstart]
    rfl

/-- From the START write on, the machine completes in two steps more than the turns before the completion, and leaves what the command
does from the state at the START. -/
theorem launched_run {i : Instr} {s t : State} {w : Word} {rest : List Event} (hd : decodeWord w = .ok i)
    (hw : writesCommand w s rest) (hi : idle s) (hr : noReset rest) (hp : withinProtocol rest) (ht : exec i s = .next t) :
    ∃ u, stepsTo ((beforeCompletion false rest).length + 2) s u ∧
      u = { t with held := u.held, agenda := u.agenda, answer := none } := by
  have hstart := startField_of_decodeWord hd
  obtain ⟨u, more, hsteps, hu, hengine⟩ := steps_beforeCompletion i rest (afterStart w s rest) rfl rfl
    ((decodeWord_packWord_fields hstart).trans hd) hr hp
  have hturn : u.turn more =
      { s.start (opField w) (irqField w) with held := u.held, answer := none, agenda := more } := by
    rw [hu]
    rfl
  rw [hturn, exec_after_start ht] at hengine
  exact ⟨_, ⟨_, step_writesCommand hstart hw hi hr, stepsTo_append _ 1 hsteps ⟨_, hengine, rfl⟩⟩, rfl⟩

/-- Settles O25: the command completes, the run from the START leaves what it does, and its results are those for the values meant. -/
theorem everyLaunchedOperationCompletes : Obligations.EveryLaunchedOperationCompletes := by
  refine ⟨fun i s h => exec_completes h, fun i s w rest snr seed hd hw hi hin hh hr hp => ?_⟩
  obtain ⟨t, ht, hdone, hidle⟩ := exec_completes hin
  obtain ⟨u, hsteps, hu⟩ := launched_run hd hw hi hr hp ht
  exact ⟨t, u, withMeant snr seed t, ht, hdone, hidle, hsteps, hu, exec_withMeant ht hh, rfl, rfl, rfl, rfl, rfl⟩

end Sys2Proof.Machine
end

section
/-! SUPPORT. The command word (30_encoding.md R75 to R83): what decoding reads of it, and which words it rejects by which name. -/
namespace Sys2Proof.Machine

/-! The opcode map. -/

/-- The opcode map finds a command exactly at its own `OP`, with the `IRQ_EN` beside it (30_encoding.md R81). -/
theorem instrOfOp_eq_some {op : BitVec 4} {q : Bool} {i : Instr} : instrOfOp op q = some i ↔ op = i.code ∧ q = i.irqEn := by
  constructor
  · intro h
    unfold instrOfOp at h
    split at h <;> cases h <;> exact ⟨BitVec.eq_of_toNat_eq ‹_›, rfl⟩
  · rintro ⟨rfl, rfl⟩
    cases i <;> rfl

/-- The opcode map has no command at the reserved `OP` values (30_encoding.md R82). -/
theorem instrOfOp_eq_none {op : BitVec 4} {q : Bool} : instrOfOp op q = none ↔ op = 0 ∨ 9 ≤ op.toNat := by
  revert op q; decide

/-! A word is its three fields as far as decoding goes. -/

/-- The word packed from a word's own fields is that word with its reserved bits 0 (30_encoding.md R75, R77). -/
theorem packWord_ownFields (w : Word) : packWord (irqField w) (opField w) (startField w) = w &&& 0x000001F1 := by
  refine BitVec.eq_of_getLsbD_eq fun j hj => ?_
  simp only [packWord, irqField, opField, startField, BitVec.getLsbD_append, BitVec.getLsbD_and, BitVec.getLsbD_ofBool,
    BitVec.getLsbD_extractLsb']
  interval_cases j <;> simp

/-- Packed words are equal exactly when their fields are. -/
theorem packWord_inj {q q' : Bool} {op op' : BitVec 4} {b b' : Bool} :
    packWord q op b = packWord q' op' b' ↔ q = q' ∧ op = op' ∧ b = b' := by
  constructor
  · intro h
    exact ⟨by simpa using congrArg irqField h, by simpa using congrArg opField h, by simpa using congrArg startField h⟩
  · rintro ⟨rfl, rfl, rfl⟩
    rfl

/-- Decoding reads the three fields and nothing else. -/
theorem decodeWord_packWord_ownFields (w : Word) :
    decodeWord (packWord (irqField w) (opField w) (startField w)) = decodeWord w := by
  simp only [decodeWord, startField_packWord, opField_packWord, irqField_packWord]

/-! The three outcomes of decoding. -/

theorem decodeWord_eq_ok {w : Word} {i : Instr} :
    decodeWord w = .ok i ↔ startField w = true ∧ opField w = i.code ∧ irqField w = i.irqEn := by
  rw [← instrOfOp_eq_some]
  cases hs : startField w <;> cases hi : instrOfOp (opField w) (irqField w) <;> simp [decodeWord, hs, hi]

theorem decodeWord_eq_noStart {w : Word} : decodeWord w = .error .noStart ↔ startField w = false := by
  cases hs : startField w <;> cases hi : instrOfOp (opField w) (irqField w) <;> simp [decodeWord, hs, hi]

theorem decodeWord_eq_reservedOp {w : Word} {op : BitVec 4} :
    decodeWord w = .error (.reservedOp op) ↔ startField w = true ∧ op = opField w ∧ (op = 0 ∨ 9 ≤ op.toNat) := by
  rw [← instrOfOp_eq_none (q := irqField w)]
  cases hs : startField w with
  | false => simp [decodeWord, hs]
  | true =>
    cases hi : instrOfOp (opField w) (irqField w) with
    | some i => simp +contextual [decodeWord, hs, hi]
    | none => simp +contextual [decodeWord, hs, hi, eq_comm]

theorem decodeWord_ne_truncated (w : Word) : decodeWord w ≠ .error .truncated := by
  cases hs : startField w <;> cases hi : instrOfOp (opField w) (irqField w) <;> simp [decodeWord, hs, hi]

/-- A command's own word decodes to it (30_encoding.md R75, R81). -/
theorem decodeWord_encode (i : Instr) : decodeWord (encode i) = .ok i := by
  simp [decodeWord_eq_ok, encode]

/-- The four bytes of a word decode to what the word does and leave what follows (20_memory.md R58, 30_encoding.md R83). -/
theorem decode_leBytes_word {w : Word} {i : Instr} (h : decodeWord w = .ok i) (rest : List Byte) :
    decode (leBytes 4 w.toNat ++ rest) = .ok (i, rest) := by
  have hw : decodeWord (BitVec.ofNat 32 (leValue (leBytes 4 w.toNat))) = .ok i := by rwa [ofNat_leValue_leBytes_word]
  simp only [leBytes] at hw
  simp only [leBytes, List.cons_append, List.nil_append, decode, hw]

/-! The statements. -/

/-- Settles O2: decoding to a command and agreeing with its encoding are both equality of the three fields. -/
theorem decodesExactlyItsOwnWords : Obligations.DecodesExactlyItsOwnWords := by
  intro i w
  rw [decodeWord_eq_ok, ← packWord_ownFields, encode, packWord_inj]
  tauto

/-- Settles O4: each name a word is rejected by has its own `↔`. -/
theorem undecodedWordsAreRejectedByName : Obligations.UndecodedWordsAreRejectedByName := fun w =>
  ⟨decodeWord_eq_noStart, fun _ => decodeWord_eq_reservedOp, decodeWord_ne_truncated w⟩

/-- Settles O1: each word evaluates to its row of the opcode map, or to the name it is rejected by. -/
theorem writtenOutWordsDecode : Obligations.WrittenOutWordsDecode :=
  ⟨rfl, rfl, rfl, rfl, rfl, rfl, rfl, rfl, rfl, rfl, rfl, rfl⟩

/-- Settles O3: the word with its reserved bits cleared has the same fields. -/
theorem reservedBitsAreIgnored : Obligations.ReservedBitsAreIgnored := fun w => by
  rw [← packWord_ownFields, decodeWord_packWord_ownFields]

/-- Settles O5: the bytes are those of the command's own word. -/
theorem encodedBytesDecodeBack : Obligations.EncodedBytesDecodeBack := fun i rest =>
  decode_leBytes_word (decodeWord_encode i) rest

/-- The engine's turn with a reserved `OP` completes with `ILLEGAL_OP` (30_encoding.md R82; 60_exceptions.md R174, check 1). -/
theorem engineTurn_reservedOp {t : State} (h : t.op = 0 ∨ 9 ≤ t.op.toNat) :
    engineTurn t = .next (t.raiseError .illegalOp 0) :=
  engineTurn_error (decodeWord_eq_reservedOp.mpr ⟨startField_packWord _ _ _, (opField_packWord _ _ _).symm, h⟩)

/-- Settles O38: each of the three forms of the turn is the engine's, and its word has the reserved `OP`. -/
theorem reservedOpCompletesWithIllegalOp : Obligations.ReservedOpCompletesWithIllegalOp := by
  intro s rest hb hop hturn
  have hstep : step s = engineTurn (s.turn rest) := by
    rcases hturn with ha | ⟨ha, rfl⟩ | ⟨hh, ha, r, more, rfl⟩
    · exact step_engine hb ha
    · exact step_engine_empty hb ha
    · obtain ⟨r', hr'⟩ := Option.ne_none_iff_exists'.mp hh
      exact step_engine_blocked hb hr' ha
  rw [hstep, engineTurn_reservedOp (t := s.turn rest) hop]
  rfl

end Sys2Proof.Machine
end

section
/-! SUPPORT. What a command's outcome depends on (30_encoding.md R78, R88; 40_operation_common.md R102, R110). -/
namespace Sys2Proof.Machine

/-- Settles O17: past the length checks the verdict is the bit check's, which reports the first byte that is no bit. -/
theorem lowestInvalidBitIsReported : Obligations.LowestInvalidBitIsReported := by
  intro i s j b htakes hl hj hbits hr h0 h1
  apply exec_error
  rw [check_of_lengthsPass hl, if_pos htakes, scanBits_invalid _ hj hr h0 h1 hbits]

/-! Free NaN payloads do not reach a decoded bit (41_manchester.md R121). -/

theorem fgt_fdiv_nan {m : F64} (q b c : F64) (h : isNaN m = true) : fgt (fdiv q m b) c = false :=
  fgt_nan_left c (by rw [fdiv_nan_left q b h, isNaN_quietNaN])

/-- Where the sum or the quotient is a NaN it is above nothing, and elsewhere neither depends on a payload. -/
theorem fgt_mean_free (qs qs' qm qm' a c : F64) :
    fgt (fdiv qm (fadd qs a c) two) plusZero = fgt (fdiv qm' (fadd qs' a c) two) plusZero := by
  by_cases hac : isNaN a = true ∨ isNaN c = true
  · have hsum (q : F64) : isNaN (fadd q a c) = true := by rw [(nan_operands q hac).1, isNaN_quietNaN]
    rw [fgt_fdiv_nan _ _ _ (hsum qs), fgt_fdiv_nan _ _ _ (hsum qs')]
  · obtain ⟨ha, hc⟩ : isNaN a = false ∧ isNaN c = false := by simpa using hac
    rw [fadd_free qs qs' ha hc]
    cases hm : isNaN (fadd qs' a c) with
    | true => rw [fgt_fdiv_nan _ _ _ hm, fgt_fdiv_nan _ _ _ hm]
    | false => rw [fdiv_free qm qm' hm (by decide)]

theorem manDecide_free (nan nan' : Config.NanSite → F64) (k : Nat) (a c : F64) : manDecide nan k a c = manDecide nan' k a c := by
  simp only [manDecide, fgt_mean_free (nan (.manSum k)) (nan' (.manSum k)) (nan (.manMean k)) (nan' (.manMean k))]

theorem manDecode_free (nan nan' : Config.NanSite → F64) : ∀ (k : Nat) (xs : List F64), manDecode nan k xs = manDecode nan' k xs
  | _, [] => rfl
  | _, [_] => rfl
  | k, a :: c :: xs => by rw [manDecode, manDecode, manDecide_free nan nan', manDecode_free nan nan' (k + 1) xs]

/-! Checks and bodies on the same operands. -/

theorem scanBits_congr {m m' : Memory} {n i : Nat} (h : ∀ j, j < n → Memory.read m (i + j) = Memory.read m' (i + j)) :
    scanBits m i n = scanBits m' i n := by
  induction n generalizing i with
  | zero => rfl
  | succ n ih =>
    have hhead : Memory.read m i = Memory.read m' i := h 0 (by omega)
    have htail : scanBits m (i + 1) n = scanBits m' (i + 1) n := ih fun j hj => by
      rw [Nat.add_assoc, Nat.add_comm 1 j]
      exact h (j + 1) (by omega)
    simp only [scanBits, bitAt, hhead, htail]

/-- The checks read the parameters, `IN_LEN` and the input bytes. -/
theorem check_sameOperands {i : Instr} {s u : State} (h : sameOperands i s u) : check (shapeOf i) s = check (shapeOf i) u := by
  obtain ⟨hcfg, hlen, hread, -⟩ := h
  have hscan : scanBits s.ibuf 0 u.inLen.toNat = scanBits u.ibuf 0 u.inLen.toNat := scanBits_congr fun j hj => by
    rw [Nat.zero_add]
    exact hread j ((hlen ▸ hj).trans_le (inLen_le_inBytes i s))
  simp only [check, hcfg, hlen, hscan]

theorem bodyOf_congr {α : Type} {s u : State} {get : Memory → Nat → Option α} {f g : List α → Output}
    (hx : inputs s get = inputs u get) (hf : ∀ xs, f xs = g xs) : bodyOf s get f = bodyOf u get g := by
  rw [bodyOf, bodyOf, hx, funext hf]

section
variable {s u : State} (hlen : s.inLen = u.inLen)
include hlen

theorem inputs_bitAt_congr (h : ∀ k, k < s.inLen.toNat * 1 → Memory.read s.ibuf k = Memory.read u.ibuf k) :
    inputs s bitAt = inputs u bitAt := by
  rw [inputs, inputs, ← hlen]
  exact collect_congr fun j hj => h _ (by omega)

theorem inputs_realAt_congr (h : ∀ k, k < s.inLen.toNat * 8 → Memory.read s.ibuf k = Memory.read u.ibuf k) :
    inputs s realAt = inputs u realAt := by
  rw [inputs, inputs, ← hlen]
  exact collect_congr fun j hj => realAt_congr fun k _ hk => h k (by omega)

theorem inputs_cplxAt_congr (h : ∀ k, k < s.inLen.toNat * 16 → Memory.read s.ibuf k = Memory.read u.ibuf k) :
    inputs s cplxAt = inputs u cplxAt := by
  rw [inputs, inputs, ← hlen]
  exact collect_congr fun j hj => cplxAt_congr fun k _ hk => h k (by omega)

end

theorem snrLin_congr (nan : Config.NanSite → F64) {s u : State} (hcfg : s.cfg = u.cfg) (hsnr : s.snrDb = u.snrDb) :
    snrLin nan s = snrLin nan u := by
  rw [snrLin, snrLin, hcfg, hsnr]

theorem draw_congr {s u : State} (hseed : s.seed = u.seed) (hcnt : s.drawCnt = u.drawCnt) : draw s = draw u := by
  funext j
  rw [draw, draw, hseed, hcnt]

/-- A body reads its input elements, and beside them `QPSK_S`, or the operands of the noise. -/
theorem bodyFor_sameOperands {i : Instr} {s u : State} (h : sameOperands i s u) : bodyFor i s = bodyFor i u := by
  obtain ⟨hcfg, hlen, hread, hnoise⟩ := h
  cases i
  case manEnc | bpskMod => exact bodyOf_congr (inputs_bitAt_congr hlen hread) fun _ => rfl
  case manDec => exact bodyOf_congr (inputs_realAt_congr hlen hread) fun xs => by rw [manDecode_free]
  case bpskDemod => exact bodyOf_congr (inputs_realAt_congr hlen hread) fun _ => rfl
  case qpskMod => exact bodyOf_congr (inputs_bitAt_congr hlen hread) fun xs => by rw [hcfg]
  case qpskDemod => exact bodyOf_congr (inputs_cplxAt_congr hlen hread) fun _ => rfl
  case awgnReal =>
    obtain ⟨hsnr, hseed, hcnt, hfree⟩ := hnoise rfl
    exact bodyOf_congr (inputs_realAt_congr hlen hread) fun xs => by
      rw [hfree, snrLin_congr _ hcfg hsnr, draw_congr hseed hcnt]
  case awgnCplx =>
    obtain ⟨hsnr, hseed, hcnt, hfree⟩ := hnoise rfl
    exact bodyOf_congr (inputs_cplxAt_congr hlen hread) fun xs => by
      rw [hfree, snrLin_congr _ hcfg hsnr, draw_congr hseed hcnt]

/-- A command without noise makes no draws (44_awgn.md R157). -/
theorem drawsMade_of_no_noise {i : Instr} (h : usesNoise i = false) (n : Nat) : drawsMade i n = 0 := by
  cases i
  case awgnReal | awgnCplx => cases h
  all_goals rfl

/-- Settles O24: the checks give one verdict and the bodies one output in both states, and the output covers the bytes asked for. -/
theorem resultsDependOnOperandsAlone : Obligations.ResultsDependOnOperandsAlone := by
  intro i s u t h ht
  have hcheck := check_sameOperands h
  have hbody := bodyFor_sameOperands h
  obtain ⟨-, hlen, -, hnoise⟩ := h
  have hcnt (hn : usesNoise i = true) : u.drawCnt = s.drawCnt := by
    obtain ⟨-, -, hcnt, -⟩ := hnoise hn
    exact hcnt.symm
  rcases exec_next ht with ⟨c, info, hc, rfl⟩ | ⟨o, hc, hb, hbytes, rfl⟩
  · exact ⟨_, exec_error (hcheck.symm.trans hc), rfl, rfl, rfl, hcnt, fun _ => ⟨rfl, rfl⟩,
      fun hnone => absurd hnone (check_error_raised hc).1⟩
  · refine ⟨_, exec_success (hcheck.symm.trans hc) (hbody.symm.trans hb), rfl, ?_, rfl, fun hn => ?_, fun hn => ?_,
      fun _ k hk => ?_⟩
    · simp only [succeededWith, hlen]
    · simp only [succeededWith, hlen, hcnt hn]
    · simp [succeededWith, drawsMade_of_no_noise hn]
    · have hk' : k < o.bytes.length := hbytes ▸ hk
      simp only [succeededWith, Memory.read_writeList_zero _ _ hk']

end Sys2Proof.Machine
end

section
/-! SUPPORT. A command from its START to its completion: the engine's turn after a START runs it whole, and it completes with all of its
output or with an error (40_operation_common.md R100, R101, R105, R107, R108). -/
namespace Sys2Proof.Machine

/-! The engine's turn (40_operation_common.md R100, R101). -/

/-- A START made already changes nothing in what a command does, since the command makes its own (40_operation_common.md R100). -/
theorem exec_start (i : Instr) (s : State) (op : BitVec 4) (q : Bool) : exec i (s.start op q) = exec i s := by
  simp only [exec_eq_operate, operate, State.start_start]

/-- After the START of a command word the engine's turn is the whole command from the state before it (40_operation_common.md R101). -/
theorem engineTurn_start {w : Word} {i : Instr} (s : State) (h : decodeWord w = .ok i) :
    engineTurn (s.start (opField w) (irqField w)) = exec i s := by
  have hword : decodeWord (commandWord (s.start (opField w) (irqField w))) = .ok i :=
    (decodeWord_packWord_fields (startField_of_decodeWord h)).trans h
  rw [engineTurn_ok hword, exec_start]

theorem placeCommand_start {w : Word} (s : State) (h : startField w = true) :
    s.placeCommand w = { s.start (opField w) (irqField w) with agenda := .engine :: s.agenda } := by
  simp [State.placeCommand, h]

/-- Settles O37: the port performs the write as a START, and the engine's turn after a START is the whole command. -/
theorem startThenEngineIsTheWholeCommand : Obligations.StartThenEngineIsTheWholeCommand := by
  intro s w i rest hidle hheld hagenda hdec
  obtain ⟨hstart, hop, hirq⟩ := decodeWord_eq_ok.mp hdec
  have hwrite := (step_present_idle hidle hheld hagenda).trans (perform_startWrite _ hstart)
  refine ⟨_, hwrite, rfl, rfl, rfl, hirq, hop, rfl, rfl, ?_⟩
  exact (step_engine rfl rfl).trans (engineTurn_start (s.turn rest) hdec)

/-- Settles O35: each of the three forms of the turn is the engine's, and the engine runs what the command word decodes to. -/
theorem stepRunsTheDecodedCommand : Obligations.StepRunsTheDecodedCommand := by
  intro s i hb hd
  have hrun (rest : List Event) : engineTurn (s.turn rest) = exec i (s.turn rest) := engineTurn_ok hd
  exact ⟨fun rest ha => (step_engine hb ha).trans (hrun rest), fun ha => (step_engine_empty hb ha).trans (hrun []),
    fun r r' rest hh ha => (step_engine_blocked hb hh ha).trans (hrun _)⟩

/-- Settles O36: a placed command word is a START with the engine's turn next. -/
theorem placedCommandRunsNext : Obligations.PlacedCommandRunsNext := by
  intro s w i hd
  rw [State.withFetchWord, placeCommand_start s (startField_of_decodeWord hd)]
  exact (step_engine rfl rfl).trans (engineTurn_start (s.turn s.agenda) hd)

/-! Success or error (40_operation_common.md R105 to R108). -/

/-- Settles O15: the checks come to `CAPACITY` with the info of the buffer. -/
theorem sizesThatDoNotFitAreCapacity : Obligations.SizesThatDoNotFitAreCapacity := by
  refine fun i s => ⟨fun hin => exec_error (check_capacityIn ?_), fun hin hodd hout => exec_error (check_capacityOut ?_ ?_ ?_)⟩
  · simpa [inBytes] using hin
  · simpa [inBytes] using hin
  · simpa using hodd
  · simpa [outBytes] using hout

/-- Settles O21: a command that succeeds writes as many bytes as its output takes, and one that fails raises a code that is not 0 and
writes none. -/
theorem operationsAreAllOrNothing : Obligations.OperationsAreAllOrNothing := by
  intro i s t h
  rcases exec_next h with ⟨c, info, hc, rfl⟩ | ⟨o, -, -, hbytes, rfl⟩
  · exact .inr ⟨(check_error_raised hc).1, rfl, rfl, rfl⟩
  · refine .inl ⟨rfl, rfl, fun k hk => ?_⟩
    have hk' : k < o.bytes.length := hbytes ▸ hk
    exact ⟨o.bytes[k], (Memory.read_writeList_zero _ _ hk').trans (List.getElem?_eq_getElem hk')⟩

end Sys2Proof.Machine
end

section
/-! SUPPORT. The line encoder and the line decoder: what each makes of its input, and that the second undoes the first
(41_manchester.md R120 to R122). -/
namespace Sys2Proof.Machine

/-! A command whose launch premises hold succeeds (40_operation_common.md R106). -/

theorem check_pass_of_lengthsPass {i : Instr} {s : State} (hl : lengthsPass i s)
    (hbits : takesBits i = true → bitsUpTo s s.inLen.toNat) : check (shapeOf i) s = .pass := by
  rw [check_of_lengthsPass hl]
  split
  case isTrue htakes => exact (scanBits_eq_pass _ _ _).mpr (by simpa [bitsUpTo] using hbits htakes)
  case isFalse => rfl

/-- An output written from OBUF's byte 0 on leaves the bytes beyond it. -/
theorem keptBeyond_writeList (m : Memory) (bs : List Byte) : keptBeyond bs.length m (Memory.writeList m 0 bs) :=
  fun _ hk => Memory.read_writeList_outside _ _ (.inr (by omega))

/-- With its length checks passed, its input written and what it takes for bits being bits, a command succeeds with what its body answers. -/
theorem exec_succeeds {i : Instr} {s : State} (hl : lengthsPass i s) (hw : inputWritten i s)
    (hbits : takesBits i = true → bitsUpTo s s.inLen.toNat) :
    ∃ o, bodyFor i s = .ok o ∧ exec i s = .next (succeededWith i s (Memory.writeList s.obuf 0 o.bytes)) ∧
      keptBeyond (outBytes i s) s.obuf (Memory.writeList s.obuf 0 o.bytes) := by
  obtain ⟨o, ho⟩ := bodyFor_answers hw
  have hkept := keptBeyond_writeList s.obuf o.bytes
  rw [(bodyFor_output ho).1] at hkept
  exact ⟨o, ho, exec_success (check_pass_of_lengthsPass hl hbits) ho, hkept⟩

/-- Bytes that are bits have been written. -/
theorem inputWritten_of_bitsUpTo {i : Instr} {s : State} (hsize : inputSize i = 1) (h : bitsUpTo s s.inLen.toNat) :
    inputWritten i s := by
  intro k hk
  rw [inBytes, hsize, Nat.mul_one] at hk
  rcases h k hk with hr | hr <;> simp [hr]

/-- The input elements are those the accessor reads, in ascending order (40_operation_common.md R102, R109). -/
theorem getElem?_of_inputs {α : Type} {s : State} {get : Memory → Nat → Option α} {xs : List α} (h : inputs s get = some xs) {j : Nat}
    (hj : j < s.inLen.toNat) : xs[j]? = get s.ibuf j := by
  obtain ⟨-, hread⟩ := (collect_eq_some _ _ _ _).mp h
  rw [← hread j hj, Nat.zero_add]

/-! The encoder (41_manchester.md R120). -/

theorem realAt_manEncode (bs : List Byte) (m : Memory) {j : Nat} {b : Byte} (hb : bs[j]? = some b) :
    realAt (Memory.writeList m 0 ((manEncode bs).flatMap realBytes)) (2 * j) = some (if b = 1 then plusOne else minusOne) ∧
    realAt (Memory.writeList m 0 ((manEncode bs).flatMap realBytes)) (2 * j + 1) = some (if b = 1 then minusOne else plusOne) := by
  obtain ⟨hj, -⟩ := List.getElem?_eq_some_iff.mp hb
  have hlen := manEncode_length bs
  obtain ⟨hfst, hsnd⟩ := manEncode_getElem? bs j
  rw [realAt_writeList _ _ (by omega), realAt_writeList _ _ (by omega), hfst, hsnd, hb]
  exact ⟨rfl, rfl⟩

/-- Settles O6: the body's output is the level pairs of the bits it read. -/
theorem manEncMapsBitsToLevelPairs : Obligations.ManEncMapsBitsToLevelPairs := by
  intro q s hl hbits
  obtain ⟨o, ho, hexec, hkept⟩ := exec_succeeds hl (inputWritten_of_bitsUpTo rfl hbits) fun _ => hbits
  obtain ⟨bs, hbs, -, rfl⟩ := bodyOf_eq_ok ho
  refine ⟨_, hexec, fun j hj => ?_, fun k hk => hkept k ?_⟩
  · have hlevels {b : Byte} (hb : Memory.read s.ibuf j = some b) :=
      realAt_manEncode bs s.obuf ((getElem?_of_inputs hbs hj).trans hb)
    exact ⟨fun h1 => hlevels h1, fun h0 => hlevels h0⟩
  · simp only [outBytes, outputLen, outputSize]
    omega

/-! The decoder (41_manchester.md R121). -/

/-- The bit of a pair by the three rules in their order, for any NaN the two operations of the mean may answer. -/
theorem bitByte_manDecide (nan : Config.NanSite → F64) (k : Nat) (a c p p' : F64) :
    bitByte (manDecide nan k a c) =
      if feq a plusOne = true ∧ feq c minusOne = true then 1
      else if feq a minusOne = true ∧ feq c plusOne = true then 0
      else if fgt (fdiv p (fadd p' a c) two) plusZero = true then 1 else 0 := by
  simp only [manDecide, Bool.and_eq_true, fgt_mean_free (nan (.manSum k)) p' (nan (.manMean k)) p]
  split
  · rfl
  · split <;> rfl

/-- Settles O7: the body's output is the bits of the pairs it read. -/
theorem manDecDecidesEachPair : Obligations.ManDecDecidesEachPair := by
  intro q s hl hw
  obtain ⟨o, ho, hexec, hkept⟩ := exec_succeeds hl hw nofun
  obtain ⟨xs, hxs, hlen, rfl⟩ := bodyOf_eq_ok ho
  refine ⟨_, hexec, fun k a c p p' hk ha hc => ?_, fun k hk => hkept k ?_⟩
  · have hfst : xs[2 * k]? = some a := (getElem?_of_inputs hxs (by omega)).trans ha
    have hsnd : xs[2 * k + 1]? = some c := (getElem?_of_inputs hxs (by omega)).trans hc
    rw [Memory.read_writeList_zero _ _ (by rw [manDecode_length]; omega), manDecode_getElem? _ _ _ _ hfst hsnd,
      bitByte_manDecide _ _ a c p p']
    rfl
  · simpa only [outBytes, outputLen, outputSize, Nat.mul_one] using hk

/-! The round trip (41_manchester.md R122). -/

/-- The output of a command that succeeds has been written, all of it. -/
theorem output_written {i : Instr} {s : State} {out : Memory} (h : exec i s = .next (succeededWith i s out)) {k : Nat}
    (hk : k < outBytes i s) : Memory.read out k ≠ none := by
  rcases operationsAreAllOrNothing i s _ h with ⟨-, -, hout⟩ | ⟨herr, -⟩
  · obtain ⟨b, hb⟩ := hout k hk
    exact fun hnone => nomatch hb.symm.trans hnone
  · exact absurd rfl herr

/-- A copy of the encoder's output passes the decoder's length checks where it fits IBUF. -/
theorem lengthsPass_manDec {q q' : Bool} {s u : State} (hl : lengthsPass (.manEnc q) s) (hcfg : u.cfg = s.cfg)
    (hfits : 16 * s.inLen.toNat ≤ s.cfg.ibufBytes) (hlen : u.inLen.toNat = 2 * s.inLen.toNat) : lengthsPass (.manDec q') u := by
  obtain ⟨-, -, hroom⟩ := hl
  simp only [lengthsPass, inBytes, inputSize, outBytes, outputLen, outputSize, hcfg, hlen] at hroom ⊢
  exact ⟨by omega, .inr (by omega), by omega⟩

/-- The pair of a 1 is an exact match of the decoder's first rule, the pair of a 0 one of the second only. -/
theorem levels_match : feq plusOne plusOne = true ∧ feq minusOne minusOne = true ∧ feq minusOne plusOne = false := by
  decide

/-- Settles O26: every pair the encoder makes is an exact match of the decoder's. -/
theorem manchesterRoundTrip : Obligations.ManchesterRoundTrip := by
  intro q q' s u hl hbits hcfg hfits
  obtain ⟨levels, henc, hpairs, -⟩ := manEncMapsBitsToLevelPairs q s hl hbits
  refine ⟨_, henc, fun hlen hcopy => ?_⟩
  have hwritten : inputWritten (.manDec q') u := fun k hk => by
    simp only [inBytes, inputSize] at hk
    rw [hcopy k (by omega)]
    exact output_written henc (by simp only [outBytes, outputLen, outputSize]; omega)
  obtain ⟨bits, hdec, hdecide, -⟩ := manDecDecidesEachPair q' u (lengthsPass_manDec hl hcfg hfits hlen) hwritten
  have hhalf : u.inLen.toNat / 2 = s.inLen.toNat := by omega
  have hcopied {i : Nat} {x : F64} (hi : i < 2 * s.inLen.toNat) (hx : realAt levels i = some x) : realAt u.ibuf i = some x :=
    (realAt_congr fun k _ _ => hcopy k (by omega)).trans hx
  obtain ⟨hplus, hminus, hcross⟩ := levels_match
  refine ⟨_, hdec, rfl, ?_, fun j hj => ?_⟩
  · simp only [succeededWith, outputLen, hhalf, BitVec.ofNat_toNat, BitVec.setWidth_eq]
  · obtain ⟨hone, hzero⟩ := hpairs j hj
    have hbit {a c : F64} (ha : realAt levels (2 * j) = some a) (hc : realAt levels (2 * j + 1) = some c) :=
      hdecide j a c 0 0 (by omega) (hcopied (by omega) ha) (hcopied (by omega) hc)
    rcases hbits j hj with h0 | h1
    · obtain ⟨hfst, hsnd⟩ := hzero h0
      have hfirst : ¬(feq minusOne plusOne = true ∧ feq plusOne minusOne = true) := by simp [hcross]
      rw [h0]
      exact (hbit hfst hsnd).trans (congrArg some ((if_neg hfirst).trans (if_pos ⟨hminus, hplus⟩)))
    · obtain ⟨hfst, hsnd⟩ := hone h1
      rw [h1]
      exact (hbit hfst hsnd).trans (congrArg some (if_pos ⟨hplus, hminus⟩))

end Sys2Proof.Machine
end

section
/-! SUPPORT. The antipodal mapper and the sign slicer: what each makes of its input, and that the second undoes the first; whole numbers
up to 2^53 are exact, so that the energy of the mapper's symbols is (42_bpsk.md R130 to R132). -/
namespace Sys2Proof.Machine

/-! Exact whole numbers (00_scope.md R11). -/

/-- A binary64 is its sign and its pattern without the sign. -/
theorem eq_of_signBit_of_pattern {x y : F64} (hs : signBit x = signBit y) (hp : x.toNat % 2 ^ 63 = y.toNat % 2 ^ 63) : x = y := by
  have hmsb (z : F64) : signBit z = decide (2 ^ 63 ≤ z.toNat) := (BitVec.msb_eq_getLsbD_last z).symm.trans (BitVec.msb_eq_decide z)
  rw [hmsb, hmsb, decide_eq_decide] at hs
  exact BitVec.eq_of_toNat_eq (by omega)

/-- A value that is not zero rounds to one pattern only. -/
theorem RoundsTo.unique {v : ℝ} {x y : F64} (hv : v ≠ 0) (hx : RoundsTo v x) (hy : RoundsTo v y) : x = y := by
  obtain ⟨hpx, hnx, hsx⟩ := hx
  obtain ⟨hpy, hny, hsy⟩ := hy
  refine eq_of_signBit_of_pattern ?_ (le_antisymm (hpx.mono hpy le_rfl) (hpy.mono hpx le_rfl))
  rcases lt_or_gt_of_ne hv with h | h
  · rw [hnx h, hny h]
  · rw [hsx h, hsy h]

/-- A value of the grid is nearest to its own pattern. -/
theorem nearestPattern_gridValue {p : Nat} (hp : p ≤ infPattern) : NearestPattern ((gridValue p : ℝ) / 2 ^ 1074) p := by
  refine ⟨hp, fun q _ hne => .inl ?_⟩
  rw [sub_self, abs_zero, abs_pos, sub_ne_zero]
  rcases Nat.lt_or_gt_of_ne hne with h | h
  · exact (gridValue_unit_lt h).ne'
  · exact (gridValue_unit_lt h).ne

/-- Twice a value of the grid is one: a subnormal significand doubles, any other goes to the next binade. -/
theorem exists_gridValue_double (p : Nat) : ∃ q, gridValue q = 2 * gridValue p := by
  obtain ⟨e, k, rfl, he, hk⟩ := exists_binade p
  rw [gridValue_binade he hk.le]
  rcases Nat.lt_or_ge k (2 ^ 52) with h | h
  · obtain rfl : e = 0 := by omega
    exact ⟨0 * 2 ^ 52 + 2 * k, by rw [gridValue_binade (.inl rfl) (by omega), Nat.mul_assoc]⟩
  · exact ⟨(e + 1) * 2 ^ 52 + k, by rw [gridValue_binade (.inr h) hk.le]; ring⟩

/-- A whole number of at most 2^53 is on the grid at every scale. -/
theorem exists_gridValue_eq {n : Nat} (hn : n ≤ 2 ^ 53) (j : Nat) : ∃ p, gridValue p = n * 2 ^ j := by
  induction j with
  | zero => exact ⟨0 * 2 ^ 52 + n, gridValue_binade (.inl rfl) hn⟩
  | succ j ih =>
    obtain ⟨p, hp⟩ := ih
    obtain ⟨q, hq⟩ := exists_gridValue_double p
    exact ⟨q, by rw [hq, hp]; ring⟩

/-- A whole number of at most 2^53 is the value of a pattern below that of +∞. -/
theorem exists_finite_pattern {n : Nat} (hn : n ≤ 2 ^ 53) : ∃ p, p < infPattern ∧ gridValue p = n * 2 ^ 1074 := by
  obtain ⟨p, hp⟩ := exists_gridValue_eq hn 1074
  refine ⟨p, gridValue_lt_iff.mp ?_, hp⟩
  rw [hp, gridValue_infPattern]
  calc n * 2 ^ 1074 ≤ 2 ^ 53 * 2 ^ 1074 := Nat.mul_le_mul_right _ hn
    _ = 2 ^ (53 + 1074) := (Nat.pow_add _ _ _).symm
    _ < 2 ^ 2098 := Nat.pow_lt_pow_right Nat.one_lt_two (by decide)

theorem signBit_f64_natCast (n : Nat) : signBit (f64 n) = false :=
  (withSign_eq _ (Nat.lt_of_le_of_lt (roundMag_le _ 1) infPattern_lt)).2.trans (decide_eq_false (by omega))

theorem f64_natCast_roundsTo (n : Nat) : RoundsTo (n : ℝ) (f64 n) := by
  simpa only [Int.cast_natCast] using f64_roundsTo n

/-- The conversion of a whole number of at most 2^53 is exact. -/
theorem valueOf_f64_natCast {n : Nat} (hn : n ≤ 2 ^ 53) : isFinite (f64 n) = true ∧ valueOf (f64 n) = n := by
  obtain ⟨p, hlt, hp⟩ := exists_finite_pattern hn
  have hgrid : |(n : ℝ)| = (gridValue p : ℝ) / 2 ^ 1074 := by
    rw [hp, Nat.abs_cast, Nat.cast_mul, Nat.cast_pow, Nat.cast_ofNat, mul_div_cancel_right₀ _ unit_pos.ne']
  have hnear := nearestPattern_gridValue hlt.le
  have hround := (f64_natCast_roundsTo n).1
  rw [hgrid] at hround
  have hpat := le_antisymm (hround.mono hnear le_rfl) (hnear.mono hround le_rfl)
  refine ⟨(pattern_cases _).2.2.mpr (hpat ▸ hlt), ?_⟩
  rw [valueOf_eq, signBit_f64_natCast, magnitude, hpat, hp, if_neg Bool.false_ne_true, one_mul, Nat.cast_mul, Nat.cast_pow,
    Nat.cast_ofNat, mul_div_cancel_right₀ _ (pow_ne_zero _ two_ne_zero)]

/-- Counting up by one is exact as far as 2^53. -/
theorem fadd_f64_one (free : F64) {n : Nat} (hn : n + 1 ≤ 2 ^ 53) : fadd free (f64 n) (f64 (1 : Nat)) = f64 (n + 1 : Nat) := by
  obtain ⟨hfin, hval⟩ := valueOf_f64_natCast (Nat.le_of_succ_le hn)
  obtain ⟨hfin1, hval1⟩ := valueOf_f64_natCast (n := 1) (by omega)
  have hsum := (fadd_spec free hfin hfin1).1
  rw [hval, hval1, ← Nat.cast_add, Rat.cast_natCast] at hsum
  exact hsum.unique (by positivity) (f64_natCast_roundsTo _)

/-- A whole number divided by itself is exactly 1. -/
theorem fdiv_f64_self (free : F64) {n : Nat} (h0 : n ≠ 0) (hn : n ≤ 2 ^ 53) : fdiv free (f64 n) (f64 n) = f64 (1 : Nat) := by
  obtain ⟨hfin, hval⟩ := valueOf_f64_natCast hn
  have hne : (n : ℚ) ≠ 0 := Nat.cast_ne_zero.mpr h0
  have hquot := (fdiv_spec free hfin hfin (hval ▸ hne)).1
  rw [hval, div_self hne, Rat.cast_one, ← Nat.cast_one] at hquot
  exact hquot.unique (by positivity) (f64_natCast_roundsTo 1)

theorem f64_one : f64 (1 : Nat) = plusOne := by decide +kernel
theorem f64_zero : f64 (0 : Nat) = plusZero := by decide +kernel

/-! Symbols (42_bpsk.md R130). -/

@[simp] theorem bpskSymbol_one : bpskSymbol 1 = plusOne := by decide +kernel
@[simp] theorem bpskSymbol_zero : bpskSymbol 0 = minusOne := by decide +kernel

/-- Where no operand is a NaN, a product does not depend on the free payload. -/
theorem fmul_free {a b : F64} (free free' : F64) (ha : isNaN a = false) (hb : isNaN b = false) : fmul free a b = fmul free' a b := by
  simp only [fmul, ha, hb, Bool.or_self, Bool.false_eq_true, if_false]

/-- The square of either symbol is 1. -/
theorem fmul_bpskSymbol_self (free : F64) {b : Byte} (hb : b = 0 ∨ b = 1) : fmul free (bpskSymbol b) (bpskSymbol b) = plusOne := by
  rcases hb with rfl | rfl
  · rw [bpskSymbol_zero, fmul_free free 0 (by decide) (by decide)]
    decide +kernel
  · rw [bpskSymbol_one, fmul_free free 0 (by decide) (by decide)]
    decide +kernel

/-! The energy (42_bpsk.md R132, 44_awgn.md R153). -/

/-- The running sum of the squares of symbols counts them. -/
theorem energySumReal_bpskSymbols (nan : Config.NanSite → F64) (bs : List Byte) (i n : Nat) (hn : n + bs.length ≤ 2 ^ 53)
    (hbits : ∀ b ∈ bs, b = 0 ∨ b = 1) :
    energySumReal nan i (f64 n) (bs.map bpskSymbol) = f64 (n + bs.length : Nat) := by
  induction bs generalizing i n with
  | nil => rfl
  | cons b bs ih =>
    obtain ⟨hb, hbs⟩ := List.forall_mem_cons.mp hbits
    rw [List.length_cons] at hn
    rw [List.map_cons, energySumReal, fmul_bpskSymbol_self _ hb, ← f64_one, fadd_f64_one _ (by omega), ih _ _ (by omega) hbs,
      List.length_cons, Nat.add_right_comm, Nat.add_assoc]

/-- Settles O29: the sum of the squares is the number of symbols, exactly, and so the mean is 1. -/
theorem bpskEnergyIsExactlyOne : Obligations.BpskEnergyIsExactlyOne := by
  intro nan bs hne hlen hbits
  have hsum := energySumReal_bpskSymbols nan bs 0 0 (by omega) hbits
  rw [f64_zero, Nat.zero_add] at hsum
  rw [energyReal, hsum, List.length_map, fdiv_f64_self _ (by simpa using hne) hlen, f64_one]
  rfl

/-! The mapper (42_bpsk.md R130). -/

/-- Settles O8: the body's output is the symbols of the bits it read. -/
theorem bpskModMapsBitsToSigns : Obligations.BpskModMapsBitsToSigns := by
  intro q s hl hbits
  obtain ⟨o, ho, hexec, hkept⟩ := exec_succeeds hl (inputWritten_of_bitsUpTo rfl hbits) fun _ => hbits
  obtain ⟨bs, hbs, hlen, rfl⟩ := bodyOf_eq_ok ho
  refine ⟨_, hexec, fun j hj => ?_, fun k hk => hkept k ?_⟩
  · have hsymbol {b : Byte} (hb : Memory.read s.ibuf j = some b) :
        realAt (Memory.writeList s.obuf 0 ((bs.map bpskSymbol).flatMap realBytes)) j = some (bpskSymbol b) := by
      have hbit : bs[j]? = some b := (getElem?_of_inputs hbs hj).trans hb
      rw [realAt_writeList _ _ (by rwa [List.length_map, hlen]), List.getElem?_map, hbit, Option.map_some]
    exact ⟨fun h1 => (hsymbol h1).trans (congrArg some bpskSymbol_one), fun h0 => (hsymbol h0).trans (congrArg some bpskSymbol_zero)⟩
  · simp only [outBytes, outputLen, outputSize]
    omega

/-! The slicer (42_bpsk.md R131). -/

/-- Settles O9: the body's output is the signs of the elements it read. -/
theorem bpskDemodSlicesBySign : Obligations.BpskDemodSlicesBySign := by
  intro q s hl hw
  obtain ⟨o, ho, hexec, hkept⟩ := exec_succeeds hl hw nofun
  obtain ⟨xs, hxs, hlen, rfl⟩ := bodyOf_eq_ok ho
  refine ⟨_, hexec, fun j x hj hx => ?_, fun k hk => hkept k ?_⟩
  · have helem : xs[j]? = some x := (getElem?_of_inputs hxs hj).trans hx
    rw [Memory.read_writeList_zero _ _ (by rwa [List.length_map, hlen]), List.getElem?_map, helem]
    rfl
  · simpa only [outBytes, outputLen, outputSize, Nat.mul_one] using hk

/-! The round trip (42_bpsk.md R132). -/

/-- A copy of the mapper's output passes the slicer's length checks where it fits IBUF. -/
theorem lengthsPass_bpskDemod {q q' : Bool} {s u : State} (hl : lengthsPass (.bpskMod q) s) (hcfg : u.cfg = s.cfg)
    (hfits : 8 * s.inLen.toNat ≤ s.cfg.ibufBytes) (hlen : u.inLen = s.inLen) : lengthsPass (.bpskDemod q') u := by
  obtain ⟨-, -, hroom⟩ := hl
  simp only [lengthsPass, inBytes, inputSize, outBytes, outputLen, outputSize, hcfg, hlen] at hroom ⊢
  exact ⟨by omega, .inl rfl, by omega⟩

/-- The symbol of a 1 is above zero, that of a 0 is not. -/
theorem fgt_plusOne_minusOne : fgt plusOne 0 = true ∧ ¬fgt minusOne 0 = true := by decide

/-- Settles O27: the slicer reads the sign of each symbol the mapper wrote. -/
theorem bpskRoundTrip : Obligations.BpskRoundTrip := by
  intro q q' s u hl hbits hcfg hfits
  obtain ⟨symbols, hmod, hsigns, -⟩ := bpskModMapsBitsToSigns q s hl hbits
  refine ⟨_, hmod, fun hlen hcopy => ?_⟩
  have hwritten : inputWritten (.bpskDemod q') u := fun k hk => by
    simp only [inBytes, inputSize, hlen] at hk
    rw [hcopy k (by omega)]
    exact output_written hmod (by simp only [outBytes, outputLen, outputSize]; omega)
  obtain ⟨bits, hdemod, hslice, -⟩ := bpskDemodSlicesBySign q' u (lengthsPass_bpskDemod hl hcfg hfits hlen) hwritten
  refine ⟨_, hdemod, rfl, ?_, fun j hj => ?_⟩
  · simp only [succeededWith, outputLen, hlen, BitVec.ofNat_toNat, BitVec.setWidth_eq]
  · have hbit {x : F64} (hx : realAt symbols j = some x) : Memory.read bits j = some (if fgt x 0 = true then 1 else 0) :=
      hslice j x (hlen ▸ hj) ((realAt_congr fun k _ _ => hcopy k (by omega)).trans hx)
    obtain ⟨hone, hzero⟩ := hsigns j hj
    obtain ⟨hpos, hneg⟩ := fgt_plusOne_minusOne
    rcases hbits j hj with h0 | h1
    · rw [h0]
      exact (hbit (hzero h0)).trans (congrArg some (if_neg hneg))
    · rw [h1]
      exact (hbit (hone h1)).trans (congrArg some (if_pos hpos))

end Sys2Proof.Machine
end

section
/-! SUPPORT. The Gray-coded mapper and the quadrant slicer: what each makes of its input, that the mapping is a Gray code, and that the
slicer undoes the mapper for every legal `QPSK_S` (43_qpsk.md R141 to R145). -/
namespace Sys2Proof.Machine

/-! The mapping (43_qpsk.md R143). -/

/-- No value is its own negative: the signs differ, those of the zeros and the NaNs too. -/
theorem negate_ne (x : F64) : negate x ≠ x := fun h => by
  obtain ⟨hsign, -⟩ := negate_spec x
  rw [h] at hsign
  exact Bool.self_ne_not _ hsign

/-- The component a bit selects, `S` or `−S`, determines the bit. -/
theorem component_eq_iff (S : F64) {b c : Byte} (hb : b = 0 ∨ b = 1) (hc : c = 0 ∨ c = 1) :
    b = c ↔ (if b = 1 then negate S else S) = if c = 1 then negate S else S := by
  have hne := negate_ne S
  rcases hb with rfl | rfl <;> rcases hc with rfl | rfl <;> simp [hne, hne.symm]

/-- Settles O30: each bit of a pair selects the sign of one component. -/
theorem qpskMappingIsAGrayCode : Obligations.QpskMappingIsAGrayCode := by
  intro S
  refine ⟨rfl, by simp, fun b0 b1 c0 c1 hb0 hb1 hc0 hc1 => ?_⟩
  rw [qpskSymbol_eq, qpskSymbol_eq]
  exact ⟨component_eq_iff S hb0 hc0, component_eq_iff S hb1 hc1⟩

/-! The mapper (43_qpsk.md R141). -/

/-- The mapper succeeds and its output is the symbols of the bit pairs it read. -/
theorem exec_qpskMod {q : Bool} {s : State} (hl : lengthsPass (.qpskMod q) s) (hbits : bitsUpTo s s.inLen.toNat) :
    ∃ out, exec (.qpskMod q) s = .next (succeededWith (.qpskMod q) s out) ∧
      (∀ (k : Nat) (b0 b1 : Byte), k < s.inLen.toNat / 2 →
        Memory.read s.ibuf (2 * k) = some b0 → Memory.read s.ibuf (2 * k + 1) = some b1 →
        cplxAt out k = some (qpskSymbol s.cfg.qpskS b0 b1)) ∧
      keptBeyond (16 * (s.inLen.toNat / 2)) s.obuf out := by
  obtain ⟨o, ho, hexec, hkept⟩ := exec_succeeds hl (inputWritten_of_bitsUpTo rfl hbits) fun _ => hbits
  obtain ⟨bs, hbs, hlen, rfl⟩ := bodyOf_eq_ok ho
  refine ⟨_, hexec, fun k b0 b1 hk h0 h1 => ?_, fun k hk => hkept k ?_⟩
  · have hfst : bs[2 * k]? = some b0 := (getElem?_of_inputs hbs (by omega)).trans h0
    have hsnd : bs[2 * k + 1]? = some b1 := (getElem?_of_inputs hbs (by omega)).trans h1
    rw [cplxAt_writeList _ _ (by rwa [qpskMap_length, hlen]), qpskMap_getElem? _ _ _ hfst hsnd]
  · simp only [outBytes, outputLen, outputSize]
    omega

/-- Settles O10: the symbol of each of the four bit pairs is that of the table. -/
theorem qpskModMapsBitPairs : Obligations.QpskModMapsBitPairs := by
  intro q s hl hbits
  obtain ⟨out, hexec, hsymbols, hkept⟩ := exec_qpskMod hl hbits
  refine ⟨out, hexec, fun k b0 b1 hk h0 h1 => ?_, hkept⟩
  rw [hsymbols k b0 b1 hk h0 h1]
  refine ⟨?_, ?_, ?_, ?_⟩ <;> rintro rfl rfl <;> rfl

/-! The slicer (43_qpsk.md R142). -/

/-- Settles O11: the body's output is the signs of the symbols it read, the imaginary part's first. -/
theorem qpskDemodSlicesByQuadrant : Obligations.QpskDemodSlicesByQuadrant := by
  intro q s hl hw
  obtain ⟨o, ho, hexec, hkept⟩ := exec_succeeds hl hw nofun
  obtain ⟨zs, hzs, hlen, rfl⟩ := bodyOf_eq_ok ho
  refine ⟨_, hexec, fun k re im hk hz => ?_, fun k hk => hkept k ?_⟩
  · have helem : zs[k]? = some (re, im) := (getElem?_of_inputs hzs hk).trans hz
    have hbytes := length_flatMap_const qpskSlice 2 qpskSlice_length zs
    obtain ⟨hfst, hsnd⟩ := qpskSlices_getElem? zs k
    rw [Memory.read_writeList_zero (zs.flatMap qpskSlice) _ (by omega), Memory.read_writeList_zero (zs.flatMap qpskSlice) _ (by omega),
      hfst, hsnd, helem]
    exact ⟨rfl, rfl⟩
  · simpa only [outBytes, outputLen, outputSize, Nat.mul_one] using hk

/-! The round trip (43_qpsk.md R145). -/

/-- A finite value is below zero by the comparison exactly when its exact value is. -/
theorem flt_plusZero_iff {x : F64} (h : isFinite x = true) : flt x plusZero = true ↔ valueOf x < 0 := by
  obtain ⟨hnan, hinf⟩ := finite_cases h
  have hnan0 : isNaN plusZero = false := by decide
  have hinf0 : isInf plusZero = false := by decide
  have hval0 : valueOf plusZero = 0 := valueOf_eq_zero.mpr (by decide)
  simp only [flt_iff, hnan, hnan0, extendedValue, hinf, hinf0, hval0, true_and, Bool.false_eq_true, if_false, WithBot.coe_lt_coe,
    WithTop.coe_lt_coe]

/-- A legal `QPSK_S` is finite and above zero (00_scope.md R6). -/
theorem qpskS_pos {p : Config.Params} (h : p.legal = true) : isFinite p.qpskS = true ∧ 0 < valueOf p.qpskS := by
  simp only [Config.Params.legal, Bool.and_eq_true, decide_eq_true_eq] at h
  obtain ⟨⟨-, hpos⟩, hfin⟩ := h
  have hpat : p.qpskS.toNat % 2 ^ 63 = p.qpskS.toNat := Nat.mod_eq_of_lt (by omega)
  have hsign : signBit p.qpskS = false := (BitVec.msb_eq_getLsbD_last _).symm.trans (BitVec.msb_eq_false_iff_two_mul_lt.mpr (by omega))
  have hne : valueOf p.qpskS ≠ 0 := by
    rw [ne_eq, valueOf_eq_zero, ← magnitude_eq_zero, magnitude, gridValue_eq_zero, hpat]
    omega
  obtain ⟨-, -, hfinite⟩ := pattern_cases p.qpskS
  exact ⟨hfinite.mpr (hpat.trans_lt hfin), (valueOf_nonneg hsign).lt_of_ne' hne⟩

/-- The sign of the component a bit selected is the bit. -/
theorem slice_component {S : F64} (hfin : isFinite S = true) (hpos : 0 < valueOf S) {b : Byte} (hb : b = 0 ∨ b = 1) :
    (if flt (if b = 1 then negate S else S) plusZero = true then (1 : Byte) else 0) = b := by
  rcases hb with rfl | rfl
  · have hplus : ¬flt S plusZero = true := fun h => absurd ((flt_plusZero_iff hfin).mp h) hpos.not_gt
    exact if_neg hplus
  · obtain ⟨-, -, -, hfinite⟩ := negate_spec S
    have hminus : flt (negate S) plusZero = true :=
      (flt_plusZero_iff (hfinite.trans hfin)).mpr (by rwa [valueOf_negate, neg_lt_zero])
    exact if_pos hminus

/-- A copy of the mapper's output passes the slicer's length checks where it fits IBUF. -/
theorem lengthsPass_qpskDemod {q q' : Bool} {s u : State} (hl : lengthsPass (.qpskMod q) s) (hcfg : u.cfg = s.cfg)
    (hfits : 8 * s.inLen.toNat ≤ s.cfg.ibufBytes) (hlen : 2 * u.inLen.toNat = s.inLen.toNat) : lengthsPass (.qpskDemod q') u := by
  obtain ⟨-, -, hroom⟩ := hl
  simp only [lengthsPass, inBytes, inputSize, outBytes, outputLen, outputSize, hcfg, ← hlen] at hroom hfits ⊢
  exact ⟨by omega, .inl rfl, by omega⟩

/-- Settles O28: the slicer reads the sign of each component the mapper wrote. -/
theorem qpskRoundTrip : Obligations.QpskRoundTrip := by
  intro q q' s u hl hbits hlegal hcfg hfits
  obtain ⟨symbols, hmod, hsymbols, -⟩ := exec_qpskMod hl hbits
  refine ⟨_, hmod, fun hlen hcopy => ?_⟩
  have hwritten : inputWritten (.qpskDemod q') u := fun k hk => by
    simp only [inBytes, inputSize] at hk
    rw [hcopy k (by omega)]
    exact output_written hmod (by simp only [outBytes, outputLen, outputSize]; omega)
  obtain ⟨bits, hdemod, hslice, -⟩ := qpskDemodSlicesByQuadrant q' u (lengthsPass_qpskDemod hl hcfg hfits hlen) hwritten
  obtain ⟨hfin, hpos⟩ := qpskS_pos hlegal
  have hbyte {j : Nat} (hj : j < s.inLen.toNat) : ∃ b, Memory.read s.ibuf j = some b ∧ (b = 0 ∨ b = 1) :=
    (hbits j hj).elim (fun h => ⟨0, h, .inl rfl⟩) fun h => ⟨1, h, .inr rfl⟩
  have hpair (k : Nat) (hk : k < u.inLen.toNat) :
      Memory.read bits (2 * k) = Memory.read s.ibuf (2 * k) ∧ Memory.read bits (2 * k + 1) = Memory.read s.ibuf (2 * k + 1) := by
    obtain ⟨b0, h0, hb0⟩ := hbyte (j := 2 * k) (by omega)
    obtain ⟨b1, h1, hb1⟩ := hbyte (j := 2 * k + 1) (by omega)
    have hsymbol := (cplxAt_congr fun j _ _ => hcopy j (by omega)).trans (hsymbols k b0 b1 (by omega) h0 h1)
    rw [qpskSymbol_eq] at hsymbol
    obtain ⟨hfst, hsnd⟩ := hslice k _ _ hk hsymbol
    rw [h0, h1]
    exact ⟨hfst.trans (congrArg some (slice_component hfin hpos hb0)), hsnd.trans (congrArg some (slice_component hfin hpos hb1))⟩
  refine ⟨_, hdemod, rfl, ?_, fun j hj => ?_⟩
  · simp only [succeededWith, outputLen, hlen, BitVec.ofNat_toNat, BitVec.setWidth_eq]
  · obtain ⟨hfst, hsnd⟩ := hpair (j / 2) (by omega)
    rcases Nat.mod_two_eq_zero_or_one j with h | h
    · rwa [show 2 * (j / 2) = j by omega] at hfst
    · rwa [show 2 * (j / 2) + 1 = j by omega] at hsnd

end Sys2Proof.Machine
end

section
/-! SUPPORT. The noise channel: what it makes of a real and of a complex stream, the average energy it scales the noise by, and where a NaN
SNR leads (44_awgn.md R150 to R158). -/
namespace Sys2Proof.Machine

/-! The noise source (44_awgn.md R151). -/

theorem noise_of_not_finite {seed index : BitVec 64} (h : isFinite (Config.noise seed index) = false) :
    noise seed index = plusZero := by simp [noise, h]

/-- Settles O32: the function's value where it is finite, and +0.0, which is finite, elsewhere. -/
theorem noiseIsFinite : Obligations.NoiseIsFinite := by
  intro seed index
  cases h : isFinite (Config.noise seed index) with
  | true => rw [noise_of_finite h]; exact ⟨h, .inl rfl⟩
  | false => rw [noise_of_not_finite h]; exact ⟨by decide, .inr rfl⟩

/-! The average energy (44_awgn.md R153). -/

/-- The sum of a real stream in two parts: the second part goes on from the sum of the first. -/
theorem energySumReal_append (nan : Config.NanSite → F64) (xs ys : List F64) (i : Nat) (acc : F64) :
    energySumReal nan i acc (xs ++ ys) = energySumReal nan (i + xs.length) (energySumReal nan i acc xs) ys := by
  induction xs generalizing i acc with
  | nil => rfl
  | cons x xs ih => rw [List.cons_append, energySumReal, ih, energySumReal, List.length_cons, Nat.add_assoc, Nat.add_comm 1]

/-- The sum of a complex stream in two parts. -/
theorem energySumCplx_append (nan : Config.NanSite → F64) (zs ws : List (F64 × F64)) (i : Nat) (acc : F64) :
    energySumCplx nan i acc (zs ++ ws) = energySumCplx nan (i + zs.length) (energySumCplx nan i acc zs) ws := by
  induction zs generalizing i acc with
  | nil => rfl
  | cons z zs ih => rw [List.cons_append, energySumCplx, ih, energySumCplx, List.length_cons, Nat.add_assoc, Nat.add_comm 1]

/-- Settles O14: a sum that goes on with one element more adds that element's power at its end. -/
theorem energyIsTheLeftToRightMean : Obligations.EnergyIsTheLeftToRightMean := by
  refine fun nan => ⟨rfl, rfl, fun xs x => ?_, fun zs re im => ?_, fun _ => rfl, fun _ => rfl⟩
  · rw [energySumReal_append, Nat.zero_add]
    rfl
  · rw [energySumCplx_append, Nat.zero_add]
    rfl

/-! The two streams (44_awgn.md R155, R156). -/

/-- A command that takes no bits, with its length checks passed, succeeds with what its body answers. -/
theorem exec_of_body {i : Instr} {s : State} {o : Output} (hl : lengthsPass i s) (hb : takesBits i = false) (ho : bodyFor i s = .ok o) :
    exec i s = .next (succeededWith i s (Memory.writeList s.obuf 0 o.bytes)) ∧
      keptBeyond (outBytes i s) s.obuf (Memory.writeList s.obuf 0 o.bytes) := by
  obtain ⟨hbytes, -⟩ := bodyFor_output ho
  exact ⟨exec_success (check_pass_of_lengthsPass hl fun h => nomatch hb.symm.trans h) ho, hbytes ▸ keptBeyond_writeList _ _⟩

/-- The elements an accessor reads one by one are the input of an operation. -/
theorem inputs_eq_some {α : Type} {s : State} {get : Memory → Nat → Option α} {xs : List α} (hlen : xs.length = s.inLen.toNat)
    (hread : ∀ j, j < s.inLen.toNat → get s.ibuf j = xs[j]?) : inputs s get = some xs :=
  (collect_eq_some _ _ _ _).mpr ⟨hlen, by simpa only [Nat.zero_add] using hread⟩

/-- What the channel makes of the real stream `xs` it reads. -/
theorem exec_awgnReal {q : Bool} {s : State} {xs : List F64} (hl : lengthsPass (.awgnReal q) s) (hxs : inputs s realAt = some xs) :
    let nan := Config.nanPayload s.freeCnt
    let sigma := sigmaReal nan (snrLin nan s) xs
    ∃ out, exec (.awgnReal q) s = .next (succeededWith (.awgnReal q) s out) ∧
      (∀ (i : Nat) (x : F64), xs[i]? = some x →
        realAt out i = some (fadd (nan (.add i)) x (fmul (nan (.scale i)) sigma (draw s i)))) ∧
      keptBeyond (8 * s.inLen.toNat) s.obuf out := by
  obtain ⟨hexec, hkept⟩ := exec_of_body hl rfl (bodyOf_ok hxs)
  refine ⟨_, hexec, fun i x hx => ?_, Nat.mul_comm 8 _ ▸ hkept⟩
  obtain ⟨hi, -⟩ := List.getElem?_eq_some_iff.mp hx
  rw [realAt_writeList _ _ (by rwa [channelReal_length]), channelReal_getElem?, hx, Option.map_some]

/-- What the channel makes of the complex stream `zs` it reads. -/
theorem exec_awgnCplx {q : Bool} {s : State} {zs : List (F64 × F64)} (hl : lengthsPass (.awgnCplx q) s)
    (hzs : inputs s cplxAt = some zs) :
    let nan := Config.nanPayload s.freeCnt
    let sigma := sigmaCplx nan (snrLin nan s) zs
    ∃ out, exec (.awgnCplx q) s = .next (succeededWith (.awgnCplx q) s out) ∧
      (∀ (i : Nat) (re im : F64), zs[i]? = some (re, im) →
        cplxAt out i = some (fadd (nan (.add i)) re (fmul (nan (.scale i)) sigma (draw s (2 * i))),
          fadd (nan (.addIm i)) im (fmul (nan (.scaleIm i)) sigma (draw s (2 * i + 1))))) ∧
      keptBeyond (16 * s.inLen.toNat) s.obuf out := by
  obtain ⟨hexec, hkept⟩ := exec_of_body hl rfl (bodyOf_ok hzs)
  refine ⟨_, hexec, fun i re im hz => ?_, Nat.mul_comm 16 _ ▸ hkept⟩
  obtain ⟨hi, -⟩ := List.getElem?_eq_some_iff.mp hz
  rw [cplxAt_writeList _ _ (by rwa [channelCplx_length]), channelCplx_getElem?, hz, Option.map_some]

/-- Settles O12: the body's output is the channel's for the elements given. -/
theorem awgnRealAddsCalibratedNoise : Obligations.AwgnRealAddsCalibratedNoise := fun _ _ _ hl hlen hread =>
  exec_awgnReal hl (inputs_eq_some hlen hread)

/-- Settles O13: the body's output is the channel's for the symbols given. -/
theorem awgnCplxAddsCalibratedNoise : Obligations.AwgnCplxAddsCalibratedNoise := fun _ _ _ hl hlen hread =>
  exec_awgnCplx hl (inputs_eq_some hlen hread)

/-! A NaN SNR (44_awgn.md R158): it goes through the linear SNR, the variance and the root into the noise of every component. -/

section
variable (nan : Config.NanSite → F64)

theorem isNaN_snrLin {s : State} (h : isNaN s.snrDb = true) : isNaN (snrLin nan s) = true := by
  obtain ⟨-, -, -, -, hnan, -⟩ := exp10_legal s.cfg.exp10
  have htenth : isNaN (fdiv (nan .snrTenth) s.snrDb ten) = true := by rw [fdiv_nan_left _ _ h, isNaN_quietNaN]
  exact hnan (BitVec.toFin _) htenth

theorem isNaN_sigmaReal {snr : F64} (h : isNaN snr = true) (xs : List F64) : isNaN (sigmaReal nan snr xs) = true := by
  rw [sigmaReal, fdiv_nan_right _ _ h, fsqrt_nan _ (isNaN_quietNaN _), isNaN_quietNaN]

theorem isNaN_sigmaCplx {snr : F64} (h : isNaN snr = true) (zs : List (F64 × F64)) : isNaN (sigmaCplx nan snr zs) = true := by
  rw [sigmaCplx, fdiv_nan_right _ _ h, fdiv_nan_left _ _ (isNaN_quietNaN _), fsqrt_nan _ (isNaN_quietNaN _), isNaN_quietNaN]

end

/-- Noise scaled by a NaN makes a NaN of whatever it is added to. -/
theorem isNaN_add_scaled {sigma : F64} (h : isNaN sigma = true) (free free' x z : F64) :
    isNaN (fadd free x (fmul free' sigma z)) = true := by
  rw [fmul_nan_left _ _ h, fadd_nan_right _ _ (isNaN_quietNaN _), isNaN_quietNaN]

/-- Settles O34: the standard deviation is a NaN, and so is every sum with the noise it scales. -/
theorem nanSnrMakesEveryOutputNan : Obligations.NanSnrMakesEveryOutputNan := by
  intro q s hsnr
  have hlin := isNaN_snrLin (Config.nanPayload s.freeCnt) hsnr
  refine ⟨fun hl hw => ?_, fun hl hw => ?_⟩
  · obtain ⟨o, ho⟩ := bodyFor_answers hw
    obtain ⟨xs, hxs, hlen, -⟩ := bodyOf_eq_ok ho
    obtain ⟨out, hexec, hout, -⟩ := exec_awgnReal hl hxs
    have hsum := isNaN_add_scaled (isNaN_sigmaReal (Config.nanPayload s.freeCnt) hlin xs)
    exact ⟨out, hexec, fun i hi => ⟨_, hout i _ (List.getElem?_eq_getElem (hlen ▸ hi)), hsum _ _ _ _⟩⟩
  · obtain ⟨o, ho⟩ := bodyFor_answers hw
    obtain ⟨zs, hzs, hlen, -⟩ := bodyOf_eq_ok ho
    obtain ⟨out, hexec, hout, -⟩ := exec_awgnCplx hl hzs
    have hsum := isNaN_add_scaled (isNaN_sigmaCplx (Config.nanPayload s.freeCnt) hlin zs)
    exact ⟨out, hexec, fun i hi => ⟨_, _, hout i _ _ (List.getElem?_eq_getElem (hlen ▸ hi)), hsum _ _ _ _, hsum _ _ _ _⟩⟩

end Sys2Proof.Machine
end

section
/-! SUPPORT. The errors each command reports, and the state that stands still without a command (60_exceptions.md R172, R174, R185). -/
namespace Sys2Proof.Machine

/-- Settles O19: a command that succeeds has no error, and one that fails has an error of its own checks. -/
theorem onlyListedErrorsAreRaised : Obligations.OnlyListedErrorsAreRaised := by
  intro i s t h
  rcases exec_next h with ⟨c, info, hc, rfl⟩ | ⟨o, -, -, -, rfl⟩
  · rcases check_error hc with ⟨hcap, -⟩ | ⟨hodd, -⟩ | ⟨htakes, hbit⟩
    · exact .inr (.inl hcap)
    · exact .inr (.inr (.inl (shapeOf_parity i ▸ hodd)))
    · exact .inr (.inr (.inr ⟨shapeOf_checksBits i ▸ htakes, hbit⟩))
  · exact .inl rfl

/-- A command that pairs its input reports an odd length as its own error, once the input fits (60_exceptions.md R174, check 3). -/
theorem exec_oddLength {i : Instr} {s : State} {c : ErrorCode} (hin : inBytes i s ≤ s.cfg.ibufBytes) (hc : oddError i = some c)
    (hodd : s.inLen.toNat % 2 = 1) : exec i s = .next (failedWith i s c 0) := by
  refine exec_error (check_parity ?_ ?_ hodd)
  · rwa [shapeOf_inputSize]
  · rwa [shapeOf_parity]

/-- Settles O16: the two commands that pair their input, each with its own error. -/
theorem oddLengthIsReported : Obligations.OddLengthIsReported := fun _ _ hodd =>
  ⟨fun hin => exec_oddLength hin rfl hodd, fun hin => exec_oddLength hin rfl hodd⟩

/-- A turn that takes nothing from the agenda changes the port's answer alone. -/
theorem turn_agenda (s : State) : s.turn s.agenda = { s with answer := none } := rfl

/-- Settles O43: the turn of an idle state with an empty agenda takes nothing from it. -/
theorem idleHoldsItsState : Obligations.IdleHoldsItsState := fun s hidle hheld hagenda => by
  rw [step_idle_empty hidle hheld hagenda, ← hagenda, turn_agenda]

end Sys2Proof.Machine
end
